-- ==== Sys2Proof/Config.lean ====
section
/-! DEFINITION. The engine's parameters (00_scope.md R9): "No parameter is left open as a model argument."
The constant tables that R8 calls configuration (IV, K, S, g) stand in Machine/Rom.lean.
The spec leaves no value free (R14), so this file holds no free value. -/

namespace Sys2Proof.Config

/-- The only width of a bus access, in bytes (R72). -/
abbrev accessBytes : Nat := 4

/-- Bytes of one block: the capacity of the input buffer (R9). -/
abbrev blockBytes : Nat := 64

/-- Rounds of one block (R9). -/
abbrev rounds : Nat := 64

/-- Engine steps of one block: 64 ROUND and one ACCUM (R9, R340). -/
abbrev stepsPerBlock : Nat := 65

/-- The largest `bufLen` for which FINALIZE pads within one block (R170). -/
abbrev onePadLimit : Nat := 55

end Sys2Proof.Config
end

