-- ==== Sys2Proof/Word.lean ====
section
/-! DEFINITION. The word types of the engine (00_scope.md R9, R10): every value is unsigned. -/

namespace Sys2Proof

/-- A `u32` (R10). -/
abbrev Word := BitVec 32

/-- Eight bits: one message byte. -/
abbrev Byte := BitVec 8

/-- Four digest words (R31, R42). -/
abbrev Digest := Vector Word 4

/-- Sixteen words of 32 bits, one 64-byte block (R33, R37). -/
abbrev Block := Vector Word 16

end Sys2Proof
end

