-- ==== Sys2Proof/Machine/Alu.lean ====
section
/-! DEFINITION. The 32-bit datapath primitives (43_alu.md R240 to R250). None writes a flag or fails, except that a
rotation amount of 32 or more is refused (R244). -/

namespace Sys2Proof.Machine

/-- ADD32 (R240): the carry out is discarded. -/
def add32 (x y : Word) : Word := x + y

/-- NOT32 (R242). -/
def not32 (x : Word) : Word := ~~~x

/-- AND32 (R243). -/
def and32 (x y : Word) : Word := x &&& y

/-- OR32 (R243). -/
def or32 (x y : Word) : Word := x ||| y

/-- XOR32 (R243). -/
def xor32 (x y : Word) : Word := x ^^^ y

/-- ROTL32 (R244). An amount of 32 or more has no result: "A model should refuse it rather than reduce it modulo
32" (93 U3). -/
def rotl32 (x : Word) (s : Nat) : Option Word :=
  if s = 0 then some x
  else if s < 32 then some (or32 (x <<< s) (x >>> (32 - s)))
  else none

/-- BSWAP32 (R246): `{x[7:0], x[15:8], x[23:16], x[31:24]}`. -/
def bswap32 (x : Word) : Word :=
  x.extractLsb' 0 8 ++ x.extractLsb' 8 8 ++ x.extractLsb' 16 8 ++ x.extractLsb' 24 8

/-- F0, stage 0 (R247). -/
def f0 (x y z : Word) : Word := or32 (and32 x y) (and32 (not32 x) z)

/-- F1, stage 1 (R248). -/
def f1 (x y z : Word) : Word := or32 (and32 x z) (and32 y (not32 z))

/-- F2, stage 2 (R249). -/
def f2 (x y z : Word) : Word := xor32 (xor32 x y) z

/-- F3, stage 3 (R250). -/
def f3 (x y z : Word) : Word := xor32 y (or32 x (not32 z))

end Sys2Proof.Machine
end

