-- ==== Sys2Proof/Machine/Rom.lean ====
section
/-! DEFINITION. The constant tables (00_scope.md R8): IV (10_state.md R32), the round-constant ROM K
(44_round_rom.md R271), the rotation table S (R274) and the message-index function g (42_compression.md R205).
They are the same in every instance and no operation writes them (R272). -/

namespace Sys2Proof.Machine

/-- The initialization vector (R32); `iv[0]` is the value of A. -/
def iv : Digest := #v[0x67452301#32, 0xEFCDAB89#32, 0x98BADCFE#32, 0x10325476#32]

/-- K[0..15], the constants of stage 0 (R271). -/
def romStage0 : List Word :=
  [0xd76aa478#32, 0xe8c7b756#32, 0x242070db#32, 0xc1bdceee#32,
    0xf57c0faf#32, 0x4787c62a#32, 0xa8304613#32, 0xfd469501#32,
    0x698098d8#32, 0x8b44f7af#32, 0xffff5bb1#32, 0x895cd7be#32,
    0x6b901122#32, 0xfd987193#32, 0xa679438e#32, 0x49b40821#32]

/-- K[16..31], the constants of stage 1 (R271). -/
def romStage1 : List Word :=
  [0xf61e2562#32, 0xc040b340#32, 0x265e5a51#32, 0xe9b6c7aa#32,
    0xd62f105d#32, 0x02441453#32, 0xd8a1e681#32, 0xe7d3fbc8#32,
    0x21e1cde6#32, 0xc33707d6#32, 0xf4d50d87#32, 0x455a14ed#32,
    0xa9e3e905#32, 0xfcefa3f8#32, 0x676f02d9#32, 0x8d2a4c8a#32]

/-- K[32..47], the constants of stage 2 (R271). -/
def romStage2 : List Word :=
  [0xfffa3942#32, 0x8771f681#32, 0x6d9d6122#32, 0xfde5380c#32,
    0xa4beea44#32, 0x4bdecfa9#32, 0xf6bb4b60#32, 0xbebfbc70#32,
    0x289b7ec6#32, 0xeaa127fa#32, 0xd4ef3085#32, 0x04881d05#32,
    0xd9d4d039#32, 0xe6db99e5#32, 0x1fa27cf8#32, 0xc4ac5665#32]

/-- K[48..63], the constants of stage 3 (R271). -/
def romStage3 : List Word :=
  [0xf4292244#32, 0x432aff97#32, 0xab9423a7#32, 0xfc93a039#32,
    0x655b59c3#32, 0x8f0ccc92#32, 0xffeff47d#32, 0x85845dd1#32,
    0x6fa87e4f#32, 0xfe2ce6e0#32, 0xa3014314#32, 0x4e0811a1#32,
    0xf7537e82#32, 0xbd3af235#32, 0x2ad7d2bb#32, 0xeb86d391#32]

/-- The 64-entry ROM (R271). -/
def rom : List Word := romStage0 ++ romStage1 ++ romStage2 ++ romStage3

/-- `K[i]` (R271). -/
def roundConstant (i : BitVec 6) : Word := rom.getD i.toNat 0

/-- The stage of round `i`: `i >> 4`, which is `r[5:4]` (R109, R203). -/
def stageOf (i : BitVec 6) : BitVec 2 := i.extractLsb' 4 2

/-- `S[st]` (R274). -/
def rotationRow (st : BitVec 2) : List Nat :=
  match st.toNat with
  | 0 => [7, 12, 17, 22]
  | 1 => [5, 9, 14, 20]
  | 2 => [4, 11, 16, 23]
  | _ => [6, 10, 15, 21]

/-- `s(i) = S[st][i mod 4]` (R206). -/
def shiftAmount (i : BitVec 6) : Nat := (rotationRow (stageOf i)).getD (i.toNat % 4) 0

/-- `g(i)`, the message-word index of round `i` (R205). -/
def messageIndex (i : BitVec 6) : BitVec 4 :=
  match (stageOf i).toNat with
  | 0 => BitVec.ofNat 4 i.toNat
  | 1 => BitVec.ofNat 4 ((5 * i.toNat + 1) % 16)
  | 2 => BitVec.ofNat 4 ((3 * i.toNat + 5) % 16)
  | _ => BitVec.ofNat 4 ((7 * i.toNat) % 16)

end Sys2Proof.Machine
end

