-- ==== Sys2Proof/Syntax.lean ====
section
/-! DEFINITION. The instructions: one constructor per row of spec/opcode_table.json, in its three formats
BUS (30_encoding.md R100, R101), CMD (R102 to R106) and STEP (R109), and the encoded forms they have. -/

namespace Sys2Proof

/-- One constructor per row of the opcode table. Register numbers and selector bits keep their widths, so an
operand that the encoding cannot hold cannot be written. -/
inductive Instr where
  -- BUS reads
  /-- RD_MISALIGNED, row `0xxxxxx1`: `hi` is ADDR[6:1] (R141). -/
  | rdMisalignedOdd (hi : BitVec 6)
  /-- RD_MISALIGNED, row `0xxxxx10`: `slot` is ADDR[6:2] (R141). -/
  | rdMisalignedTwo (slot : BitVec 5)
  /-- R131 -/
  | rdCmd
  /-- R132 -/
  | rdData
  /-- R133 -/
  | rdStatus
  /-- R134 -/
  | rdBufLen
  /-- R135 -/
  | rdLenLo
  /-- R136 -/
  | rdLenHi
  /-- RD_RSVD: `k` is ADDR[2], 0 for 0x18 and 1 for 0x1C (R140). -/
  | rdRsvd (k : BitVec 1)
  /-- R137 -/
  | rdH (i : BitVec 2)
  /-- R138 -/
  | rdDout (i : BitVec 2)
  /-- R139 -/
  | rdBuf (j : BitVec 4)
  -- BUS writes
  /-- WR_MISALIGNED, row `1xxxxxx1` (R153). -/
  | wrMisalignedOdd (hi : BitVec 6) (v : Word)
  /-- WR_MISALIGNED, row `1xxxxx10` (R153). -/
  | wrMisalignedTwo (slot : BitVec 5) (v : Word)
  /-- R143 -/
  | wrCmd (v : Word)
  /-- R144 -/
  | wrData (v : Word)
  /-- R145 -/
  | wrStatus (v : Word)
  /-- R146 -/
  | wrBufLen (v : Word)
  /-- R147 -/
  | wrLenLo (v : Word)
  /-- R148 -/
  | wrLenHi (v : Word)
  /-- WR_RSVD: `k` is ADDR[2] (R152). -/
  | wrRsvd (k : BitVec 1) (v : Word)
  /-- R149 -/
  | wrH (i : BitVec 2) (v : Word)
  /-- R150 -/
  | wrDout (i : BitVec 2) (v : Word)
  /-- R151 -/
  | wrBuf (j : BitVec 4) (v : Word)
  -- CMD
  /-- R161 -/
  | nop
  /-- R162 -/
  | reset
  /-- R163 with NB = 0 -/
  | updateNb0
  /-- R163 with NB = 1 -/
  | updateNb1
  /-- R163 with NB = 2 -/
  | updateNb2
  /-- R163 with NB = 3 -/
  | updateNb3
  /-- R163 with NB = 4 -/
  | updateNb4
  /-- R168 -/
  | finalize
  /-- RESERVED_CMD: every word that is not legal (R106). -/
  | reservedCmd (v : Word)
  -- STEP
  /-- IDLE_NO_STEP: `r` is SEL[5:0] (R202). -/
  | idleNoStep (r : BitVec 6)
  /-- ROUND of stage 0: `lo` is SEL[3:0] (R203). -/
  | roundF0 (lo : BitVec 4)
  /-- ROUND of stage 1 (R203). -/
  | roundF1 (lo : BitVec 4)
  /-- ROUND of stage 2 (R203). -/
  | roundF2 (lo : BitVec 4)
  /-- ROUND of stage 3 (R203). -/
  | roundF3 (lo : BitVec 4)
  /-- ACCUM: `r` is SEL[5:0] (R208). -/
  | accum (r : BitVec 6)
  /-- UNREACHABLE_PHASE3: `r` is SEL[5:0] (R202). -/
  | unreachablePhase3 (r : BitVec 6)
deriving DecidableEq, Repr

/-- What a decoder is given, one constructor per format. A bus transaction carries the width in bytes that its
issuer asked for, so that a width other than 4 can be refused by name (R72, 93 U20). -/
inductive Encoded where
  | bus (width : Nat) (ctl : BitVec 8) (wdata : Word)
  | cmd (v : Word)
  | step (sel : BitVec 8)
deriving DecidableEq, Repr

/-- One transition still to come, of one of the three agents (R7, R13). -/
inductive Input where
  /-- The host's next bus transaction (R100). -/
  | host (width : Nat) (ctl : BitVec 8) (wdata : Word)
  /-- The engine's turn (R202). -/
  | engine
  /-- The hardware reset input fires (R330). -/
  | reset
deriving DecidableEq, Repr

end Sys2Proof
end

