-- ==== Sys2Proof/Machine/State.lean ====
section
/-! DEFINITION. The machine's state (10_state.md R30: "The engine's complete state is the registers below and nothing
else"), the reasons a step can stop, and the state right after hardware reset (R52). -/

namespace Sys2Proof.Machine

/-- The FSM phase (R40) with its encoding (R109). -/
inductive Phase where
  /-- 00: no block in flight. -/
  | idle
  /-- 01: the next step is round `r`. -/
  | round
  /-- 10: the next step adds `a..d` into `H`. -/
  | accum
  /-- 11: "no rule writes it" (R109); a model that finds it faults (R202, 93 U2; log 8). -/
  | unused
deriving DecidableEq, Repr

/-- What ACCUM does after adding into `H` (R41). -/
inductive FState where
  | none
  | pad2
  | last
deriving DecidableEq, Repr

/-- ECAUSE: the first error since the last reset (60_exceptions.md R301). Code 7 is never written, and a state that
held it would be a transcription error (93 U7): it has no constructor (log 15). -/
inductive Cause where
  /-- 0: no error since the last reset. -/
  | none
  /-- 1: an access with `addr[1:0] != 0`. -/
  | misaligned
  /-- 2: a write to STATUS or DOUT0..DOUT3. -/
  | roWrite
  /-- 3: a write to 0x18 or 0x1C. -/
  | rsvdAddr
  /-- 4: a command word that is not legal. -/
  | rsvdCmd
  /-- 5: a legal UPDATE or FINALIZE while READY = 0. -/
  | cmdBusy
  /-- 6: a context write while READY = 0. -/
  | ctxBusy
deriving DecidableEq, Repr

/-- The whole machine. The fields down to `lovf` are the registers of R30, in its order; the last three are the
model's own (logs 1, 3, 4). `K` is a constant (R8): Machine/Rom.lean. -/
structure State where
  /-- `H[0..3]`, also named A, B, C, D (R31). -/
  h : Digest
  /-- `BUF[0..15]`, wire order (R33, R75). -/
  buf : Block
  /-- The bytes `BUF` holds, 0..63 (R34). -/
  bufLen : BitVec 6
  /-- `L`, the message's bit length (R35). -/
  len : BitVec 64
  /-- `DATA`, the operand of the next UPDATE (R36). -/
  data : Word
  /-- `M[0..15]`, the block being compressed, internal order (R37). -/
  m : Block
  /-- Working variable `a` (R38). -/
  a : Word
  /-- Working variable `b` (R38). -/
  b : Word
  /-- Working variable `c` (R38). -/
  c : Word
  /-- Working variable `d` (R38). -/
  d : Word
  /-- The round index (R39). -/
  r : BitVec 6
  /-- The FSM phase (R40). -/
  phase : Phase
  /-- What follows the block in flight (R41). -/
  fstate : FState
  /-- `DOUT[0..3]`, the last digest, big-endian words (R42). -/
  dout : Digest
  /-- `DVALID` (R43). -/
  dvalid : Bool
  /-- `ERR` (R44). -/
  err : Bool
  /-- `ECAUSE` (R44). -/
  ecause : Cause
  /-- `LOVF` (R45). -/
  lovf : Bool
  /-- Whether a hardware reset has happened; until then no register holds a value (R53; log 4). -/
  everReset : Bool
  /-- The transitions still to come, earliest first: one interleaving of the three agents (R13; log 1). -/
  inputs : List Input
  /-- RDATA of the latest read since hardware reset, if any (R100; log 3). -/
  rdata : Option Word
deriving DecidableEq, Repr

/-- Why the machine stops. -/
inductive Fault where
  /-- A bus access or an engine step before the first hardware reset (R53, R332, 93 U1). Raised by the fetch of the
  next transition. Safe: the model stops where the hardware's state is undefined. -/
  | beforeFirstReset
  /-- The engine's turn in phase 11 (R202, 93 U2). Raised by UNREACHABLE_PHASE3. Safe: the spec gives no step. -/
  | unusedPhase
deriving DecidableEq, Repr

/-- Why a step has no meaning. -/
inductive Refusal where
  /-- An instruction with no meaning yet. Raised by exec's refused arms, of which there are none. Safe. -/
  | notModelled (mnemonic : String)
  /-- A bus access of a width other than 4 bytes (R72, 93 U20). Raised by the fetch. Safe: the bus has none. -/
  | accessWidth (width : Nat)
  /-- A rotation by 32 or more (R244, 93 U3). Raised by a ROUND step if the schedule asked for one; it never does
  (Laws/Engine.lean). Safe. -/
  | rotateAmount (s : Nat)
deriving DecidableEq, Repr

/-- The outcome of a meaning. -/
abbrev Result := Host.Outcome State Fault Refusal

/-- The state right after hardware reset (R52, column "hardware reset"), with no transition to come. -/
def State.reset : State where
  h := iv
  buf := Vector.replicate 16 0
  bufLen := 0
  len := 0
  data := 0
  m := Vector.replicate 16 0
  a := 0
  b := 0
  c := 0
  d := 0
  r := 0
  phase := .idle
  fstate := .none
  dout := Vector.replicate 4 0
  dvalid := false
  err := false
  ecause := .none
  lovf := false
  everReset := true
  inputs := []
  rdata := none

end Sys2Proof.Machine
end

