-- ==== Sys2Proof/Machine/Operands.lean ====
section
/-! DEFINITION. The operand forms: bytes of DATA (20_memory.md R76), byte positions of the input buffer
(00_scope.md R12, R75), indexed words, the halves of L, and the step selector (R109). -/

namespace Sys2Proof.Machine

/-- `DATA[31-8k : 24-8k]`, the byte appended `k`-th (R76, R163). -/
def dataByte (w : Word) (k : Nat) : Byte := w.extractLsb' (24 - 8 * k) 8

/-- The first `nb` bytes of DATA in wire order (R76). -/
def dataBytes (w : Word) (nb : Nat) : List Byte := (List.range nb).map (dataByte w)

/-- The low bit of byte position `p` within its word: `24 - 8*(p mod 4)` (R75). -/
def byteShift (p : BitVec 6) : Nat := 24 - 8 * (p.toNat % 4)

/-- The word that holds byte position `p`: `p >> 2` (R75). -/
def byteWord (b : Block) (p : BitVec 6) : Word := b[p.toNat / 4]'(by have := p.isLt; omega)

/-- `BYTE(p)` (R12). -/
def byteAt (b : Block) (p : BitVec 6) : Byte := (byteWord b p).extractLsb' (byteShift p) 8

/-- `w` with the 8 bits from bit `sh` replaced by `x`, its other 24 bits unchanged. -/
def insertByte (w : Word) (sh : Nat) (x : Byte) : Word :=
  (w &&& ~~~(0xff#32 <<< sh)) ||| (x.setWidth 32 <<< sh)

/-- `BYTE(p) <- x` (R12). -/
def setByte (b : Block) (p : BitVec 6) (x : Byte) : Block :=
  b.set (p.toNat / 4) (insertByte (byteWord b p) (byteShift p) x) (by have := p.isLt; omega)

/-- `BYTE(q) <- 0` for `n` positions from `q` up: the zero bytes of the padding (R170, R171). -/
def zeroBytes (b : Block) (q : Nat) : Nat → Block
  | 0 => b
  | n + 1 => zeroBytes (setByte b (BitVec.ofNat 6 q) 0) (q + 1) n

/-- A word of a digest register by its 2-bit index (R137, R138). -/
def digestWord (x : Digest) (i : BitVec 2) : Word := x[i.toNat]'(by have := i.isLt; omega)

/-- `x[i] <- v` for a digest register (R149). -/
def setDigestWord (x : Digest) (i : BitVec 2) (v : Word) : Digest := x.set i.toNat v (by have := i.isLt; omega)

/-- A word of a block by its 4-bit index (R139, R203). -/
def blockWord (x : Block) (j : BitVec 4) : Word := x[j.toNat]'(by have := j.isLt; omega)

/-- `BUF[j] <- v` (R151). -/
def setBlockWord (x : Block) (j : BitVec 4) (v : Word) : Block := x.set j.toNat v (by have := j.isLt; omega)

/-- `L[31:0]` (R135). -/
def lenLo (l : BitVec 64) : Word := l.extractLsb' 0 32

/-- `L[63:32]` (R136). -/
def lenHi (l : BitVec 64) : Word := l.extractLsb' 32 32

/-- The phase's two bits (R109). -/
def Phase.code : Phase → BitVec 2
  | .idle => 0
  | .round => 1
  | .accum => 2
  | .unused => 3

/-- `SEL = {phase, r}` (R109). -/
def sel (s : State) : BitVec 8 := s.phase.code ++ s.r

end Sys2Proof.Machine
end

