-- ==== Sys2Proof/Machine/Flags.lean ====
section
/-! DEFINITION. The status bits (10_state.md R46, R47, R51): READY, the STATUS view, and the length counter with
LOVF (41_commands.md R166). -/

namespace Sys2Proof.Machine

/-- `READY = (phase = IDLE)` (R47). -/
def ready (s : State) : Bool := decide (s.phase = .idle)

/-- The 3-bit code of a cause (R301). -/
def Cause.code : Cause → BitVec 3
  | .none => 0
  | .misaligned => 1
  | .roWrite => 2
  | .rsvdAddr => 3
  | .rsvdCmd => 4
  | .cmdBusy => 5
  | .ctxBusy => 6

/-- `zext_32({ECAUSE, 2'b00, bufLen, 4'b0000, LOVF, ERR, DVALID, READY})` (R46). -/
def status (s : State) : Word :=
  (s.ecause.code ++ 0#2 ++ s.bufLen ++ 0#4 ++ BitVec.ofBool s.lovf ++ BitVec.ofBool s.err ++
    BitVec.ofBool s.dvalid ++ BitVec.ofBool (ready s)).setWidth 32

/-- `CountBits(nb)`: the exact 65-bit sum; LOVF is set when it passes 2^64 - 1, and never cleared here (R166). -/
def countBits (nb : Nat) (s : State) : State :=
  let sum : BitVec 65 := s.len.setWidth 65 + BitVec.ofNat 65 (8 * nb)
  { s with len := sum.setWidth 64, lovf := s.lovf || sum[64] }

end Sys2Proof.Machine
end

