-- ==== Sys2Proof/Machine/Ops.lean ====
section
/-! DEFINITION. The shared operations: `raise ERR` (the one way this hardware reports an error: it has no trap and no
return from one, 60_exceptions.md R307, R308), the READY guard, the bus response, register writes, the block latch,
padding, completion, and the two resets. -/

namespace Sys2Proof.Machine

/-! ## Errors and guards -/

/-- `raise ERR(cause)`: records the first cause only, and has no other effect (R12, R302, R303). -/
def raiseErr (cause : Cause) (s : State) : State :=
  if s.err then s else { s with err := true, ecause := cause }

/-- A transaction that needs READY = 1: with READY = 0 it raises `cause` and is dropped (R154, R160). -/
def whenReady (cause : Cause) (op : State → State) (s : State) : State :=
  if ready s then op s else raiseErr cause s

/-! ## The bus -/

/-- The value a read returns (R100, R130). -/
def respond (v : Word) (s : State) : State := { s with rdata := some v }

/-- `DATA <- v` (R144). -/
def setData (v : Word) (s : State) : State := { s with data := v }

/-- `bufLen <- v[5:0]` (R146). -/
def setBufLen (v : Word) (s : State) : State := { s with bufLen := v.extractLsb' 0 6 }

/-- `L <- {L[63:32], v}` (R147). -/
def setLenLo (v : Word) (s : State) : State := { s with len := lenHi s.len ++ v }

/-- `L <- {v, L[31:0]}` (R148). -/
def setLenHi (v : Word) (s : State) : State := { s with len := v ++ lenLo s.len }

/-- `H[i] <- v` (R149). -/
def setH (i : BitVec 2) (v : Word) (s : State) : State := { s with h := setDigestWord s.h i v }

/-- `BUF[j] <- v` (R151). -/
def setBuf (j : BitVec 4) (v : Word) (s : State) : State := { s with buf := setBlockWord s.buf j v }

/-! ## The block latch -/

/-- The byte-swap policy (R200): a final block's two length words are copied, every other word is swapped. -/
def latchWords (final : Bool) (b : Block) : Block :=
  Vector.ofFn fun j : Fin 16 => if final ∧ 14 ≤ j.val then b[j] else bswap32 b[j]

/-- `Latch(final)` (R200, R201). Its callers set `fstate`. -/
def latch (final : Bool) (s : State) : State :=
  { s with
    m := latchWords final s.buf
    a := s.h[0], b := s.h[1], c := s.h[2], d := s.h[3]
    r := 0
    phase := .round
    buf := Vector.replicate 16 0
    bufLen := 0 }

/-- `fstate <- f`. -/
def setFState (f : FState) (s : State) : State := { s with fstate := f }

/-! ## UPDATE -/

/-- `BlockFull()` (R165). -/
def blockFull (s : State) : State := setFState .none (latch false s)

/-- `AppendByte(x)` (R164): the 64th byte hands the block over in the same transition. -/
def appendByte (s : State) (x : Byte) : State :=
  let s' := { s with buf := setByte s.buf s.bufLen x }
  if s.bufLen.toNat + 1 = Config.blockBytes then blockFull s' else { s' with bufLen := s.bufLen + 1 }

/-- `Update(nb)` (R163): the first `nb` bytes of DATA in wire order, then the length. -/
def update (nb : Nat) (s : State) : State :=
  countBits nb ((dataBytes s.data nb).foldl appendByte s)

/-! ## FINALIZE -/

/-- `BUF[14] <- L[31:0] ; BUF[15] <- L[63:32]` (R170, R210). -/
def setLengthWords (l : BitVec 64) (b : Block) : Block :=
  (b.set 14 (lenLo l)).set 15 (lenHi l)

/-- `PadOne(p)` with `p = bufLen` (R170). -/
def padOne (s : State) : State :=
  let p := s.bufLen.toNat
  let zeroed := zeroBytes s.buf (p + 1) (Config.onePadLimit - p)
  setFState .last (latch true { s with buf := setLengthWords s.len zeroed })

/-- `PadTwo(p)` with `p = bufLen` (R171). -/
def padTwo (s : State) : State :=
  let p := s.bufLen.toNat
  setFState .pad2 (latch false { s with buf := zeroBytes s.buf (p + 1) (63 - p) })

/-- `Finalize()` (R168, R169). -/
def finalize (s : State) : State :=
  let s' := { s with dvalid := false, buf := setByte s.buf s.bufLen 0x80#8 }
  if s.bufLen.toNat ≤ Config.onePadLimit then padOne s' else padTwo s'

/-! ## The end of a block -/

/-- `H[k] <- H[k] +32 (a, b, c, d)[k]` (R208). -/
def addWork (s : State) : Digest :=
  #v[add32 s.h[0] s.a, add32 s.h[1] s.b, add32 s.h[2] s.c, add32 s.h[3] s.d]

/-- The four digest words byte-swapped (R79, R211). -/
def swapDigest (x : Digest) : Digest := #v[bswap32 x[0], bswap32 x[1], bswap32 x[2], bswap32 x[3]]

/-- `SecondPadBlock()` (R210): 56 zero bytes and the length, latched as final with the `H` just written. -/
def secondPadBlock (s : State) : State :=
  setFState .last (latch true { s with buf := setLengthWords s.len (Vector.replicate 16 0) })

/-- `Complete()` (R211): the digest is captured before the context is reset. -/
def complete (s : State) : State :=
  { s with
    dout := swapDigest s.h
    dvalid := true
    h := iv
    len := 0
    buf := Vector.replicate 16 0
    bufLen := 0
    fstate := .none
    phase := .idle }

/-- `Accum()` (R208 to R211). -/
def accumulate (s : State) : State :=
  let s' := { s with h := addWork s, r := 0 }
  match s.fstate with
  | .none => { s' with phase := .idle }
  | .pad2 => secondPadBlock s'
  | .last => complete s'

/-! ## Resets -/

/-- `ResetCmd()` (R162): every register of R52 but DATA. -/
def resetCmd (s : State) : State :=
  { s with
    h := iv
    buf := Vector.replicate 16 0
    bufLen := 0
    len := 0
    m := Vector.replicate 16 0
    a := 0, b := 0, c := 0, d := 0
    r := 0
    phase := .idle
    fstate := .none
    dout := Vector.replicate 4 0
    dvalid := false
    err := false
    ecause := .none
    lovf := false }

/-- `HardwareReset()` (R330): `ResetCmd()` and `DATA <- 0`. From here on the registers hold values (R53), and no read
has returned yet (log 3). -/
def hardwareReset (s : State) : State :=
  { resetCmd s with data := 0, everReset := true, rdata := none }

end Sys2Proof.Machine
end

