-- ==== Sys2Proof/Machine/BusRead.lean ====
section
/-! DEFINITION. The meanings of the BUS reads (40_host_access.md R130 to R141). Reads are allowed in every phase and
change nothing, except that a misaligned one raises ERR. -/

namespace Sys2Proof.Machine

/-- R141: `raise ERR(MISALIGNED); return 0`. -/
def execRdMisalignedOdd (_hi : BitVec 6) (s : State) : Result := .next (respond 0 (raiseErr .misaligned s))

/-- R141: `raise ERR(MISALIGNED); return 0`. -/
def execRdMisalignedTwo (_slot : BitVec 5) (s : State) : Result := .next (respond 0 (raiseErr .misaligned s))

/-- R131: CMD stores nothing. -/
def execRdCmd (s : State) : Result := .next (respond 0 s)

/-- R132 -/
def execRdData (s : State) : Result := .next (respond s.data s)

/-- R133 -/
def execRdStatus (s : State) : Result := .next (respond (status s) s)

/-- R134 -/
def execRdBufLen (s : State) : Result := .next (respond (s.bufLen.setWidth 32) s)

/-- R135 -/
def execRdLenLo (s : State) : Result := .next (respond (lenLo s.len) s)

/-- R136 -/
def execRdLenHi (s : State) : Result := .next (respond (lenHi s.len) s)

/-- R140: no error. -/
def execRdRsvd (_k : BitVec 1) (s : State) : Result := .next (respond 0 s)

/-- R137 -/
def execRdH (i : BitVec 2) (s : State) : Result := .next (respond (digestWord s.h i) s)

/-- R138 -/
def execRdDout (i : BitVec 2) (s : State) : Result := .next (respond (digestWord s.dout i) s)

/-- R139 -/
def execRdBuf (j : BitVec 4) (s : State) : Result := .next (respond (blockWord s.buf j) s)

end Sys2Proof.Machine
end

