-- ==== Sys2Proof/Machine/CmdWord.lean ====
section
/-! DEFINITION. The command word's fields and its legality (30_encoding.md R102, R105). -/

namespace Sys2Proof

/-- OP, bits 3:0 (R102). -/
def cmdOp (v : Word) : BitVec 4 := v.extractLsb' 0 4

/-- NB, bits 6:4 (R102). -/
def cmdNb (v : Word) : BitVec 3 := v.extractLsb' 4 3

/-- RSVD, bits 31:7, which must be 0 (R102). -/
def cmdRsvd (v : Word) : BitVec 25 := v.extractLsb' 7 25

/-- `CmdLegal(v)` (R105). -/
def cmdLegal (v : Word) : Bool :=
  cmdRsvd v == 0#25 &&
    ((((cmdOp v == 0#4) || (cmdOp v == 1#4) || (cmdOp v == 3#4)) && (cmdNb v == 0#3)) ||
      ((cmdOp v == 2#4) && decide ((cmdNb v).toNat ≤ 4)))

end Sys2Proof
end

