-- ==== Sys2Proof/Machine/Command.lean ====
section
/-! DEFINITION. The meanings of the CMD words (41_commands.md R161 to R171, 30_encoding.md R106), and `Command(v)`,
what a write to CMD runs (R160). -/

namespace Sys2Proof.Machine

/-- R161: nothing, in every phase. -/
def execNop (s : State) : Result := .next s

/-- R162: accepted in every phase. -/
def execReset (s : State) : Result := .next (resetCmd s)

/-- R163 with NB = 0 -/
def execUpdateNb0 (s : State) : Result := .next (whenReady .cmdBusy (update 0) s)

/-- R163 with NB = 1 -/
def execUpdateNb1 (s : State) : Result := .next (whenReady .cmdBusy (update 1) s)

/-- R163 with NB = 2 -/
def execUpdateNb2 (s : State) : Result := .next (whenReady .cmdBusy (update 2) s)

/-- R163 with NB = 3 -/
def execUpdateNb3 (s : State) : Result := .next (whenReady .cmdBusy (update 3) s)

/-- R163 with NB = 4 -/
def execUpdateNb4 (s : State) : Result := .next (whenReady .cmdBusy (update 4) s)

/-- R168 -/
def execFinalize (s : State) : Result := .next (whenReady .cmdBusy finalize s)

/-- R106: `raise ERR(RSVD_CMD)`, in every phase. -/
def execReservedCmd (_v : Word) (s : State) : Result := .next (raiseErr .rsvdCmd s)

/-- `Command(v)` (R160): legality first, NOP and RESET in every phase, UPDATE and FINALIZE only when READY = 1. -/
def command (v : Word) (s : State) : Result :=
  if cmdLegal v then
    if cmdOp v = 0 then execNop s
    else if cmdOp v = 1 then execReset s
    else if cmdOp v = 2 then .next (whenReady .cmdBusy (update (cmdNb v).toNat) s)
    else execFinalize s
  else execReservedCmd v s

end Sys2Proof.Machine
end

