-- ==== Sys2Proof/Machine/BusWrite.lean ====
section
/-! DEFINITION. The meanings of the BUS writes (40_host_access.md R142 to R154). A write that raises an error changes
nothing but ERR and ECAUSE (60_exceptions.md R303). -/

namespace Sys2Proof.Machine

/-- R153 -/
def execWrMisalignedOdd (_hi : BitVec 6) (_v : Word) (s : State) : Result := .next (raiseErr .misaligned s)

/-- R153 -/
def execWrMisalignedTwo (_slot : BitVec 5) (_v : Word) (s : State) : Result := .next (raiseErr .misaligned s)

/-- R143 -/
def execWrCmd (v : Word) (s : State) : Result := command v s

/-- R144: in every phase. -/
def execWrData (v : Word) (s : State) : Result := .next (setData v s)

/-- R145 -/
def execWrStatus (_v : Word) (s : State) : Result := .next (raiseErr .roWrite s)

/-- R146 -/
def execWrBufLen (v : Word) (s : State) : Result := .next (whenReady .ctxBusy (setBufLen v) s)

/-- R147 -/
def execWrLenLo (v : Word) (s : State) : Result := .next (whenReady .ctxBusy (setLenLo v) s)

/-- R148 -/
def execWrLenHi (v : Word) (s : State) : Result := .next (whenReady .ctxBusy (setLenHi v) s)

/-- R152 -/
def execWrRsvd (_k : BitVec 1) (_v : Word) (s : State) : Result := .next (raiseErr .rsvdAddr s)

/-- R149 -/
def execWrH (i : BitVec 2) (v : Word) (s : State) : Result := .next (whenReady .ctxBusy (setH i v) s)

/-- R150 -/
def execWrDout (_i : BitVec 2) (_v : Word) (s : State) : Result := .next (raiseErr .roWrite s)

/-- R151 -/
def execWrBuf (j : BitVec 4) (v : Word) (s : State) : Result := .next (whenReady .ctxBusy (setBuf j v) s)

end Sys2Proof.Machine
end

