-- ==== Sys2Proof/Machine/Engine.lean ====
section
/-! DEFINITION. The meanings of the engine's steps (42_compression.md R202 to R211). A step's operand is the low part
of its selector `SEL = {phase, r}`, which on the engine's turn is the state's own `r` (log 9). -/

namespace Sys2Proof.Machine

/-- The end of round `i` (R203): the next round, or ACCUM after round 63 with `r` left at 63. -/
def advanceRound (i : BitVec 6) (s : State) : State :=
  if i.toNat < 63 then { s with r := i + 1 } else { s with phase := .accum }

/-- The sum `t` of round `i` (R203). -/
def roundSum (f : Word → Word → Word → Word) (i : BitVec 6) (s : State) : Word :=
  add32 (add32 (add32 s.a (f s.b s.c s.d)) (blockWord s.m (messageIndex i))) (roundConstant i)

/-- `(a, b, c, d) <- (d, b +32 x, b, c)`, with `x` the rotated sum (R203, R207). -/
def rotateWork (x : Word) (s : State) : State :=
  { s with a := s.d, b := add32 s.b x, c := s.b, d := s.c }

/-- `RoundStep()` for round `i` with round function `f` (R203). -/
def roundStep (f : Word → Word → Word → Word) (i : BitVec 6) (s : State) : Result :=
  match rotl32 (roundSum f i s) (shiftAmount i) with
  | some x => .next (advanceRound i (rotateWork x s))
  | none => .refused (.rotateAmount (shiftAmount i))

/-- R202: with phase IDLE the engine has no step, so nothing changes. -/
def execIdleNoStep (_r : BitVec 6) (s : State) : Result := .next s

/-- R203, R204: stage 0. -/
def execRoundF0 (lo : BitVec 4) (s : State) : Result := roundStep f0 (0#2 ++ lo) s

/-- R203, R204: stage 1. -/
def execRoundF1 (lo : BitVec 4) (s : State) : Result := roundStep f1 (1#2 ++ lo) s

/-- R203, R204: stage 2. -/
def execRoundF2 (lo : BitVec 4) (s : State) : Result := roundStep f2 (2#2 ++ lo) s

/-- R203, R204: stage 3. -/
def execRoundF3 (lo : BitVec 4) (s : State) : Result := roundStep f3 (3#2 ++ lo) s

/-- R208 to R211. -/
def execAccum (_r : BitVec 6) (s : State) : Result := .next (accumulate s)

/-- R202: "A model that finds it faults, naming the state, and gives it no step." -/
def execUnreachablePhase3 (_r : BitVec 6) (_s : State) : Result := .fault .unusedPhase

end Sys2Proof.Machine
end

