-- ==== Sys2Proof/Machine/Dispatch.lean ====
section
/-! DEFINITION. One arm per constructor of Instr, each one direct call of its meaning. -/

namespace Sys2Proof.Machine

def exec (i : Instr) (s : State) : Host.Outcome State Fault Refusal :=
  match i with
  -- BUS reads
  | .rdMisalignedOdd hi => Sys2Proof.Machine.execRdMisalignedOdd hi s
  | .rdMisalignedTwo slot => Sys2Proof.Machine.execRdMisalignedTwo slot s
  | .rdCmd => Sys2Proof.Machine.execRdCmd s
  | .rdData => Sys2Proof.Machine.execRdData s
  | .rdStatus => Sys2Proof.Machine.execRdStatus s
  | .rdBufLen => Sys2Proof.Machine.execRdBufLen s
  | .rdLenLo => Sys2Proof.Machine.execRdLenLo s
  | .rdLenHi => Sys2Proof.Machine.execRdLenHi s
  | .rdRsvd k => Sys2Proof.Machine.execRdRsvd k s
  | .rdH n => Sys2Proof.Machine.execRdH n s
  | .rdDout n => Sys2Proof.Machine.execRdDout n s
  | .rdBuf j => Sys2Proof.Machine.execRdBuf j s
  -- BUS writes
  | .wrMisalignedOdd hi v => Sys2Proof.Machine.execWrMisalignedOdd hi v s
  | .wrMisalignedTwo slot v => Sys2Proof.Machine.execWrMisalignedTwo slot v s
  | .wrCmd v => Sys2Proof.Machine.execWrCmd v s
  | .wrData v => Sys2Proof.Machine.execWrData v s
  | .wrStatus v => Sys2Proof.Machine.execWrStatus v s
  | .wrBufLen v => Sys2Proof.Machine.execWrBufLen v s
  | .wrLenLo v => Sys2Proof.Machine.execWrLenLo v s
  | .wrLenHi v => Sys2Proof.Machine.execWrLenHi v s
  | .wrRsvd k v => Sys2Proof.Machine.execWrRsvd k v s
  | .wrH n v => Sys2Proof.Machine.execWrH n v s
  | .wrDout n v => Sys2Proof.Machine.execWrDout n v s
  | .wrBuf j v => Sys2Proof.Machine.execWrBuf j v s
  -- CMD
  | .nop => Sys2Proof.Machine.execNop s
  | .reset => Sys2Proof.Machine.execReset s
  | .updateNb0 => Sys2Proof.Machine.execUpdateNb0 s
  | .updateNb1 => Sys2Proof.Machine.execUpdateNb1 s
  | .updateNb2 => Sys2Proof.Machine.execUpdateNb2 s
  | .updateNb3 => Sys2Proof.Machine.execUpdateNb3 s
  | .updateNb4 => Sys2Proof.Machine.execUpdateNb4 s
  | .finalize => Sys2Proof.Machine.execFinalize s
  | .reservedCmd v => Sys2Proof.Machine.execReservedCmd v s
  -- STEP
  | .idleNoStep r => Sys2Proof.Machine.execIdleNoStep r s
  | .roundF0 lo => Sys2Proof.Machine.execRoundF0 lo s
  | .roundF1 lo => Sys2Proof.Machine.execRoundF1 lo s
  | .roundF2 lo => Sys2Proof.Machine.execRoundF2 lo s
  | .roundF3 lo => Sys2Proof.Machine.execRoundF3 lo s
  | .accum r => Sys2Proof.Machine.execAccum r s
  | .unreachablePhase3 r => Sys2Proof.Machine.execUnreachablePhase3 r s

end Sys2Proof.Machine
end

