-- ==== Sys2Proof/WellFormed.lean ====
section
/-! DEFINITION. Well-formed instructions. -/

namespace Sys2Proof

/-- An instruction term that some encoding decodes to. The operand types leave one check: RESERVED_CMD stands for
words that are not legal, and for those only (R106). -/
def wellFormed : Instr → Bool
  | .reservedCmd v => !cmdLegal v
  | .rdMisalignedOdd _ | .rdMisalignedTwo _ | .rdCmd | .rdData | .rdStatus | .rdBufLen | .rdLenLo | .rdLenHi
  | .rdRsvd _ | .rdH _ | .rdDout _ | .rdBuf _
  | .wrMisalignedOdd _ _ | .wrMisalignedTwo _ _ | .wrCmd _ | .wrData _ | .wrStatus _ | .wrBufLen _ | .wrLenLo _
  | .wrLenHi _ | .wrRsvd _ _ | .wrH _ _ | .wrDout _ _ | .wrBuf _ _
  | .nop | .reset | .updateNb0 | .updateNb1 | .updateNb2 | .updateNb3 | .updateNb4 | .finalize
  | .idleNoStep _ | .roundF0 _ | .roundF1 _ | .roundF2 _ | .roundF3 _ | .accum _ | .unreachablePhase3 _ => true

end Sys2Proof
end

