-- ==== Sys2Proof/Decode.lean ====
section
/-! DEFINITION. The decoder and the encoder, both written from the encoding tables of 30_encoding.md
(R100 to R109), and the host's numbering of a table word. -/

namespace Sys2Proof

/-- Why a decoder refuses what it is given. -/
inductive DecodeError where
  /-- A bus access whose width is not 4 bytes (R72, 93 U20). -/
  | accessWidth (width : Nat)
deriving DecidableEq, Repr

/-- The aligned read of register slot ADDR[6:2] (R101). -/
def decodeRead (slot : BitVec 5) : Instr :=
  match slot.toNat with
  | 0 => .rdCmd
  | 1 => .rdData
  | 2 => .rdStatus
  | 3 => .rdBufLen
  | 4 => .rdLenLo
  | 5 => .rdLenHi
  | 6 => .rdRsvd 0
  | 7 => .rdRsvd 1
  | _ =>
    if slot[4] then .rdBuf (slot.extractLsb' 0 4)
    else if slot[2] then .rdDout (slot.extractLsb' 0 2)
    else .rdH (slot.extractLsb' 0 2)

/-- The aligned write of `v` to register slot ADDR[6:2] (R101). -/
def decodeWrite (slot : BitVec 5) (v : Word) : Instr :=
  match slot.toNat with
  | 0 => .wrCmd v
  | 1 => .wrData v
  | 2 => .wrStatus v
  | 3 => .wrBufLen v
  | 4 => .wrLenLo v
  | 5 => .wrLenHi v
  | 6 => .wrRsvd 0 v
  | 7 => .wrRsvd 1 v
  | _ =>
    if slot[4] then .wrBuf (slot.extractLsb' 0 4) v
    else if slot[2] then .wrDout (slot.extractLsb' 0 2) v
    else .wrH (slot.extractLsb' 0 2) v

/-- R101: alignment first, then the slot and WE. Total: every CTL names exactly one row. -/
def decodeBus (ctl : BitVec 8) (wdata : Word) : Instr :=
  if ctl[0] then
    if ctl[7] then .wrMisalignedOdd (ctl.extractLsb' 1 6) wdata
    else .rdMisalignedOdd (ctl.extractLsb' 1 6)
  else if ctl[1] then
    if ctl[7] then .wrMisalignedTwo (ctl.extractLsb' 2 5) wdata
    else .rdMisalignedTwo (ctl.extractLsb' 2 5)
  else if ctl[7] then decodeWrite (ctl.extractLsb' 2 5) wdata
  else decodeRead (ctl.extractLsb' 2 5)

/-- R102 to R106: the legality check first, then OP and NB. -/
def decodeCmd (v : Word) : Instr :=
  if cmdLegal v then
    match (cmdOp v).toNat, (cmdNb v).toNat with
    | 0, _ => .nop
    | 1, _ => .reset
    | 2, 0 => .updateNb0
    | 2, 1 => .updateNb1
    | 2, 2 => .updateNb2
    | 2, 3 => .updateNb3
    | 2, _ => .updateNb4
    | _, _ => .finalize
  else .reservedCmd v

/-- R109: the row of a step selector `{phase, r}`. -/
def decodeStep (sel : BitVec 8) : Instr :=
  match (sel.extractLsb' 6 2).toNat with
  | 0 => .idleNoStep (sel.extractLsb' 0 6)
  | 1 =>
    match (sel.extractLsb' 4 2).toNat with
    | 0 => .roundF0 (sel.extractLsb' 0 4)
    | 1 => .roundF1 (sel.extractLsb' 0 4)
    | 2 => .roundF2 (sel.extractLsb' 0 4)
    | _ => .roundF3 (sel.extractLsb' 0 4)
  | 2 => .accum (sel.extractLsb' 0 6)
  | _ => .unreachablePhase3 (sel.extractLsb' 0 6)

/-- The decoder: total, and refusing by name only an access width the bus does not have. -/
def decode : Encoded → Except DecodeError Instr
  | .bus width ctl wdata =>
    if width = Config.accessBytes then .ok (decodeBus ctl wdata) else .error (.accessWidth width)
  | .cmd v => .ok (decodeCmd v)
  | .step sel => .ok (decodeStep sel)

/-! ## The encoder -/

/-- `CTL = {WE, ADDR[6:2], 00}` for an aligned access (R100). -/
def ctlOf (we : Bool) (slot : BitVec 5) : BitVec 8 :=
  BitVec.ofBool we ++ slot ++ 0#2

/-- A read encodes `WDATA = 0` (R110). -/
def encodeRead (slot : BitVec 5) : Encoded := .bus Config.accessBytes (ctlOf false slot) 0

/-- A write encodes its value as WDATA (R100, R110). -/
def encodeWrite (slot : BitVec 5) (v : Word) : Encoded := .bus Config.accessBytes (ctlOf true slot) v

/-- The word of an UPDATE: `(nb << 4) | 0x2` (R163). -/
def updateWord (nb : Nat) : Word := BitVec.ofNat 32 nb <<< 4 ||| 2#32

/-- The words of an instruction (R101, R103, R109). -/
def encode : Instr → Encoded
  | .rdMisalignedOdd hi => .bus Config.accessBytes (0#1 ++ hi ++ 1#1) 0
  | .rdMisalignedTwo slot => .bus Config.accessBytes (0#1 ++ slot ++ 2#2) 0
  | .rdCmd => encodeRead 0
  | .rdData => encodeRead 1
  | .rdStatus => encodeRead 2
  | .rdBufLen => encodeRead 3
  | .rdLenLo => encodeRead 4
  | .rdLenHi => encodeRead 5
  | .rdRsvd k => encodeRead (3#4 ++ k)
  | .rdH i => encodeRead (2#3 ++ i)
  | .rdDout i => encodeRead (3#3 ++ i)
  | .rdBuf j => encodeRead (1#1 ++ j)
  | .wrMisalignedOdd hi v => .bus Config.accessBytes (1#1 ++ hi ++ 1#1) v
  | .wrMisalignedTwo slot v => .bus Config.accessBytes (1#1 ++ slot ++ 2#2) v
  | .wrCmd v => encodeWrite 0 v
  | .wrData v => encodeWrite 1 v
  | .wrStatus v => encodeWrite 2 v
  | .wrBufLen v => encodeWrite 3 v
  | .wrLenLo v => encodeWrite 4 v
  | .wrLenHi v => encodeWrite 5 v
  | .wrRsvd k v => encodeWrite (3#4 ++ k) v
  | .wrH i v => encodeWrite (2#3 ++ i) v
  | .wrDout i v => encodeWrite (3#3 ++ i) v
  | .wrBuf j v => encodeWrite (1#1 ++ j) v
  | .nop => .cmd 0x00000000#32
  | .reset => .cmd 0x00000001#32
  | .updateNb0 => .cmd (updateWord 0)
  | .updateNb1 => .cmd (updateWord 1)
  | .updateNb2 => .cmd (updateWord 2)
  | .updateNb3 => .cmd (updateWord 3)
  | .updateNb4 => .cmd (updateWord 4)
  | .finalize => .cmd 0x00000003#32
  | .reservedCmd v => .cmd v
  | .idleNoStep r => .step (0#2 ++ r)
  | .roundF0 lo => .step (4#4 ++ lo)
  | .roundF1 lo => .step (5#4 ++ lo)
  | .roundF2 lo => .step (6#4 ++ lo)
  | .roundF3 lo => .step (7#4 ++ lo)
  | .accum r => .step (2#2 ++ r)
  | .unreachablePhase3 r => .step (3#2 ++ r)

/-! ## The host's numbering of a table word -/

/-- What the bits `w` of a table row of `nbits` bits stand for: 32 bits are a command word; 8 bits are CTL, the
first word of a bus transaction, with WDATA (40 bits in all) above it. A step selector is 8 bits as well and cannot
be told from CTL by its bits (DESIGN CHOICE, log 5). -/
def tableEncoded (nbits w : Nat) : Option Encoded :=
  if nbits = 32 then some (.cmd (BitVec.ofNat 32 w))
  else if nbits = 8 ∨ nbits = 40 then
    some (.bus Config.accessBytes (BitVec.ofNat 8 w) (BitVec.ofNat 32 (w / 256)))
  else none

/-- The instruction the decoder reads from a table word. -/
def decodeTableWord (nbits w : Nat) : Option Instr :=
  match tableEncoded nbits w with
  | some e => (decode e).toOption
  | none => none

/-- The transition that brings a table word to the engine: a command word reaches it by a write to CMD, at address
0x00 (R143), a bus transaction as itself (log 6). -/
def tableInputs (nbits w : Nat) : List Input :=
  match tableEncoded nbits w with
  | some (.bus width ctl wdata) => [.host width ctl wdata]
  | some (.cmd v) => [.host Config.accessBytes 0x80#8 v]
  | some (.step _) => [.engine]
  | none => []

end Sys2Proof
end

