-- ==== Sys2Proof/Machine/Fetch.lean ====
section
/-! DEFINITION. What the machine does next: the next transition of the interleaving (00_scope.md R7, R13). The engine
fetches no instructions (10_state.md R50); a host transaction is decoded from CTL and WDATA (R101), an engine step from
SEL (R109). -/

namespace Sys2Proof.Machine

/-- What the fetch of the next transition finds. -/
inductive Fetched where
  /-- An instruction, and the state it runs in. -/
  | run (i : Instr) (s : State)
  /-- The hardware reset input (R330). -/
  | hardwareReset (s : State)
  /-- The machine stops. -/
  | stop (f : Fault)
  /-- The transition has no meaning. -/
  | refuse (r : Refusal)
deriving DecidableEq, Repr

/-- Before the first hardware reset every access and every engine step is a fault (R53, 93 U1). -/
def afterFirstReset (s : State) (f : Fetched) : Fetched :=
  if s.everReset then f else .stop .beforeFirstReset

/-- A host transaction: decoded by its width, CTL and WDATA (R72, R100, R101). -/
def hostTurn (width : Nat) (ctl : BitVec 8) (wdata : Word) (s : State) : Fetched :=
  match decode (.bus width ctl wdata) with
  | .ok i => .run i s
  | .error (.accessWidth w) => .refuse (.accessWidth w)

/-- The engine's turn: the step that SEL selects (R109, R202). -/
def engineTurn (s : State) : Fetched := .run (decodeStep (sel s)) s

/-- The next transition. When none is listed the engine has the turn: in IDLE it has no step and nothing changes, and
a block in flight goes on (R341; DESIGN CHOICE, log 2). -/
def fetch (s : State) : Fetched :=
  match s.inputs with
  | [] => afterFirstReset s (engineTurn s)
  | .engine :: rest => afterFirstReset s (engineTurn { s with inputs := rest })
  | .host width ctl wdata :: rest => afterFirstReset s (hostTurn width ctl wdata { s with inputs := rest })
  | .reset :: rest => .hardwareReset { s with inputs := rest }

end Sys2Proof.Machine
end

