-- ==== Sys2Proof/Machine/Step.lean ====
section
/-! DEFINITION. One step: one transition of one agent (00_scope.md R13), and the placing of a table word where the next
step finds it. -/

namespace Sys2Proof.Machine

/-- One atomic transition. -/
def step (s : State) : Host.Outcome State Fault Refusal :=
  match fetch s with
  | .run i s' => exec i s'
  | .hardwareReset s' => .next (hardwareReset s')
  | .stop f => .fault f
  | .refuse r => .refused r

/-- `s` with a table word as the next transition (log 6): the load of a program from outside the machine. -/
def State.withFetchWord (s : State) (nbits w : Nat) : State :=
  { s with inputs := tableInputs nbits w ++ s.inputs }

end Sys2Proof.Machine
end

