-- ==== Sys2Proof/Machine/Assembly.lean ====
section
/-! DEFINITION. The host assembly forms and pseudo-instructions (30_encoding.md R110), and a host program run beside
the engine. They are the host's: the engine has no instruction for them. WAITRDY is the host's only loop, so a program
is no fixed list of transactions. How its transactions fall among the engine's steps is open, apart for every WAITRDY
(00_scope.md R13, R111, 93 U13): a schedule, which names the agent of each transition, is an argument (log 19). -/

namespace Sys2Proof.Machine.Assembly

/-- A register name of R71, or a raw address `@0xNN` (R110). -/
inductive Reg where
  | cmd
  | data
  | status
  | bufLen
  | lenLo
  | lenHi
  | h (i : BitVec 2)
  | dout (i : BitVec 2)
  | buf (j : BitVec 4)
  | raw (addr : BitVec 7)
deriving DecidableEq, Repr

/-- `addr(reg)` (R71). -/
def addr : Reg → BitVec 7
  | .cmd => 0x00
  | .data => 0x04
  | .status => 0x08
  | .bufLen => 0x0C
  | .lenLo => 0x10
  | .lenHi => 0x14
  | .h i => 0x20 + 4 * i.setWidth 7
  | .dout i => 0x30 + 4 * i.setWidth 7
  | .buf j => 0x40 + 4 * j.setWidth 7
  | .raw a => a

/-- The three forms that expansions end in (R110). -/
inductive Op where
  /-- `WR <reg>, <imm32>` -/
  | wr (reg : Reg) (v : Word)
  /-- `RD <reg>` -/
  | rd (reg : Reg)
  /-- `WAITRDY`: `RD STATUS`, repeated until the value read has bit 0 = 1. -/
  | waitReady
deriving DecidableEq, Repr

/-- The bus transaction a form issues next: `CTL = 0x80 | addr` for WR; `CTL = addr`, `WDATA = 0` for RD (R110). -/
def transaction : Op → Input
  | .wr reg v => .host Config.accessBytes (0x80#8 ||| (addr reg).setWidth 8) v
  | .rd reg => .host Config.accessBytes ((addr reg).setWidth 8) 0
  | .waitReady => .host Config.accessBytes ((addr .status).setWidth 8) 0

/-! ## Pseudo-instructions -/

/-- `NOP` -/
def nop : List Op := [.wr .cmd 0]

/-- `RESET` -/
def reset : List Op := [.wr .cmd 1]

/-- `UPDATE nb, w`, with `0 <= nb <= 4`. -/
def update (nb : Fin 5) (w : Word) : List Op := [.wr .data w, .wr .cmd (updateWord nb.val), .waitReady]

/-- `FINALIZE` -/
def finalize : List Op := [.wr .cmd 3, .waitReady]

/-- `READDIGEST` -/
def readDigest : List Op := [.rd (.dout 0), .rd (.dout 1), .rd (.dout 2), .rd (.dout 3)]

/-- Bytes packed in wire order, the first most significant (R76); missing bytes are 0 and are not counted. -/
def packWord (b0 b1 b2 b3 : Byte) : Word := b0 ++ b1 ++ b2 ++ b3

/-- The UPDATEs of `HASH`: groups of 4 bytes and the 1 to 3 bytes left, if any (R110). -/
def updates : List Byte → List Op
  | [] => []
  | [b0] => update 1 (packWord b0 0 0 0)
  | [b0, b1] => update 2 (packWord b0 b1 0 0)
  | [b0, b1, b2] => update 3 (packWord b0 b1 b2 0)
  | b0 :: b1 :: b2 :: b3 :: rest => update 4 (packWord b0 b1 b2 b3) ++ updates rest

/-- `HASH <bytes>`: RESET, the UPDATEs, FINALIZE, READDIGEST (R110). -/
def hash (bytes : List Byte) : List Op := reset ++ updates bytes ++ finalize ++ readDigest

/-! ## A program beside the engine -/

/-- The agent of one transition (R7). -/
inductive Turn where
  | host
  | engine
  | reset
deriving DecidableEq, Repr

/-- The transition of an agent's turn. The host whose program has ended has none (log 19). -/
def issue : Turn → List Op → Option Input
  | .host, [] => none
  | .host, op :: _ => some (transaction op)
  | .engine, _ => some .engine
  | .reset, _ => some .reset

/-- The value the bus returned last has bit 0 = 1: with STATUS read, READY (R46). -/
def sawReady (s : State) : Bool :=
  match s.rdata with
  | some v => v[0]
  | none => false

/-- What is left of the program after the host's transaction: WAITRDY stays until its poll has seen READY (R110). -/
def afterHost (prog : List Op) (s : State) : List Op :=
  match prog with
  | [] => []
  | .waitReady :: rest => if sawReady s then rest else .waitReady :: rest
  | .wr _ _ :: rest => rest
  | .rd _ :: rest => rest

/-- What is left of the program after a turn. -/
def afterTurn (u : Turn) (prog : List Op) (s : State) : List Op :=
  match u with
  | .host => afterHost prog s
  | .engine => prog
  | .reset => prog

/-- A host program under a schedule: the state it ends in, and what is left of the program (R13, R83, R110). -/
def runProgram : List Turn → List Op → State → Host.Outcome (State × List Op) Fault Refusal
  | [], prog, s => .next (s, prog)
  | u :: us, prog, s =>
    match issue u prog with
    | none => runProgram us prog s
    | some x =>
      match step { s with inputs := x :: s.inputs } with
      | .next t => runProgram us (afterTurn u prog t) t
      | .fault f => .fault f
      | .refused q => .refused q

end Sys2Proof.Machine.Assembly
end

