-- ==== Sys2Proof/Machine/Transaction.lean ====
section
/-! DEFINITION. The transaction-level view: one block compressed at once (42_compression.md R212), the padded message
(41_commands.md R172) and the digest (R213), as functions of byte sequences. The step-level machine does not use them;
claims compare it with them. -/

namespace Sys2Proof.Machine

/-- The four working variables of R212. -/
structure Work where
  a : Word
  b : Word
  c : Word
  d : Word
deriving DecidableEq, Repr

/-- `F_st` with `st = i >> 4` (R204). -/
def roundFunction (i : BitVec 6) : Word → Word → Word → Word :=
  match (stageOf i).toNat with
  | 0 => f0
  | 1 => f1
  | 2 => f2
  | _ => f3

/-- One round of `Compress` (R212). -/
def compressRound (m : Block) (w : Work) (i : Nat) : Work :=
  let k := BitVec.ofNat 6 i
  let t := w.a + roundFunction k w.b w.c w.d + blockWord m (messageIndex k) + roundConstant k
  { a := w.d, b := w.b + t.rotateLeft (shiftAmount k), c := w.b, d := w.c }

/-- The working variables after the rounds below `n` (R212). -/
@[irreducible] def compressRounds (m : Block) (h : Digest) (n : Nat) : Work :=
  (List.range n).foldl (compressRound m) ⟨h[0], h[1], h[2], h[3]⟩

/-- The last line of `Compress`: the sums of R208. -/
def sumWork (h : Digest) (w : Work) : Digest := #v[h[0] + w.a, h[1] + w.b, h[2] + w.c, h[3] + w.d]

/-- `Compress(h, M)` (R212). -/
@[irreducible] def compress (h : Digest) (m : Block) : Digest := sumWork h (compressRounds m h Config.rounds)

/-- A little-endian word of four bytes, the first in bits 7:0 (R77). -/
def wordLE (b0 b1 b2 b3 : Byte) : Word := b3 ++ b2 ++ b1 ++ b0

/-- Byte `p` of a sequence; a sequence is only asked for bytes it has. -/
def byteOf (bs : List Byte) (p : Nat) : Byte := bs.getD p 0

/-- `X[j]` of the 64-byte block that begins at byte `at0`: its little-endian words (R213). -/
@[irreducible] def blockOf (bs : List Byte) (at0 : Nat) : Block :=
  Vector.ofFn fun j : Fin 16 =>
    wordLE (byteOf bs (at0 + 4 * j.val)) (byteOf bs (at0 + 4 * j.val + 1)) (byteOf bs (at0 + 4 * j.val + 2))
      (byteOf bs (at0 + 4 * j.val + 3))

/-- The digest words after the first `n` blocks of a sequence (R213). -/
@[irreducible] def absorb (bs : List Byte) (n : Nat) : Digest :=
  (List.range n).foldl (fun h k => compress h (blockOf bs (64 * k))) iv

/-- `LE64(x)`: the 8 bytes of `x`, least significant first (R172). -/
def le64 (x : BitVec 64) : List Byte := (List.range 8).map fun k => x.extractLsb' (8 * k) 8

/-- The padded message `P` (R172); `(55 - n) mod 64` is written on naturals. -/
def pad (msg : List Byte) : List Byte :=
  msg ++ [0x80#8] ++ List.replicate ((119 - msg.length % 64) % 64) 0 ++ le64 (BitVec.ofNat 64 (8 * msg.length))

/-- The digest of R213. -/
def md5 (msg : List Byte) : Digest := swapDigest (absorb (pad msg) ((pad msg).length / 64))

end Sys2Proof.Machine
end

