-- ==== Sys2Proof/Safety.lean ====
section
/-! DEFINITION. What a claim calls a safe state (60_exceptions.md R315: ERR is the fault bit), the legal states that
every step keeps, and the states that represent a message in progress. -/

namespace Sys2Proof.Machine

/-- "The Lean model treats `ERR = 1` as a fault bit" (R315); LOVF is not one (R304). -/
def Safe (s : State) : Prop := s.err = false

/-- The combinations of register values the rules allow, once the block has been reset. -/
structure Legal (s : State) : Prop where
  /-- "The value 11 is unreachable: no rule writes it" (R109). -/
  phase_used : s.phase ≠ .unused
  /-- R39: `r = 0` whenever `phase = IDLE`. -/
  idle_round : s.phase = .idle → s.r = 0
  /-- R41: `fstate = NONE` whenever `phase = IDLE`. -/
  idle_fstate : s.phase = .idle → s.fstate = .none
  /-- R39: the step for round 63 leaves `r` at 63 and moves to ACCUM. -/
  accum_round : s.phase = .accum → s.r = 63
  /-- R44, R301: ECAUSE 0 is "no error since the last reset". -/
  cause : s.err = false ↔ s.ecause = .none
  /-- R43: a FINALIZE being accepted clears DVALID, until its end. -/
  finalizing_dvalid : s.fstate ≠ .none → s.dvalid = false
  /-- R201, R154, R160: while a FINALIZE is in flight the buffer stays as its latch left it. -/
  finalizing_bufLen : s.fstate ≠ .none → s.bufLen = 0
  /-- As above, for the contents. -/
  finalizing_buf : s.fstate ≠ .none → s.buf = Vector.replicate 16 0

/-- Before the first hardware reset no register holds a value, so nothing is asked of one (R53). -/
def Inv (s : State) : Prop := s.everReset = true → Legal s

/-- The idle engine holds the message `msg`, streamed since the last reset or FINALIZE: its full blocks in `H`, its
tail in the buffer, its bit length in `L` (R31, R33, R35, R167). -/
structure Represents (s : State) (msg : List Byte) : Prop where
  ready : s.phase = .idle
  fstate : s.fstate = .none
  running : s.h = absorb msg (msg.length / 64)
  count : s.bufLen.toNat = msg.length % 64
  tail : ∀ p : BitVec 6, p.toNat < s.bufLen.toNat → byteAt s.buf p = byteOf msg (64 * (msg.length / 64) + p.toNat)
  length : s.len = BitVec.ofNat 64 (8 * msg.length)

end Sys2Proof.Machine
end

