-- ==== Sys2Proof/Certificates/Slice0/Obligations.lean ====
section
/-! DEFINITION. The statements for the provers. Helper definitions stand in Sys2Proof.Claims; they say a rule of the
spec in its own arithmetic (addresses, byte positions, integers), not by the functions the machine is built from. -/

namespace Sys2Proof.Claims

open Sys2Proof Sys2Proof.Machine

/-- Byte `k` of a word, `k = 0` the least significant. -/
def byteK (w : Word) (k : Nat) : Byte := (w >>> (8 * k)).setWidth 8

/-- Byte `q` of DATA in wire order (R76). -/
def wireByte (w : Word) (q : Nat) : Byte := byteK w (3 - q)

/-- `s` after `raise ERR(c)` (R12, R302): ERR is 1, and ECAUSE keeps the first cause. -/
def errorState (c : Cause) (s : State) : State :=
  { s with err := true, ecause := if s.err then s.ecause else c }

/-- The code of a cause, from the table of R301. -/
def causeCode : Cause → Nat
  | .none => 0
  | .misaligned => 1
  | .roWrite => 2
  | .rsvdAddr => 3
  | .rsvdCmd => 4
  | .cmdBusy => 5
  | .ctxBusy => 6

/-- The value of the register at byte address `a` of the register map (R71), written from its "contents" column. -/
def registerView (s : State) (a : Nat) : Word :=
  if a = 0x04 then s.data
  else if a = 0x08 then status s
  else if a = 0x0C then BitVec.ofNat 32 s.bufLen.toNat
  else if a = 0x10 then BitVec.ofNat 32 s.len.toNat
  else if a = 0x14 then BitVec.ofNat 32 (s.len.toNat / 2 ^ 32)
  else if 0x20 ≤ a ∧ a < 0x30 then s.h.toList.getD ((a - 0x20) / 4) 0
  else if 0x30 ≤ a ∧ a < 0x40 then s.dout.toList.getD ((a - 0x30) / 4) 0
  else if 0x40 ≤ a ∧ a < 0x80 then s.buf.toList.getD ((a - 0x40) / 4) 0
  else 0

/-- The aligned address a read reads (R71). -/
def readAddress : Instr → Option Nat
  | .rdCmd => some 0x00
  | .rdData => some 0x04
  | .rdStatus => some 0x08
  | .rdBufLen => some 0x0C
  | .rdLenLo => some 0x10
  | .rdLenHi => some 0x14
  | .rdRsvd k => some (0x18 + 4 * k.toNat)
  | .rdH i => some (0x20 + 4 * i.toNat)
  | .rdDout i => some (0x30 + 4 * i.toNat)
  | .rdBuf j => some (0x40 + 4 * j.toNat)
  | _ => none

/-- The aligned address and the value of a write (R71). -/
def writeAddress : Instr → Option (Nat × Word)
  | .wrCmd v => some (0x00, v)
  | .wrData v => some (0x04, v)
  | .wrStatus v => some (0x08, v)
  | .wrBufLen v => some (0x0C, v)
  | .wrLenLo v => some (0x10, v)
  | .wrLenHi v => some (0x14, v)
  | .wrRsvd k v => some (0x18 + 4 * k.toNat, v)
  | .wrH i v => some (0x20 + 4 * i.toNat, v)
  | .wrDout i v => some (0x30 + 4 * i.toNat, v)
  | .wrBuf j v => some (0x40 + 4 * j.toNat, v)
  | _ => none

/-- The context registers' addresses: BUFLEN, LEN_LO, LEN_HI, H0..H3, BUF0..BUF15 (R154). -/
def isContextAddress (a : Nat) : Bool :=
  a = 0x0C || a = 0x10 || a = 0x14 || (0x20 ≤ a && a < 0x30) || (0x40 ≤ a && a < 0x80)

/-- The eight legal command words (R105). -/
def legalWords : List Word := [0x00, 0x01, 0x03, 0x02, 0x12, 0x22, 0x32, 0x42]

/-- UPDATE with NB = `k`. -/
def updateOf (k : Fin 5) : Instr :=
  match k with
  | 0 => .updateNb0
  | 1 => .updateNb1
  | 2 => .updateNb2
  | 3 => .updateNb3
  | 4 => .updateNb4

/-- The ROUND row of stage `st` with SEL[3:0] = `lo`. -/
def roundOf (st : Fin 4) (lo : BitVec 4) : Instr :=
  match st with
  | 0 => .roundF0 lo
  | 1 => .roundF1 lo
  | 2 => .roundF2 lo
  | 3 => .roundF3 lo

/-- The first check of R305 that a transaction fails, if any. -/
def firstFailure (s : State) (ctl : BitVec 8) (wdata : Word) : Option Cause :=
  let a := ctl.toNat % 128
  let we := ctl.toNat / 128 = 1
  if a % 4 ≠ 0 then some .misaligned
  else if we ∧ (a = 0x08 ∨ (0x30 ≤ a ∧ a < 0x40)) then some .roWrite
  else if we ∧ (a = 0x18 ∨ a = 0x1C) then some .rsvdAddr
  else if we ∧ a = 0x00 ∧ wdata ∉ legalWords then some .rsvdCmd
  else if we ∧ a = 0x00 ∧ wdata ≠ 0 ∧ wdata ≠ 1 ∧ s.phase ≠ .idle then some .cmdBusy
  else if we ∧ isContextAddress a ∧ s.phase ≠ .idle then some .ctxBusy
  else none

/-- The instruction is the RESET command, as a command word or as the write that carries it. -/
def isReset (i : Instr) : Bool := i == .reset || i == .wrCmd 1

/-- The instruction is FINALIZE, as a command word or as the write that carries it. -/
def isFinalize (i : Instr) : Bool := i == .finalize || i == .wrCmd 3

/-- NB of an UPDATE, as a command word or as the write that carries it. -/
def updateCount : Instr → Option Nat
  | .updateNb0 => some 0
  | .updateNb1 => some 1
  | .updateNb2 => some 2
  | .updateNb3 => some 3
  | .updateNb4 => some 4
  | .wrCmd v =>
    if v = 0x02 then some 0 else if v = 0x12 then some 1 else if v = 0x22 then some 2
    else if v = 0x32 then some 3 else if v = 0x42 then some 4 else none
  | _ => none

/-- The instruction is a row ACCUM. -/
def isAccum : Instr → Bool
  | .accum _ => true
  | _ => false

/-- A BUS row of the opcode table: its pattern by mask and match, and the instructions it stands for, with their
operands as fields of CTL and WDATA. -/
structure BusRow where
  mask : BitVec 8
  pattern : BitVec 8
  holds : BitVec 8 → Word → Instr → Bool

/-- The 24 BUS rows of the opcode table (R101). -/
def busRows : List BusRow :=
  [⟨0x81, 0x01, fun c _ i => match i with | .rdMisalignedOdd x => x == c.extractLsb' 1 6 | _ => false⟩,
   ⟨0x83, 0x02, fun c _ i => match i with | .rdMisalignedTwo x => x == c.extractLsb' 2 5 | _ => false⟩,
   ⟨0xff, 0x00, fun _ _ i => match i with | .rdCmd => true | _ => false⟩,
   ⟨0xff, 0x04, fun _ _ i => match i with | .rdData => true | _ => false⟩,
   ⟨0xff, 0x08, fun _ _ i => match i with | .rdStatus => true | _ => false⟩,
   ⟨0xff, 0x0c, fun _ _ i => match i with | .rdBufLen => true | _ => false⟩,
   ⟨0xff, 0x10, fun _ _ i => match i with | .rdLenLo => true | _ => false⟩,
   ⟨0xff, 0x14, fun _ _ i => match i with | .rdLenHi => true | _ => false⟩] ++
  [⟨0xfb, 0x18, fun c _ i => match i with | .rdRsvd k => k == c.extractLsb' 2 1 | _ => false⟩,
   ⟨0xf3, 0x20, fun c _ i => match i with | .rdH k => k == c.extractLsb' 2 2 | _ => false⟩,
   ⟨0xf3, 0x30, fun c _ i => match i with | .rdDout k => k == c.extractLsb' 2 2 | _ => false⟩,
   ⟨0xc3, 0x40, fun c _ i => match i with | .rdBuf k => k == c.extractLsb' 2 4 | _ => false⟩,
   ⟨0x81, 0x81, fun c w i => match i with | .wrMisalignedOdd x v => x == c.extractLsb' 1 6 && v == w | _ => false⟩,
   ⟨0x83, 0x82, fun c w i => match i with | .wrMisalignedTwo x v => x == c.extractLsb' 2 5 && v == w | _ => false⟩,
   ⟨0xff, 0x80, fun _ w i => match i with | .wrCmd v => v == w | _ => false⟩,
   ⟨0xff, 0x84, fun _ w i => match i with | .wrData v => v == w | _ => false⟩] ++
  [⟨0xff, 0x88, fun _ w i => match i with | .wrStatus v => v == w | _ => false⟩,
   ⟨0xff, 0x8c, fun _ w i => match i with | .wrBufLen v => v == w | _ => false⟩,
   ⟨0xff, 0x90, fun _ w i => match i with | .wrLenLo v => v == w | _ => false⟩,
   ⟨0xff, 0x94, fun _ w i => match i with | .wrLenHi v => v == w | _ => false⟩,
   ⟨0xfb, 0x98, fun c w i => match i with | .wrRsvd k v => k == c.extractLsb' 2 1 && v == w | _ => false⟩,
   ⟨0xf3, 0xa0, fun c w i => match i with | .wrH k v => k == c.extractLsb' 2 2 && v == w | _ => false⟩,
   ⟨0xf3, 0xb0, fun c w i => match i with | .wrDout k v => k == c.extractLsb' 2 2 && v == w | _ => false⟩,
   ⟨0xc3, 0xc0, fun c w i => match i with | .wrBuf k v => k == c.extractLsb' 2 4 && v == w | _ => false⟩]

/-- Byte `p` of the message block that an UPDATE is filling: the buffered bytes, then DATA's (R163, R164). -/
def streamByte (s : State) (p : Nat) : Byte :=
  if p < s.bufLen.toNat then byteAt s.buf (BitVec.ofNat 6 p) else wireByte s.data (p - s.bufLen.toNat)

/-- Byte `p` of the block that FINALIZE pads: the buffered bytes, 0x80, then zero bytes (R169 to R171). -/
def paddedByte (s : State) (p : Nat) : Byte :=
  if p < s.bufLen.toNat then byteAt s.buf (BitVec.ofNat 6 p) else if p = s.bufLen.toNat then 0x80 else 0

/-- The word whose bytes, least significant first, are `f (4j) .. f (4j+3)`: internal order (R77). -/
def IsWordOf (w : Word) (f : Nat → Byte) (j : Nat) : Prop := ∀ k : Fin 4, byteK w k.val = f (4 * j + k.val)

/-- The round function of stage `st` (R204, R247 to R250). -/
def stageFunction (st : Fin 4) (x y z : Word) : Word :=
  match st with
  | 0 => (x &&& y) ||| (~~~x &&& z)
  | 1 => (x &&& z) ||| (y &&& ~~~z)
  | 2 => x ^^^ y ^^^ z
  | 3 => y ^^^ (x ||| ~~~z)

/-- `g(i)` of stage `st` (R205). -/
def stageIndex (st : Fin 4) (i : Nat) : Nat :=
  match st with
  | 0 => i % 16
  | 1 => (5 * i + 1) % 16
  | 2 => (3 * i + 5) % 16
  | 3 => 7 * i % 16

/-- `S[st]` (R274). -/
def stageShifts (st : Fin 4) : List Nat :=
  match st with
  | 0 => [7, 12, 17, 22]
  | 1 => [5, 9, 14, 20]
  | 2 => [4, 11, 16, 23]
  | 3 => [6, 10, 15, 21]

/-- The engine's turn `n` times, then whatever follows. -/
def engineTurns (n : Nat) (rest : List Input) (s : State) : State :=
  { s with inputs := List.replicate n .engine ++ rest }

/-- A transition that a polling host and the engine make: an engine's turn, or an aligned read. -/
def isEngineOrRead : Input → Bool
  | .engine => true
  | .host width ctl _ => width == 4 && decide (ctl.toNat < 128) && decide (ctl.toNat % 4 = 0)
  | .reset => false

/-- Two idle states with the same context: H, L, bufLen and the buffered bytes (R155). -/
structure SameContext (s t : State) : Prop where
  idle : s.phase = .idle ∧ t.phase = .idle
  none : s.fstate = .none ∧ t.fstate = .none
  h : s.h = t.h
  len : s.len = t.len
  bufLen : s.bufLen = t.bufLen
  bytes : ∀ p : BitVec 6, p.toNat < s.bufLen.toNat → byteAt s.buf p = byteAt t.buf p

end Sys2Proof.Claims

open Sys2Proof Sys2Proof.Machine Sys2Proof.Claims

/-! ## Encodings -/

/-- R101, R103, R109: every well-formed instruction is decoded from its own words, with every operand at every value. -/
def Obligations.DecodeOfEncodeIsTheInstruction : Prop :=
  ∀ i : Instr, wellFormed i = true → decode (encode i) = .ok i

/-- The other direction: a bus transaction decodes to a well-formed instruction whose words are that transaction, but
that the WDATA of a read, which the bus ignores (R100), is given back as 0: the encoder writes RD as R110 does (the
model's reading, log 16). A command word and a step selector give back every bit. -/
def Obligations.EncodeOfDecodeIsTheWord : Prop :=
  (∀ ctl wdata, wellFormed (decodeBus ctl wdata) = true ∧
    encode (decodeBus ctl wdata) = .bus 4 ctl (if ctl.toNat < 128 then 0 else wdata)) ∧
  (∀ v, wellFormed (decodeCmd v) = true ∧ encode (decodeCmd v) = .cmd v) ∧
  (∀ x, wellFormed (decodeStep x) = true ∧ encode (decodeStep x) = .step x)

/-- R101: the 24 BUS rows cover every CTL, each CTL names exactly one row, and the decoder's instruction is of that
row, with its operands. -/
def Obligations.EveryCtlNamesExactlyOneRow : Prop :=
  ∀ (ctl : BitVec 8) (wdata : Word), ∃ row ∈ busRows,
    ctl &&& row.mask = row.pattern ∧ row.holds ctl wdata (decodeBus ctl wdata) = true ∧
    ∀ row' ∈ busRows, ctl &&& row'.mask = row'.pattern → row'.mask = row.mask ∧ row'.pattern = row.pattern

/-- R71: an aligned CTL decodes to the read or write of its address, with WDATA as the value written. -/
def Obligations.AddressesSelectTheirRegister : Prop :=
  ∀ (ctl : BitVec 8) (wdata : Word), ctl.toNat % 4 = 0 →
    (ctl.toNat < 128 → readAddress (decodeBus ctl wdata) = some ctl.toNat) ∧
    (128 ≤ ctl.toNat → writeAddress (decodeBus ctl wdata) = some (ctl.toNat - 128, wdata))

/-- R105: which words are legal, by their fields and as the eight words; these decode to the eight commands, every
other word to RESERVED_CMD. -/
def Obligations.EightCommandWordsAreLegal : Prop :=
  (decodeCmd 0x00 = .nop ∧ decodeCmd 0x01 = .reset ∧ decodeCmd 0x03 = .finalize ∧
    decodeCmd 0x02 = .updateNb0 ∧ decodeCmd 0x12 = .updateNb1 ∧ decodeCmd 0x22 = .updateNb2 ∧
    decodeCmd 0x32 = .updateNb3 ∧ decodeCmd 0x42 = .updateNb4) ∧
  (∀ v : Word, cmdLegal v = true ↔ v ∈ legalWords) ∧
  (∀ v : Word, cmdLegal v = true ↔ v.toNat / 2 ^ 7 = 0 ∧
    ((v.toNat % 16 ∈ [0x0, 0x1, 0x3] ∧ v.toNat / 16 % 8 = 0) ∨ (v.toNat % 16 = 0x2 ∧ v.toNat / 16 % 8 ≤ 4))) ∧
  (∀ v : Word, v ∉ legalWords → decodeCmd v = .reservedCmd v)

/-- R109: SEL = {phase, r} selects the step; with phase ROUND, `r[5:4]` is the stage. -/
def Obligations.SelectorChoosesTheStep : Prop :=
  ∀ s : State,
    (s.phase = .idle → (sel s).toNat = s.r.toNat ∧ decodeStep (sel s) = .idleNoStep s.r) ∧
    (s.phase = .accum → (sel s).toNat = 0x80 + s.r.toNat ∧ decodeStep (sel s) = .accum s.r) ∧
    (s.phase = .unused → (sel s).toNat = 0xc0 + s.r.toNat ∧ decodeStep (sel s) = .unreachablePhase3 s.r) ∧
    (s.phase = .round → (sel s).toNat = 0x40 + s.r.toNat ∧ ∀ st : Fin 4, s.r.toNat / 16 = st.val →
      decodeStep (sel s) = roundOf st (BitVec.ofNat 4 (s.r.toNat % 16)))

/-- A few words written out from R101, R103 and R109. -/
def Obligations.SampleWordsDecode : Prop :=
  decode (.bus 4 0b00001000 0) = .ok .rdStatus ∧
  decode (.bus 4 0b00101000 7) = .ok (.rdH 2) ∧
  decode (.bus 4 0b11111100 0xa5a5a5a5) = .ok (.wrBuf 15 0xa5a5a5a5) ∧
  decode (.bus 4 0b10000110 1) = .ok (.wrMisalignedTwo 1 1) ∧
  decode (.cmd 0b00000000000000000000000000110010) = .ok .updateNb3 ∧
  decode (.cmd 0x52) = .ok (.reservedCmd 0x52) ∧
  decode (.step 0b01100101) = .ok (.roundF2 5) ∧
  decode (.step 0b10111111) = .ok (.accum 63)

/-! ## A step -/

/-- R13, R100: a host transaction at the head of the interleaving is one step, and it runs the instruction that its
words decode to. -/
def Obligations.StepRunsTheHostsTransaction : Prop :=
  ∀ (s : State) (ctl : BitVec 8) (wdata : Word) (rest : List Input) (i : Instr), s.everReset = true →
    s.inputs = .host 4 ctl wdata :: rest → decode (.bus 4 ctl wdata) = .ok i →
    step s = exec i { s with inputs := rest }

/-- R13, R202: the engine's turn is one step, and it runs the step that SEL selects; with no transition listed the
engine has the turn (the model's choice, log 2). -/
def Obligations.StepRunsTheSelectedEngineStep : Prop :=
  ∀ (s : State) (rest : List Input), s.everReset = true →
    (s.inputs = .engine :: rest → step s = exec (decodeStep (sel s)) { s with inputs := rest }) ∧
    (s.inputs = [] → step s = exec (decodeStep (sel s)) s)

/-- R330: hardware reset, in any state, before the first reset too, is one step to the reset values of R52. -/
def Obligations.HardwareResetSetsEveryRegister : Prop :=
  ∀ (s : State) (rest : List Input), s.inputs = .reset :: rest → ∃ t, step s = .next t ∧
    t.h = #v[0x67452301, 0xEFCDAB89, 0x98BADCFE, 0x10325476] ∧ (∀ j : Fin 16, t.buf[j] = 0 ∧ t.m[j] = 0) ∧
    (∀ j : Fin 4, t.dout[j] = 0) ∧ t.bufLen = 0 ∧ t.len = 0 ∧ t.data = 0 ∧
    t.a = 0 ∧ t.b = 0 ∧ t.c = 0 ∧ t.d = 0 ∧ t.r = 0 ∧ t.phase = .idle ∧ t.fstate = .none ∧
    t.dvalid = false ∧ t.err = false ∧ t.ecause = .none ∧ t.lovf = false ∧ status t = 0x00000001

/-- The model's choice for its own fields (logs 3, 4 and 14): hardware reset leaves `State.reset`, but for the
transitions still to come, which it keeps. -/
def Obligations.HardwareResetLeavesTheResetState : Prop :=
  ∀ (s : State) (rest : List Input), s.inputs = .reset :: rest → step s = .next { State.reset with inputs := rest }

/-- R53, R332: before the first hardware reset, a bus access and an engine step are faults. That the registers hold no
value until then is one mark, `everReset` (the model's reading, log 4). -/
def Obligations.NothingRunsBeforeTheFirstReset : Prop :=
  ∀ (s : State) (rest : List Input), s.everReset = false →
    (∀ width ctl wdata, s.inputs = .host width ctl wdata :: rest → step s = .fault .beforeFirstReset) ∧
    (s.inputs = .engine :: rest → step s = .fault .beforeFirstReset)

/-- R72: a bus access of another width is refused by name. -/
def Obligations.OtherWidthsAreRefused : Prop :=
  ∀ (s : State) (width : Nat) (ctl : BitVec 8) (wdata : Word) (rest : List Input), width ≠ 4 →
    decode (.bus width ctl wdata) = .error (.accessWidth width) ∧
    (s.everReset = true → s.inputs = .host width ctl wdata :: rest → step s = .refused (.accessWidth width))

/-! ## Bus reads -/

/-- R131 to R140: an aligned read answers the register of its address, in every phase, and changes nothing else; CTL is
that address; a second read of the same register answers the same (R74). -/
def Obligations.ReadsAnswerTheRegisterOfTheirAddress : Prop :=
  ∀ (s : State) (i : Instr) (a : Nat), readAddress i = some a →
    (∀ wdata, decodeBus (BitVec.ofNat 8 a) wdata = i) ∧
    exec i s = .next { s with rdata := some (registerView s a) } ∧
    ∀ t, exec i s = .next t → exec i t = .next t

/-- R46: every field of STATUS, and its zero bits. R301: the code of each cause, as bits 31:16 show it; and a
transaction with a failed check, the first since the last reset, records the code of that cause and nothing else. The
model's choice (log 15): ECAUSE is a named cause, of which the code is a view, so that bits 31:16 are not 7 in any state
at all, where R301 says that 7 is never written. -/
def Obligations.StatusIsComposedOfItsFields : Prop :=
  (∀ s : State,
    (status s)[0] = decide (s.phase = .idle) ∧ (status s)[1] = s.dvalid ∧ (status s)[2] = s.err ∧
    (status s)[3] = s.lovf ∧ (status s).toNat / 16 % 16 = 0 ∧ (status s).toNat / 2 ^ 8 % 64 = s.bufLen.toNat ∧
    (status s).toNat / 2 ^ 14 % 4 = 0 ∧ (status s).toNat / 2 ^ 16 = causeCode s.ecause ∧
    (status s).toNat / 2 ^ 16 ≠ 7) ∧
  ∀ (s : State) (ctl : BitVec 8) (wdata : Word) (c : Cause), s.err = false → firstFailure s ctl wdata = some c →
    ∃ t, exec (decodeBus ctl wdata) s = .next t ∧ (status t).toNat / 2 ^ 16 = causeCode c ∧
      t = { s with err := true, ecause := t.ecause, rdata := if ctl.toNat < 128 then some 0 else s.rdata }

/-- R73, R141, R153: a misaligned access raises MISALIGNED and changes nothing else; a misaligned read returns 0. It
holds of the four constructors and of every CTL with `CTL[1:0] != 0`. -/
def Obligations.MisalignedAccessesAreDropped : Prop :=
  ∀ s : State,
    (∀ hi, exec (.rdMisalignedOdd hi) s = .next { errorState .misaligned s with rdata := some 0 }) ∧
    (∀ slot, exec (.rdMisalignedTwo slot) s = .next { errorState .misaligned s with rdata := some 0 }) ∧
    (∀ hi v, exec (.wrMisalignedOdd hi v) s = .next (errorState .misaligned s)) ∧
    (∀ slot v, exec (.wrMisalignedTwo slot v) s = .next (errorState .misaligned s)) ∧
    (∀ (ctl : BitVec 8) (wdata : Word), ctl.toNat % 4 ≠ 0 → exec (decodeBus ctl wdata) s =
      .next (if ctl.toNat < 128 then { errorState .misaligned s with rdata := some 0 }
        else errorState .misaligned s))

/-! ## Bus writes -/

/-- R144: a write to DATA (CTL 0x84) is accepted in every phase and writes nothing else; the register reads back as written, and
every other register as before. -/
def Obligations.DataWriteIsAcceptedInEveryPhase : Prop :=
  ∀ (s : State) (v : Word), decodeBus 0x84 v = .wrData v ∧ ∃ t, exec (.wrData v) s = .next t ∧ registerView t 0x04 = v ∧
    (∀ b, b ≠ 0x04 → registerView t b = registerView s b) ∧ t = { s with data := t.data }

/-- R146 to R149, R151: a context write (CTL is 0x80 and its address) with READY = 1 makes its address read as the value written (BUFLEN: as
`v[5:0]`), and every other address but STATUS read as before; nothing else changes. With READY = 0 it raises CTX_BUSY
and is dropped. -/
def Obligations.ContextWritesStoreWhenReadyElseRaise : Prop :=
  ∀ (s : State) (i : Instr) (a : Nat) (v : Word), writeAddress i = some (a, v) → isContextAddress a = true →
    decodeBus (BitVec.ofNat 8 (0x80 + a)) v = i ∧
    (s.phase = .idle → ∃ t, exec i s = .next t ∧
      registerView t a = (if a = 0x0C then BitVec.ofNat 32 (v.toNat % 64) else v) ∧
      (∀ b, b ≠ a → b ≠ 0x08 → b % 4 = 0 → registerView t b = registerView s b) ∧
      t = { s with h := t.h, buf := t.buf, bufLen := t.bufLen, len := t.len }) ∧
    (s.phase ≠ .idle → exec i s = .next (errorState .ctxBusy s))

/-- R145, R150, R152, R106: writes to read-only and reserved addresses, and reserved command words, raise their cause
in every phase and change nothing else. -/
def Obligations.ForbiddenWritesRaiseTheirCause : Prop :=
  ∀ (s : State) (v : Word),
    (decodeBus 0x88 v = .wrStatus v ∧ (∀ i : BitVec 2, decodeBus (BitVec.ofNat 8 (0xb0 + 4 * i.toNat)) v = .wrDout i v) ∧
      ∀ k : BitVec 1, decodeBus (BitVec.ofNat 8 (0x98 + 4 * k.toNat)) v = .wrRsvd k v) ∧
    exec (.wrStatus v) s = .next (errorState .roWrite s) ∧
    (∀ i, exec (.wrDout i v) s = .next (errorState .roWrite s)) ∧
    (∀ k, exec (.wrRsvd k v) s = .next (errorState .rsvdAddr s)) ∧
    exec (.reservedCmd v) s = .next (errorState .rsvdCmd s) ∧
    (v ∉ legalWords → exec (.wrCmd v) s = .next (errorState .rsvdCmd s))

/-- R303, R305: every bus transaction completes; the first check that fails decides the one cause, and the transaction
is then dropped: nothing but ERR, ECAUSE and a read's value (0) changes. A transaction that fails no check leaves ERR
and ECAUSE alone, unless it is the RESET command. -/
def Obligations.FirstFailedCheckDecides : Prop :=
  ∀ (s : State) (ctl : BitVec 8) (wdata : Word), ∃ t, exec (decodeBus ctl wdata) s = .next t ∧
    (∀ c, firstFailure s ctl wdata = some c →
      t = { errorState c s with rdata := if ctl.toNat < 128 then some 0 else s.rdata }) ∧
    (firstFailure s ctl wdata = none →
      (t.err = s.err ∧ t.ecause = s.ecause) ∨
      (ctl = 0x80 ∧ wdata = 1 ∧ t.err = false ∧ t.ecause = .none))

/-- R302: ERR and ECAUSE are sticky: a step from a state with ERR = 1 keeps both, unless it is the RESET command or
hardware reset, which clear both. A host transaction with an error sets ERR if it was 0, with its cause, and no other
step sets ERR. -/
def Obligations.ErrIsStickyUntilReset : Prop :=
  ∀ s t : State, s.everReset = true → step s = .next t →
    (s.err = true → (t.err = true ∧ t.ecause = s.ecause) ∨
      ((∃ rest, s.inputs = .reset :: rest) ∨ ∃ rest, s.inputs = .host 4 0x80 1 :: rest) ∧
        t.err = false ∧ t.ecause = .none) ∧
    (s.err = false → ∀ ctl wdata rest c, s.inputs = .host 4 ctl wdata :: rest → firstFailure s ctl wdata = some c →
      t.err = true ∧ t.ecause = c) ∧
    (s.err = false → t.err = true → ∃ ctl wdata rest c, s.inputs = .host 4 ctl wdata :: rest ∧
      firstFailure s ctl wdata = some c)

/-! ## Commands -/

/-- R143, R160: a write of `v` to CMD: legality first; NOP and RESET in every phase; UPDATE and FINALIZE with
READY = 1, else CMD_BUSY. It does what the command word decodes to does. -/
def Obligations.WriteToCmdRunsTheCommand : Prop :=
  ∀ (s : State) (v : Word),
    decodeBus 0x80 v = .wrCmd v ∧
    exec (.wrCmd v) s = exec (decodeCmd v) s ∧
    (v ∉ legalWords → exec (.wrCmd v) s = .next (errorState .rsvdCmd s)) ∧
    exec (.wrCmd 0x00) s = .next s ∧
    exec (.wrCmd 0x01) s = exec .reset s ∧
    (s.phase ≠ .idle → v ∈ legalWords → v ≠ 0x00 → v ≠ 0x01 →
      exec (.wrCmd v) s = .next (errorState .cmdBusy s)) ∧
    exec (.wrCmd 0x03) s = exec .finalize s ∧
    (∀ k : Fin 5, exec (.wrCmd (BitVec.ofNat 32 (16 * k.val + 2))) s = exec (updateOf k) s)

/-- R161: NOP changes nothing, in every phase; and with phase IDLE the engine has no step (R202): its turn changes
nothing. -/
def Obligations.NopAndIdleChangeNothing : Prop :=
  ∀ s : State, exec .nop s = .next s ∧ exec (.wrCmd 0) s = .next s ∧ (∀ r, exec (.idleNoStep r) s = .next s) ∧
    (s.everReset = true → s.phase = .idle → ∀ rest, s.inputs = .engine :: rest →
      step s = .next { s with inputs := rest })

/-- R162: RESET, in every phase, gives the reset values of R52 to every register but DATA; it is idempotent, and the
engine then holds the empty message. -/
def Obligations.ResetCommandRestoresTheInitialState : Prop :=
  ∀ s : State, ∃ t, exec .reset s = .next t ∧ exec (.wrCmd 1) s = .next t ∧
    t.h = #v[0x67452301, 0xEFCDAB89, 0x98BADCFE, 0x10325476] ∧ (∀ j : Fin 16, t.buf[j] = 0 ∧ t.m[j] = 0) ∧
    (∀ j : Fin 4, t.dout[j] = 0) ∧ t.bufLen = 0 ∧ t.len = 0 ∧
    t.a = 0 ∧ t.b = 0 ∧ t.c = 0 ∧ t.d = 0 ∧ t.r = 0 ∧ t.phase = .idle ∧ t.fstate = .none ∧
    t.dvalid = false ∧ t.err = false ∧ t.ecause = .none ∧ t.lovf = false ∧ status t = 0x00000001 ∧
    t.data = s.data ∧ t.everReset = s.everReset ∧ t.inputs = s.inputs ∧ t.rdata = s.rdata ∧
    exec .reset t = .next t ∧ Represents t []

/-- R334: UPDATE and FINALIZE with READY = 0 raise CMD_BUSY and are dropped. -/
def Obligations.BusyCommandsAreDropped : Prop :=
  ∀ s : State, s.phase ≠ .idle →
    (∀ k, exec (updateOf k) s = .next (errorState .cmdBusy s)) ∧
    exec .finalize s = .next (errorState .cmdBusy s)

/-- R164, R165: UPDATE with READY = 1 appends the first NB bytes of DATA. If they do not fill the buffer they stand at
the positions from `bufLen` up and nothing else of the buffer changes. If they do, the 64 bytes are latched as a
non-final block (R165), and the bytes left stand in the emptied buffer. -/
def Obligations.UpdateAppendsItsBytes : Prop :=
  ∀ (s : State) (k : Fin 5), s.phase = .idle → ∃ t, exec (updateOf k) s = .next t ∧
    (s.bufLen.toNat + k.val < 64 →
      t.bufLen.toNat = s.bufLen.toNat + k.val ∧
      (∀ p : BitVec 6, byteAt t.buf p =
        if s.bufLen.toNat ≤ p.toNat ∧ p.toNat < s.bufLen.toNat + k.val then
          wireByte s.data (p.toNat - s.bufLen.toNat)
        else byteAt s.buf p) ∧
      t = { s with buf := t.buf, bufLen := t.bufLen, len := t.len, lovf := t.lovf }) ∧
    (64 ≤ s.bufLen.toNat + k.val →
      (∀ j : Fin 16, IsWordOf t.m[j] (streamByte s) j.val) ∧
      t.a = s.h[0] ∧ t.b = s.h[1] ∧ t.c = s.h[2] ∧ t.d = s.h[3] ∧
      t.r = 0 ∧ t.phase = .round ∧ t.fstate = .none ∧
      t.bufLen.toNat = s.bufLen.toNat + k.val - 64 ∧
      (∀ p : BitVec 6, byteAt t.buf p =
        if p.toNat < t.bufLen.toNat then wireByte s.data (64 - s.bufLen.toNat + p.toNat) else 0) ∧
      t = { s with
        buf := t.buf, bufLen := t.bufLen, len := t.len, lovf := t.lovf, m := t.m, a := t.a, b := t.b, c := t.c,
        d := t.d, r := t.r, phase := t.phase, fstate := t.fstate })

/-- R166: an accepted UPDATE adds 8 NB to L modulo 2^64, and sets LOVF exactly when the sum passes 2^64 - 1. -/
def Obligations.UpdateCountsItsBits : Prop :=
  ∀ (s : State) (k : Fin 5), s.phase = .idle → ∃ t, exec (updateOf k) s = .next t ∧
    t.len.toNat = (s.len.toNat + 8 * k.val) % 2 ^ 64 ∧
    t.lovf = (s.lovf || decide (2 ^ 64 ≤ s.len.toNat + 8 * k.val))

/-- R169 to R171: FINALIZE with READY = 1 clears DVALID, pads and latches. With `bufLen <= 55` one block, whose words
14 and 15 are the length, not swapped; with `bufLen >= 56` the first of two, all 16 words swapped. -/
def Obligations.FinalizePadsAndLatches : Prop :=
  ∀ s : State, s.phase = .idle → ∃ t, exec .finalize s = .next t ∧
    (∀ j : Fin 14, IsWordOf t.m[j.val] (paddedByte s) j.val) ∧
    (s.bufLen.toNat ≤ 55 →
      t.m[14] = BitVec.ofNat 32 s.len.toNat ∧ t.m[15] = BitVec.ofNat 32 (s.len.toNat / 2 ^ 32) ∧ t.fstate = .last) ∧
    (56 ≤ s.bufLen.toNat →
      IsWordOf t.m[14] (paddedByte s) 14 ∧ IsWordOf t.m[15] (paddedByte s) 15 ∧ t.fstate = .pad2) ∧
    t = { s with
      m := t.m, fstate := t.fstate, dvalid := false, buf := Vector.replicate 16 0, bufLen := 0,
      a := s.h[0], b := s.h[1], c := s.h[2], d := s.h[3], r := 0, phase := .round }

/-! ## The engine's steps -/

/-- The row ROUND of round `i = 16*st + lo`: every working variable's new value, the next `r` and phase, and nothing
else (R203 to R206). For a state whose `r` is not `i` this is the model's choice (log 9): the row's meaning takes the
round from its operand, where R203 reads `r`; on the engine's turn the two are the same, which
`EngineTurnComputesItsRound` states. -/
def Obligations.RoundStepComputesItsRound : Prop :=
  ∀ (s : State) (st : Fin 4) (lo : BitVec 4),
    let i := 16 * st.val + lo.toNat
    let t := s.a + stageFunction st s.b s.c s.d + s.m.toList.getD (stageIndex st i) 0 + rom.getD i 0
    exec (roundOf st lo) s = .next { s with
      a := s.d
      b := s.b + t.rotateLeft ((stageShifts st).getD (i % 4) 0)
      c := s.b
      d := s.c
      r := if i < 63 then BitVec.ofNat 6 (i + 1) else s.r
      phase := if i < 63 then s.phase else .accum }

/-- R203 to R206: the engine's turn in phase ROUND is round `i = r`: every working variable's new value, the next `r`
and phase, and nothing else but that the turn is taken. -/
def Obligations.EngineTurnComputesItsRound : Prop :=
  ∀ (s : State) (rest : List Input) (st : Fin 4), s.everReset = true → s.inputs = .engine :: rest →
    s.phase = .round → s.r.toNat / 16 = st.val →
    let i := s.r.toNat
    let t := s.a + stageFunction st s.b s.c s.d + s.m.toList.getD (stageIndex st i) 0 + rom.getD i 0
    step s = .next { s with
      a := s.d
      b := s.b + t.rotateLeft ((stageShifts st).getD (i % 4) 0)
      c := s.b
      d := s.c
      r := if i < 63 then BitVec.ofNat 6 (i + 1) else s.r
      phase := if i < 63 then .round else .accum
      inputs := rest }

/-- R208 to R211: the ACCUM step, for each `fstate`: `H` takes the sums, and the block ends, or the second padding
block is latched, or the digest is output and the context reset. -/
def Obligations.AccumEndsTheBlock : Prop :=
  ∀ (s : State) (r : BitVec 6),
    let h' : Digest := #v[s.h[0] + s.a, s.h[1] + s.b, s.h[2] + s.c, s.h[3] + s.d]
    (s.fstate = .none → exec (.accum r) s = .next { s with h := h', r := 0, phase := .idle }) ∧
    (s.fstate = .pad2 → ∃ t, exec (.accum r) s = .next t ∧ (∀ j : Fin 14, t.m[j.val] = 0) ∧
      t.m[14] = BitVec.ofNat 32 s.len.toNat ∧ t.m[15] = BitVec.ofNat 32 (s.len.toNat / 2 ^ 32) ∧
      t = { s with
        h := h', m := t.m, a := h'[0], b := h'[1], c := h'[2], d := h'[3], r := 0, phase := .round,
        fstate := .last, buf := Vector.replicate 16 0, bufLen := 0 }) ∧
    (s.fstate = .last → ∃ t, exec (.accum r) s = .next t ∧
      (∀ (j : Fin 4) (k : Fin 4), byteK t.dout[j] k.val = byteK h'[j] (3 - k.val)) ∧
      t = { s with
        dout := t.dout, dvalid := true, h := #v[0x67452301, 0xEFCDAB89, 0x98BADCFE, 0x10325476], len := 0,
        buf := Vector.replicate 16 0, bufLen := 0, r := 0, fstate := .none, phase := .idle })

/-- R202: the engine has a step exactly in ROUND, where it is the round of `r`, and in ACCUM; in IDLE its turn changes
nothing; in phase 11, which no rule writes, it is a fault that names the state, and gives no step. -/
def Obligations.EngineStepsOnlyInRoundAndAccum : Prop :=
  (∀ (s : State) (r : BitVec 6), exec (.unreachablePhase3 r) s = .fault .unusedPhase) ∧
  ∀ (s : State) (rest : List Input), s.everReset = true → s.inputs = .engine :: rest →
    (s.phase = .idle → step s = .next { s with inputs := rest }) ∧
    (s.phase = .round → ∀ st : Fin 4, s.r.toNat / 16 = st.val →
      step s = exec (roundOf st (BitVec.ofNat 4 (s.r.toNat % 16))) { s with inputs := rest } ∧ ∃ t, step s = .next t) ∧
    (s.phase = .accum →
      step s = exec (.accum s.r) { s with inputs := rest } ∧ ∃ t, step s = .next t) ∧
    (s.phase = .unused → step s = .fault .unusedPhase)

/-! ## The datapath -/

/-- R244: bit `k` of `rotl32(x, s)` is bit `(k - s) mod 32` of `x`; an amount of 32 or more is refused. -/
def Obligations.RotateMovesEachBit : Prop :=
  (∀ (x : Word) (n : Nat), n < 32 → ∃ y, rotl32 x n = some y ∧
    ∀ k, k < 32 → y.getLsbD k = x.getLsbD ((k + 32 - n) % 32)) ∧
  ∀ (x : Word) (n : Nat), 32 ≤ n → rotl32 x n = none

/-- R246: `bswap32` reverses the four bytes, and is its own inverse. -/
def Obligations.ByteSwapReversesBytes : Prop :=
  ∀ x : Word, (∀ k : Fin 4, byteK (bswap32 x) k.val = byteK x (3 - k.val)) ∧ bswap32 (bswap32 x) = x

/-- R240, R242, R243, R247 to R250: the sums, and bit by bit the bitwise operations and the round functions. -/
def Obligations.DatapathBitByBit : Prop :=
  (∀ x y : Word, (add32 x y).toNat = (x.toNat + y.toNat) % 2 ^ 32) ∧
  ∀ (x y z : Word) (k : Fin 32),
    (not32 x).getLsbD k.val = !(x.getLsbD k.val) ∧
    (and32 x y).getLsbD k.val = (x.getLsbD k.val && y.getLsbD k.val) ∧
    (or32 x y).getLsbD k.val = (x.getLsbD k.val || y.getLsbD k.val) ∧
    (xor32 x y).getLsbD k.val = (x.getLsbD k.val != y.getLsbD k.val) ∧
    (f0 x y z).getLsbD k.val = (if x.getLsbD k.val then y.getLsbD k.val else z.getLsbD k.val) ∧
    (f1 x y z).getLsbD k.val = (if z.getLsbD k.val then x.getLsbD k.val else y.getLsbD k.val) ∧
    (f2 x y z).getLsbD k.val = (x.getLsbD k.val != (y.getLsbD k.val != z.getLsbD k.val)) ∧
    (f3 x y z).getLsbD k.val = (y.getLsbD k.val != (x.getLsbD k.val || !(z.getLsbD k.val)))

/-! ## Whole-machine rules -/

/-- R31, R36, R42: the only instructions that can change H, DATA and DOUT. Hardware reset, the other writer, is no
instruction. -/
def Obligations.RegistersAreWrittenOnlyByTheirWriters : Prop :=
  ∀ (i : Instr) (s t : State), exec i s = .next t →
    (t.h ≠ s.h → isAccum i = true ∨ isReset i = true ∨ (s.phase = .idle ∧ ∃ k v, i = .wrH k v)) ∧
    (t.data ≠ s.data → ∃ v, i = .wrData v) ∧
    (t.dout ≠ s.dout → (isAccum i = true ∧ s.fstate = .last) ∨ isReset i = true)

/-- R43: what every instruction does to DVALID, and hardware reset. -/
def Obligations.DvalidLifecycle : Prop :=
  (∀ (s : State) (rest : List Input), s.inputs = .reset :: rest → ∃ t, step s = .next t ∧ t.dvalid = false) ∧
  ∀ (i : Instr) (s t : State), exec i s = .next t →
    t.dvalid = (if isAccum i = true ∧ s.fstate = .last then true
      else if isReset i = true ∨ (isFinalize i = true ∧ s.phase = .idle) then false
      else s.dvalid)

/-- R45: what every instruction does to LOVF: an accepted UPDATE that carries L past 2^64 - 1 sets it, RESET and
hardware reset clear it, nothing else changes it. -/
def Obligations.LovfLifecycle : Prop :=
  (∀ (s : State) (rest : List Input), s.inputs = .reset :: rest → ∃ t, step s = .next t ∧ t.lovf = false) ∧
  ∀ (i : Instr) (s t : State), exec i s = .next t →
    t.lovf = (if isReset i = true then false
      else match updateCount i with
        | some n => s.lovf || (decide (s.phase = .idle) && decide (2 ^ 64 ≤ s.len.toNat + 8 * n))
        | none => s.lovf)

/-- R339: READY falls only by a host transaction, an accepted UPDATE that fills the buffer or an accepted FINALIZE; it
rises only by the engine's ACCUM with `fstate` NONE or LAST, by the RESET command or by hardware reset. -/
def Obligations.ReadyChangesOnlyAsStated : Prop :=
  ∀ s t : State, s.everReset = true → step s = .next t →
    (s.phase = .idle → t.phase ≠ .idle → ∃ v rest, s.inputs = .host 4 0x80 v :: rest ∧
      (v = 0x03 ∨ ∃ k : Fin 5, v = BitVec.ofNat 32 (16 * k.val + 2) ∧ 64 ≤ s.bufLen.toNat + k.val)) ∧
    (s.phase ≠ .idle → t.phase = .idle →
      (s.phase = .accum ∧ s.fstate ≠ .pad2 ∧ (s.inputs = [] ∨ ∃ rest, s.inputs = .engine :: rest)) ∨
      (∃ rest, s.inputs = .host 4 0x80 0x01 :: rest) ∨ ∃ rest, s.inputs = .reset :: rest)

/-- The model's own fields: no instruction changes the transitions to come or the reset mark, and only a read changes
the value the bus returned last (R74, R130). -/
def Obligations.OnlyReadsAnswerTheBus : Prop :=
  ∀ (i : Instr) (s t : State), exec i s = .next t →
    t.inputs = s.inputs ∧ t.everReset = s.everReset ∧
    (t.rdata ≠ s.rdata → readAddress i ≠ none ∨ (∃ hi, i = .rdMisalignedOdd hi) ∨ ∃ slot, i = .rdMisalignedTwo slot)

/-- Every step keeps the legal combinations of register values (R39 to R41, R43, R44, R109, R201), from every state
that has them, reached or not. -/
def Obligations.StepKeepsTheLegalStates : Prop :=
  ∀ s t : State, Inv s → step s = .next t → Inv t

/-- The state after hardware reset is legal, and holds the empty message. -/
def Obligations.ResetStateIsLegal : Prop :=
  Legal State.reset ∧ Inv State.reset ∧ Represents State.reset []

/-! ## Runs of the engine -/

/-- R340: when READY returns, in engine steps: 0 for an UPDATE that does not fill the buffer, 65 for one that does, 65
or 130 for a FINALIZE. Before that READY is 0 after every step. -/
def Obligations.StepsUntilReady : Prop :=
  ∀ (s : State) (i : Instr) (n : Nat) (rest : List Input), s.everReset = true → s.phase = .idle →
    ((∃ k : Fin 5, i = updateOf k ∧ n = if s.bufLen.toNat + k.val < 64 then 0 else 65) ∨
      (i = .finalize ∧ n = if s.bufLen.toNat ≤ 55 then 65 else 130)) →
    ∃ t, exec i s = .next t ∧
      (∀ m, m < n → ∃ u, core.run m (engineTurns n rest t) = .next u ∧ u.phase ≠ .idle) ∧
      ∃ u, core.run n (engineTurns n rest t) = .next u ∧ u.phase = .idle

/-- R341: from every legal state the engine's turns alone bring READY back, in at most 130 of them. -/
def Obligations.EngineAlwaysReturnsToReady : Prop :=
  ∀ (s : State) (rest : List Input), s.everReset = true → Inv s → ∃ n, n ≤ 130 ∧
    ∃ t, core.run n (engineTurns n rest s) = .next t ∧ t.phase = .idle

/-- R212: a latched block taken through its 64 ROUND steps and its ACCUM step leaves `H = Compress(H, M)` for an
ordinary block and for the first padding block of two, after which the second is latched (R210), and `DOUT` the
byte-swapped words of `Compress(H, M)` for the last block of a message; the other registers as R208 to R211 say. -/
def Obligations.EngineRunIsCompress : Prop :=
  ∀ (s : State) (rest : List Input), s.everReset = true → s.phase = .round → s.r = 0 →
    s.a = s.h[0] → s.b = s.h[1] → s.c = s.h[2] → s.d = s.h[3] →
    (s.fstate = .none → ∃ t, core.run 65 (engineTurns 65 rest s) = .next t ∧ t.h = compress s.h s.m ∧
      t = { s with h := t.h, a := t.a, b := t.b, c := t.c, d := t.d, phase := .idle, inputs := rest }) ∧
    (s.fstate = .pad2 → ∃ t, core.run 65 (engineTurns 65 rest s) = .next t ∧ t.h = compress s.h s.m ∧
      (∀ j : Fin 14, t.m[j.val] = 0) ∧
      t.m[14] = BitVec.ofNat 32 s.len.toNat ∧ t.m[15] = BitVec.ofNat 32 (s.len.toNat / 2 ^ 32) ∧
      t = { s with
        h := t.h, m := t.m, a := t.h[0], b := t.h[1], c := t.h[2], d := t.h[3], r := 0, phase := .round,
        fstate := .last, buf := Vector.replicate 16 0, bufLen := 0, inputs := rest }) ∧
    (s.fstate = .last → ∃ t, core.run 65 (engineTurns 65 rest s) = .next t ∧
      t.dout = swapDigest (compress s.h s.m) ∧
      t = { s with
        dout := t.dout, dvalid := true, h := iv, len := 0, buf := Vector.replicate 16 0, bufLen := 0,
        a := t.a, b := t.b, c := t.c, d := t.d, phase := .idle, fstate := .none, inputs := rest })

/-- R167: streaming: from a state that holds the message `msg`, UPDATE with NB = `k` and the engine's steps lead to a
state that holds `msg` followed by the first `k` bytes of DATA, whatever `msg` and however it was split. The 65 turns
are more than an UPDATE that fills no block needs; the engine then has no step. -/
def Obligations.UpdateStreamsTheMessage : Prop :=
  ∀ (s : State) (msg : List Byte) (k : Fin 5) (rest : List Input), s.everReset = true → Represents s msg →
    ∃ t u, exec (updateOf k) s = .next t ∧ core.run 65 (engineTurns 65 rest t) = .next u ∧
      Represents u (msg ++ (List.range k.val).map (wireByte s.data)) ∧
      u.err = s.err ∧ u.ecause = s.ecause ∧ u.data = s.data ∧ u.dout = s.dout ∧ u.dvalid = s.dvalid ∧
      u.inputs = rest

/-- R213: from a state that holds the message `msg`, FINALIZE and the engine's steps leave the MD5 digest of `msg` in
DOUT with DVALID set, and the engine holds the empty message, as freshly reset (R173). -/
def Obligations.FinalizeOutputsTheDigest : Prop :=
  ∀ (s : State) (msg : List Byte) (rest : List Input), s.everReset = true → Represents s msg →
    ∃ t u, exec .finalize s = .next t ∧ core.run 130 (engineTurns 130 rest t) = .next u ∧
      u.dout = md5 msg ∧ u.dvalid = true ∧ Represents u [] ∧
      u.err = s.err ∧ u.ecause = s.ecause ∧ u.lovf = s.lovf ∧ u.data = s.data ∧ u.inputs = rest

/-- R175: HASH, beside the engine, from any state: under a schedule in which the host issues HASH to its end and no
hardware reset falls, DOUT then holds the MD5 digest of the bytes with DVALID set, and ERR = 0; and some such schedule
brings it to its end. The one RESET that may clear ERR in the run is HASH's own first command (R315). That "no ERR" is
concluded of the end of the run, as D34 has it, and is no premise, as R315 and 93 U4 have it, is the model's choice
(log 20): the digest is claimed of every run to the end. A schedule names the agent of each transition, so that each
WAITRDY makes its own number of polls; that programs run under a schedule as an argument is the model's choice
(log 19). -/
def Obligations.HashLeavesTheDigest : Prop :=
  ∀ (bytes : List Byte) (s : State), s.everReset = true →
    (∀ (us : List Assembly.Turn) (t : State), .reset ∉ us →
      Assembly.runProgram us (Assembly.hash bytes) s = .next (t, []) →
        t.dout = md5 bytes ∧ t.dvalid = true ∧ Safe t) ∧
    ∃ (us : List Assembly.Turn) (t : State), .reset ∉ us ∧
      Assembly.runProgram us (Assembly.hash bytes) s = .next (t, [])

/-- R341, R74: aligned reads change no engine state: an interleaving of engine's turns and aligned reads ends as the
engine's turns alone do, but for the value the bus returned last. -/
def Obligations.PollingDoesNotDisturbTheEngine : Prop :=
  ∀ (ins rest : List Input) (s t : State), s.everReset = true → (∀ x ∈ ins, isEngineOrRead x = true) →
    core.run ins.length { s with inputs := ins ++ rest } = .next t →
    ∃ u, core.run (ins.count .engine) (engineTurns (ins.count .engine) rest s) = .next u ∧
      t = { u with rdata := t.rdata }

/-- R155: what an idle engine does next depends on its context and DATA alone: from two states with the same context,
an UPDATE or a FINALIZE gives the same H, L, bufLen, buffered bytes, phase and fstate, and the same block in flight if
there is one. -/
def Obligations.ContextDeterminesTheCommands : Prop :=
  ∀ (s₁ s₂ : State) (i : Instr), SameContext s₁ s₂ → s₁.data = s₂.data →
    ((∃ k, i = updateOf k) ∨ i = .finalize) →
    ∃ t₁ t₂, exec i s₁ = .next t₁ ∧ exec i s₂ = .next t₂ ∧
      t₁.h = t₂.h ∧ t₁.len = t₂.len ∧ t₁.bufLen = t₂.bufLen ∧ t₁.phase = t₂.phase ∧ t₁.fstate = t₂.fstate ∧
      (∀ p : BitVec 6, p.toNat < t₁.bufLen.toNat → byteAt t₁.buf p = byteAt t₂.buf p) ∧
      (t₁.phase ≠ .idle → t₁.m = t₂.m ∧ t₁.a = t₂.a ∧ t₁.b = t₂.b ∧ t₁.c = t₂.c ∧ t₁.d = t₂.d ∧ t₁.r = t₂.r)
end

