-- ==== Sys2Proof/Laws/Alu.lean ====
section
/-! SUPPORT. The datapath primitives in the arithmetic of the library, and the round schedule's bounds. -/

namespace Sys2Proof.Machine

@[simp] theorem add32_eq (x y : Word) : add32 x y = x + y := rfl

/-- R244: within its range ROTL32 is the library's rotation. -/
theorem rotl32_eq_rotateLeft (x : Word) (n : Nat) (h : n < 32) : rotl32 x n = some (x.rotateLeft n) := by
  unfold rotl32 or32
  rcases Nat.eq_zero_or_pos n with rfl | hp
  · simp [BitVec.rotateLeft, BitVec.rotateLeftAux, BitVec.ushiftRight_eq_zero]
  · simp [h, Nat.pos_iff_ne_zero.mp hp, BitVec.rotateLeft, BitVec.rotateLeftAux, Nat.mod_eq_of_lt h]

/-- R244: an amount of 32 or more is refused. -/
theorem rotl32_eq_none (x : Word) (n : Nat) (h : 32 ≤ n) : rotl32 x n = none := by
  unfold rotl32
  rw [if_neg (by omega), if_neg (by omega)]

/-- R244: "the datapath only ever rotates by one of the 16 amounts ..., all in 4..23". -/
theorem shiftAmount_bounds : ∀ i : BitVec 6, 4 ≤ shiftAmount i ∧ shiftAmount i ≤ 23 := by decide

theorem shiftAmount_lt (i : BitVec 6) : shiftAmount i < 32 := by
  have := shiftAmount_bounds i
  omega

/-- The ROM has 64 entries (R271). -/
theorem rom_length : rom.length = 64 := by decide

end Sys2Proof.Machine
end

