-- ==== Sys2Proof/Laws/Decode.lean ====
section
/-! SUPPORT. The command word's fields determine it, the legal words by name, and what a write to CMD can do. -/

namespace Sys2Proof

/-- A command word is its three fields (R102). -/
theorem cmd_split (v : Word) : cmdRsvd v ++ cmdNb v ++ cmdOp v = v := by
  apply BitVec.eq_of_getLsbD_eq
  intro k hk
  simp only [BitVec.getLsbD_append, cmdOp, cmdNb, cmdRsvd, BitVec.getLsbD_extractLsb']
  by_cases h1 : k < 4
  · simp [h1]
  · by_cases h2 : k < 7
    · simp [h1, show k - 4 < 3 by omega, show 4 + (k - 4) = k by omega]
    · simp [h1, show ¬ k - 4 < 3 by omega, show k - 4 - 3 < 25 by omega, show 7 + (k - 4 - 3) = k by omega]

/-- The eight legal words (R105). -/
theorem cmdLegal_cases {v : Word} (h : cmdLegal v = true) :
    v = 0 ∨ v = 1 ∨ v = 3 ∨ ∃ k : Fin 5, v = updateWord k.val := by
  have hr : cmdRsvd v = 0#25 := by
    simp only [cmdLegal, Bool.and_eq_true, beq_iff_eq] at h
    exact h.1
  have hs := cmd_split v
  rw [hr] at hs
  have key : ∀ (nb : BitVec 3) (op : BitVec 4), cmdLegal (0#25 ++ nb ++ op) = true →
      (0#25 ++ nb ++ op) = 0#32 ∨ (0#25 ++ nb ++ op) = 1#32 ∨ (0#25 ++ nb ++ op) = 3#32 ∨
        ∃ k : Fin 5, (0#25 ++ nb ++ op) = updateWord k.val := by decide
  have := key (cmdNb v) (cmdOp v)
  rw [hs] at this
  exact this h

/-! ## Aligned bus transactions -/

theorem ctlOf_bits : ∀ (we : Bool) (slot : BitVec 5),
    (ctlOf we slot)[0] = false ∧ (ctlOf we slot)[1] = false ∧ (ctlOf we slot)[7] = we ∧
      (ctlOf we slot).extractLsb' 2 5 = slot := by decide

/-- An aligned write decodes by its slot (R101). -/
theorem decodeBus_write (slot : BitVec 5) (v : Word) : decodeBus (ctlOf true slot) v = decodeWrite slot v := by
  obtain ⟨h0, h1, h7, hs⟩ := ctlOf_bits true slot
  simp [decodeBus, h0, h1, h7, hs]

/-- An aligned read decodes by its slot (R101). -/
theorem decodeBus_read (slot : BitVec 5) (v : Word) : decodeBus (ctlOf false slot) v = decodeRead slot := by
  obtain ⟨h0, h1, h7, hs⟩ := ctlOf_bits false slot
  simp [decodeBus, h0, h1, h7, hs]

/-- The slots from 8 up are the indexed registers (R71, R101). -/
theorem decodeWrite_indexed (slot : BitVec 5) (v : Word) (h : 8 ≤ slot.toNat) :
    decodeWrite slot v =
      if slot[4] then .wrBuf (slot.extractLsb' 0 4) v
      else if slot[2] then .wrDout (slot.extractLsb' 0 2) v
      else .wrH (slot.extractLsb' 0 2) v := by
  unfold decodeWrite
  split <;> first | omega | rfl

/-- A write with another value: WDATA is only the operand of a write (R100). -/
def withValue (v : Word) : Instr → Instr
  | .wrMisalignedOdd hi _ => .wrMisalignedOdd hi v
  | .wrMisalignedTwo slot _ => .wrMisalignedTwo slot v
  | .wrCmd _ => .wrCmd v
  | .wrData _ => .wrData v
  | .wrStatus _ => .wrStatus v
  | .wrBufLen _ => .wrBufLen v
  | .wrLenLo _ => .wrLenLo v
  | .wrLenHi _ => .wrLenHi v
  | .wrRsvd k _ => .wrRsvd k v
  | .wrH i _ => .wrH i v
  | .wrDout i _ => .wrDout i v
  | .wrBuf j _ => .wrBuf j v
  | i => i

/-- CTL alone chooses the row and its register number; so a fact about every CTL can be decided at one WDATA. -/
theorem decodeBus_withValue (ctl : BitVec 8) (v : Word) : decodeBus ctl v = withValue v (decodeBus ctl 0) := by
  unfold decodeBus decodeWrite decodeRead
  repeat' split
  all_goals rfl

/-- A CTL is the aligned access of some slot, or misaligned (R101). -/
theorem ctl_cases : ∀ ctl : BitVec 8,
    (∃ we slot, ctl = ctlOf we slot) ∨ (∃ we : Bool, ∃ hi : BitVec 6, ctl = BitVec.ofBool we ++ hi ++ 1#1) ∨
      ∃ we : Bool, ∃ slot : BitVec 5, ctl = BitVec.ofBool we ++ slot ++ 2#2 := by decide

end Sys2Proof

namespace Sys2Proof.Machine

/-- What a write of `v` to CMD can do (R160). -/
theorem command_cases (v : Word) (s : State) :
    (cmdLegal v = false ∧ command v s = .next (raiseErr .rsvdCmd s)) ∨
    (v = 0 ∧ command v s = .next s) ∨
    (v = 1 ∧ command v s = .next (resetCmd s)) ∨
    (∃ k : Fin 5, v = updateWord k.val ∧ command v s = .next (whenReady .cmdBusy (update k.val) s)) ∨
    (v = 3 ∧ command v s = .next (whenReady .cmdBusy finalize s)) := by
  cases h : cmdLegal v with
  | false => exact .inl ⟨rfl, by simp [command, h, execReservedCmd]⟩
  | true =>
    rcases cmdLegal_cases h with rfl | rfl | rfl | ⟨k, rfl⟩
    · exact .inr (.inl ⟨rfl, rfl⟩)
    · exact .inr (.inr (.inl ⟨rfl, rfl⟩))
    · exact .inr (.inr (.inr (.inr ⟨rfl, rfl⟩)))
    · refine .inr (.inr (.inr (.inl ⟨k, rfl, ?_⟩)))
      fin_cases k <;> rfl

end Sys2Proof.Machine
end

