-- ==== Sys2Proof/Laws/Bytes.lean ====
section
/-! SUPPORT. The byte positions of the input buffer: a byte read after a write is the byte written, and a write leaves
every other position alone. -/

namespace Sys2Proof.Machine

theorem byteShift_le (p : BitVec 6) : byteShift p ≤ 24 := by
  unfold byteShift
  omega

theorem getLsbD_insertByte (w : Word) (sh : Nat) (x : Byte) (k : Nat) (hk : k < 32) :
    (insertByte w sh x).getLsbD k = if sh ≤ k ∧ k < sh + 8 then x.getLsbD (k - sh) else w.getLsbD k := by
  have h255 : ∀ n, (0xff#32).getLsbD n = decide (n < 8) := by
    intro n
    have e : (0xff#32) = (BitVec.allOnes 8).setWidth 32 := by decide
    rw [e, BitVec.getLsbD_setWidth, BitVec.getLsbD_allOnes]
    by_cases h : n < 8 <;> simp [h]
    omega
  unfold insertByte
  simp only [BitVec.getLsbD_or, BitVec.getLsbD_and, BitVec.getLsbD_not, BitVec.getLsbD_shiftLeft,
    BitVec.getLsbD_setWidth, h255, hk, decide_true, Bool.true_and]
  by_cases h1 : k < sh
  · have : ¬ (sh ≤ k ∧ k < sh + 8) := by omega
    simp [h1, this]
  · by_cases h2 : k - sh < 8
    · have : sh ≤ k ∧ k < sh + 8 := by omega
      have h3 : k - sh < 32 := by omega
      simp [h1, h2, h3, this]
    · have : ¬ (sh ≤ k ∧ k < sh + 8) := by omega
      have h4 : x.getLsbD (k - sh) = false := BitVec.getLsbD_of_ge x _ (by omega)
      simp [h1, h2, h4, this]

/-- Bit `n` of byte position `p` is bit `byteShift p + n` of its word. -/
theorem getLsbD_byteAt (b : Block) (p : BitVec 6) (n : Nat) (hn : n < 8) :
    (byteAt b p).getLsbD n = (byteWord b p).getLsbD (byteShift p + n) := by
  simp [byteAt, hn]

theorem byteWord_setByte (b : Block) (p q : BitVec 6) (x : Byte) :
    byteWord (setByte b p x) q =
      if p.toNat / 4 = q.toNat / 4 then insertByte (byteWord b p) (byteShift p) x else byteWord b q := by
  simp [byteWord, setByte, Vector.getElem_set]

@[simp] theorem byteAt_setByte_self (b : Block) (p : BitVec 6) (x : Byte) : byteAt (setByte b p x) p = x := by
  apply BitVec.eq_of_getLsbD_eq
  intro n hn
  have hs := byteShift_le p
  rw [getLsbD_byteAt _ _ _ hn, byteWord_setByte, if_pos rfl, getLsbD_insertByte _ _ _ _ (by omega),
    if_pos (by omega)]
  congr 1
  omega

theorem byteAt_setByte_ne (b : Block) {p q : BitVec 6} (x : Byte) (h : p ≠ q) :
    byteAt (setByte b p x) q = byteAt b q := by
  apply BitVec.eq_of_getLsbD_eq
  intro n hn
  have hp := byteShift_le p
  have hq := byteShift_le q
  rw [getLsbD_byteAt _ _ _ hn, getLsbD_byteAt _ _ _ hn, byteWord_setByte]
  split
  · rename_i hw
    have hne : p.toNat ≠ q.toNat := fun e => h (BitVec.eq_of_toNat_eq e)
    have hb : byteWord b p = byteWord b q := by simp only [byteWord, hw]
    rw [getLsbD_insertByte _ _ _ _ (by omega), if_neg (by unfold byteShift; omega), hb]
  · rfl

theorem byteAt_setByte (b : Block) (p q : BitVec 6) (x : Byte) :
    byteAt (setByte b p x) q = if p = q then x else byteAt b q := by
  split
  · subst p; simp
  · rename_i h; exact byteAt_setByte_ne b x h

/-- The zero bytes of the padding: `n` positions from `q` up read 0, every other as before (R170, R171). -/
theorem byteAt_zeroBytes (n : Nat) : ∀ (b : Block) (q : Nat) (p : BitVec 6), q + n ≤ 64 →
    byteAt (zeroBytes b q n) p = if q ≤ p.toNat ∧ p.toNat < q + n then 0 else byteAt b p := by
  induction n with
  | zero => intro b q p _; simp [zeroBytes, show ¬ (q ≤ p.toNat ∧ p.toNat < q) by omega]
  | succ n ih =>
    intro b q p h
    rw [zeroBytes, ih _ _ _ (by omega), byteAt_setByte]
    have hq : BitVec.ofNat 6 q = p ↔ q = p.toNat := by
      constructor
      · intro e
        have := congrArg BitVec.toNat e
        simpa [Nat.mod_eq_of_lt (show q < 64 by omega)] using this
      · intro e
        rw [e]; simp
    by_cases h1 : q + 1 ≤ p.toNat ∧ p.toNat < q + 1 + n
    · rw [if_pos h1, if_pos (by omega)]
    · rw [if_neg h1]
      by_cases h2 : q = p.toNat
      · rw [if_pos (hq.mpr h2), if_pos (by omega)]
      · rw [if_neg (fun e => h2 (hq.mp e)), if_neg (by omega)]

@[simp] theorem byteAt_replicate_zero (p : BitVec 6) : byteAt (Vector.replicate 16 0) p = 0 := by
  simp [byteAt, byteWord]

/-- Two blocks with the same bytes are equal. -/
theorem block_ext_bytes {b b' : Block} (h : ∀ p : BitVec 6, byteAt b p = byteAt b' p) : b = b' := by
  apply Vector.ext
  intro j hj
  apply BitVec.eq_of_getLsbD_eq
  intro k hk
  have hp := h (BitVec.ofNat 6 (4 * j + (3 - k / 8)))
  have ht : (BitVec.ofNat 6 (4 * j + (3 - k / 8))).toNat = 4 * j + (3 - k / 8) := by
    simp; omega
  have hbit := congrArg (fun x => x.getLsbD (k % 8)) hp
  simp only [getLsbD_byteAt _ _ _ (Nat.mod_lt k (by omega : 8 > 0)), byteWord, byteShift, ht] at hbit
  have e1 : (4 * j + (3 - k / 8)) / 4 = j := by omega
  have e2 : 24 - 8 * ((4 * j + (3 - k / 8)) % 4) + k % 8 = k := by omega
  simpa only [e1, e2] using hbit

end Sys2Proof.Machine
end

