-- ==== Sys2Proof/Laws/State.lean ====
section
/-! SUPPORT. What each update of the state leaves in each field, one lemma per field, so that no later proof unfolds a
record update. -/

namespace Sys2Proof.Machine

/-! ## respond -/

@[simp] theorem respond_h (v : Word) (s : State) : (respond v s).h = s.h := rfl
@[simp] theorem respond_buf (v : Word) (s : State) : (respond v s).buf = s.buf := rfl
@[simp] theorem respond_bufLen (v : Word) (s : State) : (respond v s).bufLen = s.bufLen := rfl
@[simp] theorem respond_len (v : Word) (s : State) : (respond v s).len = s.len := rfl
@[simp] theorem respond_data (v : Word) (s : State) : (respond v s).data = s.data := rfl
@[simp] theorem respond_m (v : Word) (s : State) : (respond v s).m = s.m := rfl
@[simp] theorem respond_a (v : Word) (s : State) : (respond v s).a = s.a := rfl
@[simp] theorem respond_b (v : Word) (s : State) : (respond v s).b = s.b := rfl
@[simp] theorem respond_c (v : Word) (s : State) : (respond v s).c = s.c := rfl
@[simp] theorem respond_d (v : Word) (s : State) : (respond v s).d = s.d := rfl
@[simp] theorem respond_r (v : Word) (s : State) : (respond v s).r = s.r := rfl
@[simp] theorem respond_phase (v : Word) (s : State) : (respond v s).phase = s.phase := rfl
@[simp] theorem respond_fstate (v : Word) (s : State) : (respond v s).fstate = s.fstate := rfl
@[simp] theorem respond_dout (v : Word) (s : State) : (respond v s).dout = s.dout := rfl
@[simp] theorem respond_dvalid (v : Word) (s : State) : (respond v s).dvalid = s.dvalid := rfl
@[simp] theorem respond_err (v : Word) (s : State) : (respond v s).err = s.err := rfl
@[simp] theorem respond_ecause (v : Word) (s : State) : (respond v s).ecause = s.ecause := rfl
@[simp] theorem respond_lovf (v : Word) (s : State) : (respond v s).lovf = s.lovf := rfl
@[simp] theorem respond_everReset (v : Word) (s : State) : (respond v s).everReset = s.everReset := rfl
@[simp] theorem respond_inputs (v : Word) (s : State) : (respond v s).inputs = s.inputs := rfl
@[simp] theorem respond_rdata (v : Word) (s : State) : (respond v s).rdata = some v := rfl

/-! ## setData -/

@[simp] theorem setData_h (v : Word) (s : State) : (setData v s).h = s.h := rfl
@[simp] theorem setData_buf (v : Word) (s : State) : (setData v s).buf = s.buf := rfl
@[simp] theorem setData_bufLen (v : Word) (s : State) : (setData v s).bufLen = s.bufLen := rfl
@[simp] theorem setData_len (v : Word) (s : State) : (setData v s).len = s.len := rfl
@[simp] theorem setData_data (v : Word) (s : State) : (setData v s).data = v := rfl
@[simp] theorem setData_m (v : Word) (s : State) : (setData v s).m = s.m := rfl
@[simp] theorem setData_a (v : Word) (s : State) : (setData v s).a = s.a := rfl
@[simp] theorem setData_b (v : Word) (s : State) : (setData v s).b = s.b := rfl
@[simp] theorem setData_c (v : Word) (s : State) : (setData v s).c = s.c := rfl
@[simp] theorem setData_d (v : Word) (s : State) : (setData v s).d = s.d := rfl
@[simp] theorem setData_r (v : Word) (s : State) : (setData v s).r = s.r := rfl
@[simp] theorem setData_phase (v : Word) (s : State) : (setData v s).phase = s.phase := rfl
@[simp] theorem setData_fstate (v : Word) (s : State) : (setData v s).fstate = s.fstate := rfl
@[simp] theorem setData_dout (v : Word) (s : State) : (setData v s).dout = s.dout := rfl
@[simp] theorem setData_dvalid (v : Word) (s : State) : (setData v s).dvalid = s.dvalid := rfl
@[simp] theorem setData_err (v : Word) (s : State) : (setData v s).err = s.err := rfl
@[simp] theorem setData_ecause (v : Word) (s : State) : (setData v s).ecause = s.ecause := rfl
@[simp] theorem setData_lovf (v : Word) (s : State) : (setData v s).lovf = s.lovf := rfl
@[simp] theorem setData_everReset (v : Word) (s : State) : (setData v s).everReset = s.everReset := rfl
@[simp] theorem setData_inputs (v : Word) (s : State) : (setData v s).inputs = s.inputs := rfl
@[simp] theorem setData_rdata (v : Word) (s : State) : (setData v s).rdata = s.rdata := rfl

/-! ## setBufLen -/

@[simp] theorem setBufLen_h (v : Word) (s : State) : (setBufLen v s).h = s.h := rfl
@[simp] theorem setBufLen_buf (v : Word) (s : State) : (setBufLen v s).buf = s.buf := rfl
@[simp] theorem setBufLen_bufLen (v : Word) (s : State) : (setBufLen v s).bufLen = v.extractLsb' 0 6 := rfl
@[simp] theorem setBufLen_len (v : Word) (s : State) : (setBufLen v s).len = s.len := rfl
@[simp] theorem setBufLen_data (v : Word) (s : State) : (setBufLen v s).data = s.data := rfl
@[simp] theorem setBufLen_m (v : Word) (s : State) : (setBufLen v s).m = s.m := rfl
@[simp] theorem setBufLen_a (v : Word) (s : State) : (setBufLen v s).a = s.a := rfl
@[simp] theorem setBufLen_b (v : Word) (s : State) : (setBufLen v s).b = s.b := rfl
@[simp] theorem setBufLen_c (v : Word) (s : State) : (setBufLen v s).c = s.c := rfl
@[simp] theorem setBufLen_d (v : Word) (s : State) : (setBufLen v s).d = s.d := rfl
@[simp] theorem setBufLen_r (v : Word) (s : State) : (setBufLen v s).r = s.r := rfl
@[simp] theorem setBufLen_phase (v : Word) (s : State) : (setBufLen v s).phase = s.phase := rfl
@[simp] theorem setBufLen_fstate (v : Word) (s : State) : (setBufLen v s).fstate = s.fstate := rfl
@[simp] theorem setBufLen_dout (v : Word) (s : State) : (setBufLen v s).dout = s.dout := rfl
@[simp] theorem setBufLen_dvalid (v : Word) (s : State) : (setBufLen v s).dvalid = s.dvalid := rfl
@[simp] theorem setBufLen_err (v : Word) (s : State) : (setBufLen v s).err = s.err := rfl
@[simp] theorem setBufLen_ecause (v : Word) (s : State) : (setBufLen v s).ecause = s.ecause := rfl
@[simp] theorem setBufLen_lovf (v : Word) (s : State) : (setBufLen v s).lovf = s.lovf := rfl
@[simp] theorem setBufLen_everReset (v : Word) (s : State) : (setBufLen v s).everReset = s.everReset := rfl
@[simp] theorem setBufLen_inputs (v : Word) (s : State) : (setBufLen v s).inputs = s.inputs := rfl
@[simp] theorem setBufLen_rdata (v : Word) (s : State) : (setBufLen v s).rdata = s.rdata := rfl

/-! ## setLenLo -/

@[simp] theorem setLenLo_h (v : Word) (s : State) : (setLenLo v s).h = s.h := rfl
@[simp] theorem setLenLo_buf (v : Word) (s : State) : (setLenLo v s).buf = s.buf := rfl
@[simp] theorem setLenLo_bufLen (v : Word) (s : State) : (setLenLo v s).bufLen = s.bufLen := rfl
@[simp] theorem setLenLo_len (v : Word) (s : State) : (setLenLo v s).len = lenHi s.len ++ v := rfl
@[simp] theorem setLenLo_data (v : Word) (s : State) : (setLenLo v s).data = s.data := rfl
@[simp] theorem setLenLo_m (v : Word) (s : State) : (setLenLo v s).m = s.m := rfl
@[simp] theorem setLenLo_a (v : Word) (s : State) : (setLenLo v s).a = s.a := rfl
@[simp] theorem setLenLo_b (v : Word) (s : State) : (setLenLo v s).b = s.b := rfl
@[simp] theorem setLenLo_c (v : Word) (s : State) : (setLenLo v s).c = s.c := rfl
@[simp] theorem setLenLo_d (v : Word) (s : State) : (setLenLo v s).d = s.d := rfl
@[simp] theorem setLenLo_r (v : Word) (s : State) : (setLenLo v s).r = s.r := rfl
@[simp] theorem setLenLo_phase (v : Word) (s : State) : (setLenLo v s).phase = s.phase := rfl
@[simp] theorem setLenLo_fstate (v : Word) (s : State) : (setLenLo v s).fstate = s.fstate := rfl
@[simp] theorem setLenLo_dout (v : Word) (s : State) : (setLenLo v s).dout = s.dout := rfl
@[simp] theorem setLenLo_dvalid (v : Word) (s : State) : (setLenLo v s).dvalid = s.dvalid := rfl
@[simp] theorem setLenLo_err (v : Word) (s : State) : (setLenLo v s).err = s.err := rfl
@[simp] theorem setLenLo_ecause (v : Word) (s : State) : (setLenLo v s).ecause = s.ecause := rfl
@[simp] theorem setLenLo_lovf (v : Word) (s : State) : (setLenLo v s).lovf = s.lovf := rfl
@[simp] theorem setLenLo_everReset (v : Word) (s : State) : (setLenLo v s).everReset = s.everReset := rfl
@[simp] theorem setLenLo_inputs (v : Word) (s : State) : (setLenLo v s).inputs = s.inputs := rfl
@[simp] theorem setLenLo_rdata (v : Word) (s : State) : (setLenLo v s).rdata = s.rdata := rfl

/-! ## setLenHi -/

@[simp] theorem setLenHi_h (v : Word) (s : State) : (setLenHi v s).h = s.h := rfl
@[simp] theorem setLenHi_buf (v : Word) (s : State) : (setLenHi v s).buf = s.buf := rfl
@[simp] theorem setLenHi_bufLen (v : Word) (s : State) : (setLenHi v s).bufLen = s.bufLen := rfl
@[simp] theorem setLenHi_len (v : Word) (s : State) : (setLenHi v s).len = v ++ lenLo s.len := rfl
@[simp] theorem setLenHi_data (v : Word) (s : State) : (setLenHi v s).data = s.data := rfl
@[simp] theorem setLenHi_m (v : Word) (s : State) : (setLenHi v s).m = s.m := rfl
@[simp] theorem setLenHi_a (v : Word) (s : State) : (setLenHi v s).a = s.a := rfl
@[simp] theorem setLenHi_b (v : Word) (s : State) : (setLenHi v s).b = s.b := rfl
@[simp] theorem setLenHi_c (v : Word) (s : State) : (setLenHi v s).c = s.c := rfl
@[simp] theorem setLenHi_d (v : Word) (s : State) : (setLenHi v s).d = s.d := rfl
@[simp] theorem setLenHi_r (v : Word) (s : State) : (setLenHi v s).r = s.r := rfl
@[simp] theorem setLenHi_phase (v : Word) (s : State) : (setLenHi v s).phase = s.phase := rfl
@[simp] theorem setLenHi_fstate (v : Word) (s : State) : (setLenHi v s).fstate = s.fstate := rfl
@[simp] theorem setLenHi_dout (v : Word) (s : State) : (setLenHi v s).dout = s.dout := rfl
@[simp] theorem setLenHi_dvalid (v : Word) (s : State) : (setLenHi v s).dvalid = s.dvalid := rfl
@[simp] theorem setLenHi_err (v : Word) (s : State) : (setLenHi v s).err = s.err := rfl
@[simp] theorem setLenHi_ecause (v : Word) (s : State) : (setLenHi v s).ecause = s.ecause := rfl
@[simp] theorem setLenHi_lovf (v : Word) (s : State) : (setLenHi v s).lovf = s.lovf := rfl
@[simp] theorem setLenHi_everReset (v : Word) (s : State) : (setLenHi v s).everReset = s.everReset := rfl
@[simp] theorem setLenHi_inputs (v : Word) (s : State) : (setLenHi v s).inputs = s.inputs := rfl
@[simp] theorem setLenHi_rdata (v : Word) (s : State) : (setLenHi v s).rdata = s.rdata := rfl

/-! ## setH -/

@[simp] theorem setH_h (i : BitVec 2) (v : Word) (s : State) : (setH i v s).h = setDigestWord s.h i v := rfl
@[simp] theorem setH_buf (i : BitVec 2) (v : Word) (s : State) : (setH i v s).buf = s.buf := rfl
@[simp] theorem setH_bufLen (i : BitVec 2) (v : Word) (s : State) : (setH i v s).bufLen = s.bufLen := rfl
@[simp] theorem setH_len (i : BitVec 2) (v : Word) (s : State) : (setH i v s).len = s.len := rfl
@[simp] theorem setH_data (i : BitVec 2) (v : Word) (s : State) : (setH i v s).data = s.data := rfl
@[simp] theorem setH_m (i : BitVec 2) (v : Word) (s : State) : (setH i v s).m = s.m := rfl
@[simp] theorem setH_a (i : BitVec 2) (v : Word) (s : State) : (setH i v s).a = s.a := rfl
@[simp] theorem setH_b (i : BitVec 2) (v : Word) (s : State) : (setH i v s).b = s.b := rfl
@[simp] theorem setH_c (i : BitVec 2) (v : Word) (s : State) : (setH i v s).c = s.c := rfl
@[simp] theorem setH_d (i : BitVec 2) (v : Word) (s : State) : (setH i v s).d = s.d := rfl
@[simp] theorem setH_r (i : BitVec 2) (v : Word) (s : State) : (setH i v s).r = s.r := rfl
@[simp] theorem setH_phase (i : BitVec 2) (v : Word) (s : State) : (setH i v s).phase = s.phase := rfl
@[simp] theorem setH_fstate (i : BitVec 2) (v : Word) (s : State) : (setH i v s).fstate = s.fstate := rfl
@[simp] theorem setH_dout (i : BitVec 2) (v : Word) (s : State) : (setH i v s).dout = s.dout := rfl
@[simp] theorem setH_dvalid (i : BitVec 2) (v : Word) (s : State) : (setH i v s).dvalid = s.dvalid := rfl
@[simp] theorem setH_err (i : BitVec 2) (v : Word) (s : State) : (setH i v s).err = s.err := rfl
@[simp] theorem setH_ecause (i : BitVec 2) (v : Word) (s : State) : (setH i v s).ecause = s.ecause := rfl
@[simp] theorem setH_lovf (i : BitVec 2) (v : Word) (s : State) : (setH i v s).lovf = s.lovf := rfl
@[simp] theorem setH_everReset (i : BitVec 2) (v : Word) (s : State) : (setH i v s).everReset = s.everReset := rfl
@[simp] theorem setH_inputs (i : BitVec 2) (v : Word) (s : State) : (setH i v s).inputs = s.inputs := rfl
@[simp] theorem setH_rdata (i : BitVec 2) (v : Word) (s : State) : (setH i v s).rdata = s.rdata := rfl

/-! ## setBuf -/

@[simp] theorem setBuf_h (j : BitVec 4) (v : Word) (s : State) : (setBuf j v s).h = s.h := rfl
@[simp] theorem setBuf_buf (j : BitVec 4) (v : Word) (s : State) : (setBuf j v s).buf = setBlockWord s.buf j v := rfl
@[simp] theorem setBuf_bufLen (j : BitVec 4) (v : Word) (s : State) : (setBuf j v s).bufLen = s.bufLen := rfl
@[simp] theorem setBuf_len (j : BitVec 4) (v : Word) (s : State) : (setBuf j v s).len = s.len := rfl
@[simp] theorem setBuf_data (j : BitVec 4) (v : Word) (s : State) : (setBuf j v s).data = s.data := rfl
@[simp] theorem setBuf_m (j : BitVec 4) (v : Word) (s : State) : (setBuf j v s).m = s.m := rfl
@[simp] theorem setBuf_a (j : BitVec 4) (v : Word) (s : State) : (setBuf j v s).a = s.a := rfl
@[simp] theorem setBuf_b (j : BitVec 4) (v : Word) (s : State) : (setBuf j v s).b = s.b := rfl
@[simp] theorem setBuf_c (j : BitVec 4) (v : Word) (s : State) : (setBuf j v s).c = s.c := rfl
@[simp] theorem setBuf_d (j : BitVec 4) (v : Word) (s : State) : (setBuf j v s).d = s.d := rfl
@[simp] theorem setBuf_r (j : BitVec 4) (v : Word) (s : State) : (setBuf j v s).r = s.r := rfl
@[simp] theorem setBuf_phase (j : BitVec 4) (v : Word) (s : State) : (setBuf j v s).phase = s.phase := rfl
@[simp] theorem setBuf_fstate (j : BitVec 4) (v : Word) (s : State) : (setBuf j v s).fstate = s.fstate := rfl
@[simp] theorem setBuf_dout (j : BitVec 4) (v : Word) (s : State) : (setBuf j v s).dout = s.dout := rfl
@[simp] theorem setBuf_dvalid (j : BitVec 4) (v : Word) (s : State) : (setBuf j v s).dvalid = s.dvalid := rfl
@[simp] theorem setBuf_err (j : BitVec 4) (v : Word) (s : State) : (setBuf j v s).err = s.err := rfl
@[simp] theorem setBuf_ecause (j : BitVec 4) (v : Word) (s : State) : (setBuf j v s).ecause = s.ecause := rfl
@[simp] theorem setBuf_lovf (j : BitVec 4) (v : Word) (s : State) : (setBuf j v s).lovf = s.lovf := rfl
@[simp] theorem setBuf_everReset (j : BitVec 4) (v : Word) (s : State) : (setBuf j v s).everReset = s.everReset := rfl
@[simp] theorem setBuf_inputs (j : BitVec 4) (v : Word) (s : State) : (setBuf j v s).inputs = s.inputs := rfl
@[simp] theorem setBuf_rdata (j : BitVec 4) (v : Word) (s : State) : (setBuf j v s).rdata = s.rdata := rfl

/-! ## setFState -/

@[simp] theorem setFState_h (f : FState) (s : State) : (setFState f s).h = s.h := rfl
@[simp] theorem setFState_buf (f : FState) (s : State) : (setFState f s).buf = s.buf := rfl
@[simp] theorem setFState_bufLen (f : FState) (s : State) : (setFState f s).bufLen = s.bufLen := rfl
@[simp] theorem setFState_len (f : FState) (s : State) : (setFState f s).len = s.len := rfl
@[simp] theorem setFState_data (f : FState) (s : State) : (setFState f s).data = s.data := rfl
@[simp] theorem setFState_m (f : FState) (s : State) : (setFState f s).m = s.m := rfl
@[simp] theorem setFState_a (f : FState) (s : State) : (setFState f s).a = s.a := rfl
@[simp] theorem setFState_b (f : FState) (s : State) : (setFState f s).b = s.b := rfl
@[simp] theorem setFState_c (f : FState) (s : State) : (setFState f s).c = s.c := rfl
@[simp] theorem setFState_d (f : FState) (s : State) : (setFState f s).d = s.d := rfl
@[simp] theorem setFState_r (f : FState) (s : State) : (setFState f s).r = s.r := rfl
@[simp] theorem setFState_phase (f : FState) (s : State) : (setFState f s).phase = s.phase := rfl
@[simp] theorem setFState_fstate (f : FState) (s : State) : (setFState f s).fstate = f := rfl
@[simp] theorem setFState_dout (f : FState) (s : State) : (setFState f s).dout = s.dout := rfl
@[simp] theorem setFState_dvalid (f : FState) (s : State) : (setFState f s).dvalid = s.dvalid := rfl
@[simp] theorem setFState_err (f : FState) (s : State) : (setFState f s).err = s.err := rfl
@[simp] theorem setFState_ecause (f : FState) (s : State) : (setFState f s).ecause = s.ecause := rfl
@[simp] theorem setFState_lovf (f : FState) (s : State) : (setFState f s).lovf = s.lovf := rfl
@[simp] theorem setFState_everReset (f : FState) (s : State) : (setFState f s).everReset = s.everReset := rfl
@[simp] theorem setFState_inputs (f : FState) (s : State) : (setFState f s).inputs = s.inputs := rfl
@[simp] theorem setFState_rdata (f : FState) (s : State) : (setFState f s).rdata = s.rdata := rfl

/-! ## latch -/

@[simp] theorem latch_h (final : Bool) (s : State) : (latch final s).h = s.h := rfl
@[simp] theorem latch_buf (final : Bool) (s : State) : (latch final s).buf = Vector.replicate 16 0 := rfl
@[simp] theorem latch_bufLen (final : Bool) (s : State) : (latch final s).bufLen = 0 := rfl
@[simp] theorem latch_len (final : Bool) (s : State) : (latch final s).len = s.len := rfl
@[simp] theorem latch_data (final : Bool) (s : State) : (latch final s).data = s.data := rfl
@[simp] theorem latch_m (final : Bool) (s : State) : (latch final s).m = latchWords final s.buf := rfl
@[simp] theorem latch_a (final : Bool) (s : State) : (latch final s).a = s.h[0] := rfl
@[simp] theorem latch_b (final : Bool) (s : State) : (latch final s).b = s.h[1] := rfl
@[simp] theorem latch_c (final : Bool) (s : State) : (latch final s).c = s.h[2] := rfl
@[simp] theorem latch_d (final : Bool) (s : State) : (latch final s).d = s.h[3] := rfl
@[simp] theorem latch_r (final : Bool) (s : State) : (latch final s).r = 0 := rfl
@[simp] theorem latch_phase (final : Bool) (s : State) : (latch final s).phase = .round := rfl
@[simp] theorem latch_fstate (final : Bool) (s : State) : (latch final s).fstate = s.fstate := rfl
@[simp] theorem latch_dout (final : Bool) (s : State) : (latch final s).dout = s.dout := rfl
@[simp] theorem latch_dvalid (final : Bool) (s : State) : (latch final s).dvalid = s.dvalid := rfl
@[simp] theorem latch_err (final : Bool) (s : State) : (latch final s).err = s.err := rfl
@[simp] theorem latch_ecause (final : Bool) (s : State) : (latch final s).ecause = s.ecause := rfl
@[simp] theorem latch_lovf (final : Bool) (s : State) : (latch final s).lovf = s.lovf := rfl
@[simp] theorem latch_everReset (final : Bool) (s : State) : (latch final s).everReset = s.everReset := rfl
@[simp] theorem latch_inputs (final : Bool) (s : State) : (latch final s).inputs = s.inputs := rfl
@[simp] theorem latch_rdata (final : Bool) (s : State) : (latch final s).rdata = s.rdata := rfl

/-! ## rotateWork -/

@[simp] theorem rotateWork_h (x : Word) (s : State) : (rotateWork x s).h = s.h := rfl
@[simp] theorem rotateWork_buf (x : Word) (s : State) : (rotateWork x s).buf = s.buf := rfl
@[simp] theorem rotateWork_bufLen (x : Word) (s : State) : (rotateWork x s).bufLen = s.bufLen := rfl
@[simp] theorem rotateWork_len (x : Word) (s : State) : (rotateWork x s).len = s.len := rfl
@[simp] theorem rotateWork_data (x : Word) (s : State) : (rotateWork x s).data = s.data := rfl
@[simp] theorem rotateWork_m (x : Word) (s : State) : (rotateWork x s).m = s.m := rfl
@[simp] theorem rotateWork_a (x : Word) (s : State) : (rotateWork x s).a = s.d := rfl
@[simp] theorem rotateWork_b (x : Word) (s : State) : (rotateWork x s).b = add32 s.b x := rfl
@[simp] theorem rotateWork_c (x : Word) (s : State) : (rotateWork x s).c = s.b := rfl
@[simp] theorem rotateWork_d (x : Word) (s : State) : (rotateWork x s).d = s.c := rfl
@[simp] theorem rotateWork_r (x : Word) (s : State) : (rotateWork x s).r = s.r := rfl
@[simp] theorem rotateWork_phase (x : Word) (s : State) : (rotateWork x s).phase = s.phase := rfl
@[simp] theorem rotateWork_fstate (x : Word) (s : State) : (rotateWork x s).fstate = s.fstate := rfl
@[simp] theorem rotateWork_dout (x : Word) (s : State) : (rotateWork x s).dout = s.dout := rfl
@[simp] theorem rotateWork_dvalid (x : Word) (s : State) : (rotateWork x s).dvalid = s.dvalid := rfl
@[simp] theorem rotateWork_err (x : Word) (s : State) : (rotateWork x s).err = s.err := rfl
@[simp] theorem rotateWork_ecause (x : Word) (s : State) : (rotateWork x s).ecause = s.ecause := rfl
@[simp] theorem rotateWork_lovf (x : Word) (s : State) : (rotateWork x s).lovf = s.lovf := rfl
@[simp] theorem rotateWork_everReset (x : Word) (s : State) : (rotateWork x s).everReset = s.everReset := rfl
@[simp] theorem rotateWork_inputs (x : Word) (s : State) : (rotateWork x s).inputs = s.inputs := rfl
@[simp] theorem rotateWork_rdata (x : Word) (s : State) : (rotateWork x s).rdata = s.rdata := rfl

/-! ## complete -/

@[simp] theorem complete_h (s : State) : (complete s).h = iv := rfl
@[simp] theorem complete_buf (s : State) : (complete s).buf = Vector.replicate 16 0 := rfl
@[simp] theorem complete_bufLen (s : State) : (complete s).bufLen = 0 := rfl
@[simp] theorem complete_len (s : State) : (complete s).len = 0 := rfl
@[simp] theorem complete_data (s : State) : (complete s).data = s.data := rfl
@[simp] theorem complete_m (s : State) : (complete s).m = s.m := rfl
@[simp] theorem complete_a (s : State) : (complete s).a = s.a := rfl
@[simp] theorem complete_b (s : State) : (complete s).b = s.b := rfl
@[simp] theorem complete_c (s : State) : (complete s).c = s.c := rfl
@[simp] theorem complete_d (s : State) : (complete s).d = s.d := rfl
@[simp] theorem complete_r (s : State) : (complete s).r = s.r := rfl
@[simp] theorem complete_phase (s : State) : (complete s).phase = .idle := rfl
@[simp] theorem complete_fstate (s : State) : (complete s).fstate = .none := rfl
@[simp] theorem complete_dout (s : State) : (complete s).dout = swapDigest s.h := rfl
@[simp] theorem complete_dvalid (s : State) : (complete s).dvalid = true := rfl
@[simp] theorem complete_err (s : State) : (complete s).err = s.err := rfl
@[simp] theorem complete_ecause (s : State) : (complete s).ecause = s.ecause := rfl
@[simp] theorem complete_lovf (s : State) : (complete s).lovf = s.lovf := rfl
@[simp] theorem complete_everReset (s : State) : (complete s).everReset = s.everReset := rfl
@[simp] theorem complete_inputs (s : State) : (complete s).inputs = s.inputs := rfl
@[simp] theorem complete_rdata (s : State) : (complete s).rdata = s.rdata := rfl

/-! ## resetCmd -/

@[simp] theorem resetCmd_h (s : State) : (resetCmd s).h = iv := rfl
@[simp] theorem resetCmd_buf (s : State) : (resetCmd s).buf = Vector.replicate 16 0 := rfl
@[simp] theorem resetCmd_bufLen (s : State) : (resetCmd s).bufLen = 0 := rfl
@[simp] theorem resetCmd_len (s : State) : (resetCmd s).len = 0 := rfl
@[simp] theorem resetCmd_data (s : State) : (resetCmd s).data = s.data := rfl
@[simp] theorem resetCmd_m (s : State) : (resetCmd s).m = Vector.replicate 16 0 := rfl
@[simp] theorem resetCmd_a (s : State) : (resetCmd s).a = 0 := rfl
@[simp] theorem resetCmd_b (s : State) : (resetCmd s).b = 0 := rfl
@[simp] theorem resetCmd_c (s : State) : (resetCmd s).c = 0 := rfl
@[simp] theorem resetCmd_d (s : State) : (resetCmd s).d = 0 := rfl
@[simp] theorem resetCmd_r (s : State) : (resetCmd s).r = 0 := rfl
@[simp] theorem resetCmd_phase (s : State) : (resetCmd s).phase = .idle := rfl
@[simp] theorem resetCmd_fstate (s : State) : (resetCmd s).fstate = .none := rfl
@[simp] theorem resetCmd_dout (s : State) : (resetCmd s).dout = Vector.replicate 4 0 := rfl
@[simp] theorem resetCmd_dvalid (s : State) : (resetCmd s).dvalid = false := rfl
@[simp] theorem resetCmd_err (s : State) : (resetCmd s).err = false := rfl
@[simp] theorem resetCmd_ecause (s : State) : (resetCmd s).ecause = .none := rfl
@[simp] theorem resetCmd_lovf (s : State) : (resetCmd s).lovf = false := rfl
@[simp] theorem resetCmd_everReset (s : State) : (resetCmd s).everReset = s.everReset := rfl
@[simp] theorem resetCmd_inputs (s : State) : (resetCmd s).inputs = s.inputs := rfl
@[simp] theorem resetCmd_rdata (s : State) : (resetCmd s).rdata = s.rdata := rfl

/-! ## raiseErr -/

@[simp] theorem raiseErr_h (c : Cause) (s : State) : (raiseErr c s).h = s.h := by
  unfold raiseErr; split <;> rfl
@[simp] theorem raiseErr_buf (c : Cause) (s : State) : (raiseErr c s).buf = s.buf := by
  unfold raiseErr; split <;> rfl
@[simp] theorem raiseErr_bufLen (c : Cause) (s : State) : (raiseErr c s).bufLen = s.bufLen := by
  unfold raiseErr; split <;> rfl
@[simp] theorem raiseErr_len (c : Cause) (s : State) : (raiseErr c s).len = s.len := by
  unfold raiseErr; split <;> rfl
@[simp] theorem raiseErr_data (c : Cause) (s : State) : (raiseErr c s).data = s.data := by
  unfold raiseErr; split <;> rfl
@[simp] theorem raiseErr_m (c : Cause) (s : State) : (raiseErr c s).m = s.m := by
  unfold raiseErr; split <;> rfl
@[simp] theorem raiseErr_a (c : Cause) (s : State) : (raiseErr c s).a = s.a := by
  unfold raiseErr; split <;> rfl
@[simp] theorem raiseErr_b (c : Cause) (s : State) : (raiseErr c s).b = s.b := by
  unfold raiseErr; split <;> rfl
@[simp] theorem raiseErr_c (c : Cause) (s : State) : (raiseErr c s).c = s.c := by
  unfold raiseErr; split <;> rfl
@[simp] theorem raiseErr_d (c : Cause) (s : State) : (raiseErr c s).d = s.d := by
  unfold raiseErr; split <;> rfl
@[simp] theorem raiseErr_r (c : Cause) (s : State) : (raiseErr c s).r = s.r := by
  unfold raiseErr; split <;> rfl
@[simp] theorem raiseErr_phase (c : Cause) (s : State) : (raiseErr c s).phase = s.phase := by
  unfold raiseErr; split <;> rfl
@[simp] theorem raiseErr_fstate (c : Cause) (s : State) : (raiseErr c s).fstate = s.fstate := by
  unfold raiseErr; split <;> rfl
@[simp] theorem raiseErr_dout (c : Cause) (s : State) : (raiseErr c s).dout = s.dout := by
  unfold raiseErr; split <;> rfl
@[simp] theorem raiseErr_dvalid (c : Cause) (s : State) : (raiseErr c s).dvalid = s.dvalid := by
  unfold raiseErr; split <;> rfl
@[simp] theorem raiseErr_err (c : Cause) (s : State) : (raiseErr c s).err = true := by
  unfold raiseErr; split <;> simp_all
@[simp] theorem raiseErr_ecause (c : Cause) (s : State) :
    (raiseErr c s).ecause = if s.err then s.ecause else c := by
  unfold raiseErr; split <;> rfl
@[simp] theorem raiseErr_lovf (c : Cause) (s : State) : (raiseErr c s).lovf = s.lovf := by
  unfold raiseErr; split <;> rfl
@[simp] theorem raiseErr_everReset (c : Cause) (s : State) : (raiseErr c s).everReset = s.everReset := by
  unfold raiseErr; split <;> rfl
@[simp] theorem raiseErr_inputs (c : Cause) (s : State) : (raiseErr c s).inputs = s.inputs := by
  unfold raiseErr; split <;> rfl
@[simp] theorem raiseErr_rdata (c : Cause) (s : State) : (raiseErr c s).rdata = s.rdata := by
  unfold raiseErr; split <;> rfl

end Sys2Proof.Machine
end

