-- ==== Sys2Proof/Laws/Ops.lean ====
section
/-! SUPPORT. One lemma per shared operation that says everything it does: the guards, the appended bytes, the latch,
the padding. Later proofs cite these and unfold nothing. -/

namespace Sys2Proof.Machine

/-! ## Errors and guards -/

/-- `raise ERR(c)` sets ERR and keeps the first cause (R302). -/
theorem raiseErr_eq (c : Cause) (s : State) :
    raiseErr c s = { s with err := true, ecause := if s.err then s.ecause else c } := by
  unfold raiseErr
  split
  · rename_i h
    obtain ⟨⟩ := s
    simp_all
  · rfl

theorem ready_iff (s : State) : ready s = true ↔ s.phase = .idle := by simp [ready]

/-- With READY = 1 a guarded transaction is its operation. -/
theorem whenReady_idle {c : Cause} {op : State → State} {s : State} (h : s.phase = .idle) :
    whenReady c op s = op s := by simp [whenReady, ready, h]

/-- With READY = 0 it raises its cause and is dropped. -/
theorem whenReady_busy {c : Cause} {op : State → State} {s : State} (h : s.phase ≠ .idle) :
    whenReady c op s = raiseErr c s := by simp [whenReady, ready, h]

/-- What a guarded transaction can do. -/
theorem whenReady_cases (c : Cause) (op : State → State) (s : State) :
    (s.phase = .idle ∧ whenReady c op s = op s) ∨ (s.phase ≠ .idle ∧ whenReady c op s = raiseErr c s) := by
  by_cases h : s.phase = .idle
  · exact .inl ⟨h, whenReady_idle h⟩
  · exact .inr ⟨h, whenReady_busy h⟩

/-! ## STATUS and the length registers -/

theorem toNat_append {m n : Nat} (x : BitVec m) (y : BitVec n) : (x ++ y).toNat = x.toNat * 2 ^ n + y.toNat := by
  rw [BitVec.toNat_append, Nat.shiftLeft_eq, Nat.mul_comm, Nat.two_pow_add_eq_or_of_lt y.isLt]

/-- R46 as a sum. -/
theorem status_toNat (s : State) : (status s).toNat =
    s.ecause.code.toNat * 2 ^ 16 + s.bufLen.toNat * 2 ^ 8 + s.lovf.toNat * 8 + s.err.toNat * 4 + s.dvalid.toNat * 2 +
      (ready s).toNat := by
  have h1 := s.ecause.code.isLt
  have h2 := s.bufLen.isLt
  have hb (b : Bool) : b.toNat < 2 := by cases b <;> decide
  have h3 := hb s.lovf
  have h4 := hb s.err
  have h5 := hb s.dvalid
  have h6 := hb (ready s)
  simp only [status, BitVec.toNat_setWidth, toNat_append, BitVec.toNat_ofBool, BitVec.toNat_ofNat]
  omega

theorem lenLo_toNat (l : BitVec 64) : (lenLo l).toNat = l.toNat % 2 ^ 32 := by
  simp [lenLo, BitVec.extractLsb'_toNat]

theorem lenHi_toNat (l : BitVec 64) : (lenHi l).toNat = l.toNat / 2 ^ 32 := by
  have := l.isLt
  simp only [lenHi, BitVec.extractLsb'_toNat, Nat.shiftRight_eq_div_pow]
  omega

/-- R147 on naturals. -/
theorem setLenLo_len_toNat (v : Word) (s : State) :
    (setLenLo v s).len.toNat = s.len.toNat / 2 ^ 32 * 2 ^ 32 + v.toNat := by
  rw [setLenLo_len, toNat_append, lenHi_toNat]

/-- R148 on naturals. -/
theorem setLenHi_len_toNat (v : Word) (s : State) :
    (setLenHi v s).len.toNat = v.toNat * 2 ^ 32 + s.len.toNat % 2 ^ 32 := by
  rw [setLenHi_len, toNat_append, lenLo_toNat]

/-! ## The length counter -/

/-- R166 on naturals. -/
theorem countBits_len_toNat (nb : Nat) (s : State) :
    (countBits nb s).len.toNat = (s.len.toNat + 8 * nb) % 2 ^ 64 := by
  have := s.len.isLt
  simp only [countBits, BitVec.toNat_setWidth, BitVec.toNat_add, BitVec.toNat_ofNat]
  omega

theorem countBits_lovf (nb : Nat) (h : nb ≤ 4) (s : State) :
    (countBits nb s).lovf = (s.lovf || decide (2 ^ 64 ≤ s.len.toNat + 8 * nb)) := by
  have hl := s.len.isLt
  have e : (s.len.setWidth 65 + BitVec.ofNat 65 (8 * nb)).toNat = s.len.toNat + 8 * nb := by
    simp only [BitVec.toNat_setWidth, BitVec.toNat_add, BitVec.toNat_ofNat]
    omega
  have hb : (s.len.setWidth 65 + BitVec.ofNat 65 (8 * nb))[64] = decide (2 ^ 64 ≤ s.len.toNat + 8 * nb) := by
    rw [← BitVec.getLsbD_eq_getElem, BitVec.getLsbD, e, Nat.testBit_eq_decide_div_mod_eq]
    congr 1
    apply propext
    omega
  simp only [countBits, hb]

/-- `CountBits` writes L and LOVF only. -/
theorem countBits_frame (nb : Nat) (s : State) :
    countBits nb s = { s with len := (countBits nb s).len, lovf := (countBits nb s).lovf } := rfl

/-! ## The block latch -/

/-- A word swapped at the latch is the little-endian word of its four bytes (R77). -/
theorem bswap32_word (b : Block) (j : Nat) (hj : j < 16) :
    bswap32 b[j] = wordLE (byteAt b (BitVec.ofNat 6 (4 * j))) (byteAt b (BitVec.ofNat 6 (4 * j + 1)))
      (byteAt b (BitVec.ofNat 6 (4 * j + 2))) (byteAt b (BitVec.ofNat 6 (4 * j + 3))) := by
  have h (k : Nat) (hk : k < 4) : byteAt b (BitVec.ofNat 6 (4 * j + k)) = (b[j]).extractLsb' (24 - 8 * k) 8 := by
    have ht : (BitVec.ofNat 6 (4 * j + k)).toNat = 4 * j + k := by simp; omega
    have e1 : (4 * j + k) / 4 = j := by omega
    have e2 : (4 * j + k) % 4 = k := by omega
    simp only [byteAt, byteWord, byteShift, ht, e1, e2]
  have h0 := h 0 (by omega)
  rw [Nat.add_zero] at h0
  rw [h0, h 1 (by omega), h 2 (by omega), h 3 (by omega)]
  rfl

/-- R200: the words of a latched block. -/
theorem latchWords_getElem (final : Bool) (b : Block) (j : Nat) (hj : j < 16) :
    (latchWords final b)[j] = if final = true ∧ 14 ≤ j then b[j] else bswap32 b[j] := by
  simp [latchWords]

/-! ## UPDATE -/

@[simp] theorem dataBytes_length (w : Word) (n : Nat) : (dataBytes w n).length = n := by simp [dataBytes]

theorem dataBytes_getD (w : Word) (n k : Nat) (h : k < n) : (dataBytes w n).getD k 0 = dataByte w k := by
  simp [dataBytes, h]

theorem appendByte_within {s : State} {x : Byte} (h : s.bufLen.toNat + 1 < 64) :
    appendByte s x = { s with buf := setByte s.buf s.bufLen x, bufLen := s.bufLen + 1 } := by
  simp [appendByte, show s.bufLen.toNat + 1 ≠ 64 by omega]

theorem appendByte_full {s : State} {x : Byte} (h : s.bufLen.toNat = 63) :
    appendByte s x = blockFull { s with buf := setByte s.buf s.bufLen x } := by
  simp [appendByte, h]

/-- Bytes that do not fill the buffer stand at the positions from `bufLen` up, and nothing else changes (R164). -/
theorem foldl_appendByte_within (xs : List Byte) : ∀ s : State, s.bufLen.toNat + xs.length < 64 →
    ∃ b, xs.foldl appendByte s = { s with buf := b, bufLen := BitVec.ofNat 6 (s.bufLen.toNat + xs.length) } ∧
      ∀ p : BitVec 6, byteAt b p =
        if s.bufLen.toNat ≤ p.toNat ∧ p.toNat < s.bufLen.toNat + xs.length then xs.getD (p.toNat - s.bufLen.toNat) 0
        else byteAt s.buf p := by
  induction xs with
  | nil =>
    intro s _
    refine ⟨s.buf, by simp, fun p => ?_⟩
    rw [if_neg (by simp)]
  | cons x xs ih =>
    intro s h
    simp only [List.length_cons] at h
    have hb : (s.bufLen + 1).toNat = s.bufLen.toNat + 1 := by
      rw [BitVec.toNat_add]; simp; omega
    obtain ⟨b, hb1, hb2⟩ := ih (appendByte s x) (by rw [appendByte_within (by omega)]; simp only [hb]; omega)
    rw [appendByte_within (by omega)] at hb1 hb2
    simp only [hb] at hb1 hb2
    refine ⟨b, ?_, fun p => ?_⟩
    · rw [List.foldl_cons, appendByte_within (by omega), hb1]
      simp only [List.length_cons]
      congr 2
      omega
    · rw [hb2 p, byteAt_setByte]
      simp only [List.length_cons]
      by_cases h1 : s.bufLen.toNat + 1 ≤ p.toNat ∧ p.toNat < s.bufLen.toNat + 1 + xs.length
      · rw [if_pos h1, if_pos (by omega)]
        have e : p.toNat - s.bufLen.toNat = (p.toNat - (s.bufLen.toNat + 1)) + 1 := by omega
        rw [e, List.getD_cons_succ]
      · rw [if_neg h1]
        by_cases h2 : s.bufLen = p
        · subst h2
          rw [if_pos rfl, if_pos (by omega)]
          simp
        · have : s.bufLen.toNat ≠ p.toNat := fun e => h2 (BitVec.eq_of_toNat_eq e)
          rw [if_neg h2, if_neg (by omega)]

/-- Bytes that fill the buffer: the full block `b0` is latched, and the bytes left stand in the emptied buffer
(R164, R165). -/
theorem foldl_appendByte_full (xs : List Byte) (s : State) (h1 : 64 ≤ s.bufLen.toNat + xs.length)
    (h2 : xs.length ≤ 64) :
    ∃ b0 b1, xs.foldl appendByte s =
        { blockFull { s with buf := b0 } with
          buf := b1, bufLen := BitVec.ofNat 6 (s.bufLen.toNat + xs.length - 64) } ∧
      (∀ p : BitVec 6, byteAt b0 p =
        if p.toNat < s.bufLen.toNat then byteAt s.buf p else xs.getD (p.toNat - s.bufLen.toNat) 0) ∧
      ∀ p : BitVec 6, byteAt b1 p =
        if p.toNat < s.bufLen.toNat + xs.length - 64 then xs.getD (64 - s.bufLen.toNat + p.toNat) 0 else 0 := by
  have hlt := s.bufLen.isLt
  obtain ⟨n, hn⟩ : ∃ n, n = 63 - s.bufLen.toNat := ⟨_, rfl⟩
  have hxs : xs = xs.take n ++ xs.getD n 0 :: xs.drop (n + 1) := by
    rw [List.getD_eq_getElem _ _ (show n < xs.length by omega), List.cons_getElem_drop_succ, List.take_append_drop]
  obtain ⟨b, hb1, hb2⟩ := foldl_appendByte_within (xs.take n) s (by rw [List.length_take]; omega)
  have hl : (xs.take n).length = n := by rw [List.length_take]; omega
  rw [hl] at hb1 hb2
  have e63 : BitVec.ofNat 6 (s.bufLen.toNat + n) = 63#6 := by
    rw [show s.bufLen.toNat + n = 63 by omega]
  rw [e63] at hb1
  obtain ⟨b1, hc1, hc2⟩ := foldl_appendByte_within (xs.drop (n + 1))
    (blockFull { s with buf := setByte b 63#6 (xs.getD n 0) })
    (by simp [blockFull]; omega)
  refine ⟨setByte b 63#6 (xs.getD n 0), b1, ?_, fun p => ?_, fun p => ?_⟩
  · conv => lhs; rw [hxs]
    rw [List.foldl_append, hb1, List.foldl_cons, appendByte_full rfl]
    refine hc1.trans ?_
    simp only [blockFull, setFState_bufLen, latch_bufLen, List.length_drop]
    congr 2
    simp
    omega
  · rw [byteAt_setByte, hb2 p]
    have hp := p.isLt
    by_cases h63 : 63#6 = p
    · subst h63
      rw [if_pos rfl, if_neg (by simp; omega)]
      congr 1
    · have : p.toNat ≠ 63 := fun e => h63 (BitVec.eq_of_toNat_eq (by simpa using e.symm))
      rw [if_neg h63]
      by_cases hlo : p.toNat < s.bufLen.toNat
      · rw [if_neg (by omega), if_pos hlo]
      · rw [if_pos (by omega), if_neg hlo]
        simp only [List.getD_eq_getElem?_getD]
        rw [List.getElem?_take_of_lt (by omega)]
  · rw [hc2 p]
    simp only [blockFull, setFState_bufLen, latch_bufLen, setFState_buf, latch_buf, byteAt_replicate_zero,
      List.length_drop]
    by_cases hlo : p.toNat < s.bufLen.toNat + xs.length - 64
    · rw [if_pos (by simp; omega), if_pos hlo]
      simp only [List.getD_eq_getElem?_getD, List.getElem?_drop]
      congr 2
      simp
      omega
    · rw [if_neg (by simp; omega), if_neg hlo]

/-- UPDATE when its bytes do not fill the buffer (R163, R164). -/
theorem update_within (s : State) (n : Nat) (h : s.bufLen.toNat + n < 64) : ∃ b,
    update n s = countBits n { s with buf := b, bufLen := BitVec.ofNat 6 (s.bufLen.toNat + n) } ∧
      ∀ p : BitVec 6, byteAt b p =
        if s.bufLen.toNat ≤ p.toNat ∧ p.toNat < s.bufLen.toNat + n then dataByte s.data (p.toNat - s.bufLen.toNat)
        else byteAt s.buf p := by
  obtain ⟨b, h1, h2⟩ := foldl_appendByte_within (dataBytes s.data n) s (by simpa using h)
  simp only [dataBytes_length] at h1 h2
  refine ⟨b, by rw [update, h1], fun p => ?_⟩
  rw [h2]
  split
  · rw [dataBytes_getD _ _ _ (by omega)]
  · rfl

/-- UPDATE when its bytes fill the buffer (R163 to R165). -/
theorem update_full (s : State) (n : Nat) (h : 64 ≤ s.bufLen.toNat + n) (hn : n ≤ 64) : ∃ b0 b1,
    update n s = countBits n { blockFull { s with buf := b0 } with
      buf := b1, bufLen := BitVec.ofNat 6 (s.bufLen.toNat + n - 64) } ∧
      (∀ p : BitVec 6, byteAt b0 p =
        if p.toNat < s.bufLen.toNat then byteAt s.buf p else dataByte s.data (p.toNat - s.bufLen.toNat)) ∧
      ∀ p : BitVec 6, byteAt b1 p =
        if p.toNat < s.bufLen.toNat + n - 64 then dataByte s.data (64 - s.bufLen.toNat + p.toNat) else 0 := by
  obtain ⟨b0, b1, h1, h2, h3⟩ := foldl_appendByte_full (dataBytes s.data n) s (by simpa using h) (by simpa using hn)
  simp only [dataBytes_length] at h1 h2 h3
  have hl := s.bufLen.isLt
  refine ⟨b0, b1, by rw [update, h1], fun p => ?_, fun p => ?_⟩
  · rw [h2]
    split
    · rfl
    · rw [dataBytes_getD _ _ _ (by have := p.isLt; omega)]
  · rw [h3]
    split
    · rw [dataBytes_getD _ _ _ (by omega)]
    · rfl

/-! ## FINALIZE -/

/-- The length words stand at byte positions 56 up (R170). -/
theorem byteAt_setLengthWords (l : BitVec 64) (b : Block) (p : BitVec 6) (h : p.toNat < 56) :
    byteAt (setLengthWords l b) p = byteAt b p := by
  simp only [byteAt, byteWord, setLengthWords, Vector.getElem_set]
  rw [if_neg (by omega), if_neg (by omega)]

/-- The padding's bytes: the buffered ones, 0x80, zeros (R169 to R171). -/
theorem byteAt_padded (s : State) (n : Nat) (p : BitVec 6) (hn : s.bufLen.toNat + 1 + n ≤ 64)
    (hp : p.toNat ≤ s.bufLen.toNat + n) :
    byteAt (zeroBytes (setByte s.buf s.bufLen 0x80#8) (s.bufLen.toNat + 1) n) p =
      if p.toNat < s.bufLen.toNat then byteAt s.buf p else if p.toNat = s.bufLen.toNat then 0x80#8 else 0 := by
  rw [byteAt_zeroBytes _ _ _ _ hn, byteAt_setByte]
  by_cases h1 : p.toNat < s.bufLen.toNat
  · have : s.bufLen ≠ p := fun e => by subst e; omega
    rw [if_neg (by omega), if_neg this, if_pos h1]
  · by_cases h2 : p.toNat = s.bufLen.toNat
    · have : s.bufLen = p := BitVec.eq_of_toNat_eq h2.symm
      rw [if_neg (by omega), if_pos this, if_neg h1, if_pos h2]
    · rw [if_pos (by omega), if_neg h1, if_neg h2]

/-- What every FINALIZE does; `m` is its padded block (R168, R201). -/
theorem finalize_eq (s : State) : ∃ m, finalize s = { s with
    m := m, fstate := if s.bufLen.toNat ≤ 55 then .last else .pad2, dvalid := false, buf := Vector.replicate 16 0,
    bufLen := 0, a := s.h[0], b := s.h[1], c := s.h[2], d := s.h[3], r := 0, phase := .round } := by
  unfold finalize
  split <;> exact ⟨_, rfl⟩

/-- `SecondPadBlock()`: 56 zero bytes, then the length, not swapped (R210). -/
theorem secondPadBlock_eq (s : State) : ∃ m : Block, secondPadBlock s = { s with
      m := m, a := s.h[0], b := s.h[1], c := s.h[2], d := s.h[3], r := 0, phase := .round, fstate := .last,
      buf := Vector.replicate 16 0, bufLen := 0 } ∧
    (∀ (j : Nat) (h : j < 14), m[j] = 0) ∧ m[14] = lenLo s.len ∧ m[15] = lenHi s.len := by
  refine ⟨latchWords true (setLengthWords s.len (Vector.replicate 16 0)), rfl, fun j hj => ?_, ?_, ?_⟩
  · rw [latchWords_getElem _ _ _ (by omega), if_neg (by omega)]
    simp only [setLengthWords, Vector.getElem_set]
    rw [if_neg (by omega), if_neg (by omega)]
    simp [bswap32]
  · rw [latchWords_getElem _ _ _ (by omega), if_pos (by simp)]
    simp [setLengthWords]
  · rw [latchWords_getElem _ _ _ (by omega), if_pos (by simp)]
    simp [setLengthWords]

end Sys2Proof.Machine
end

