-- ==== Sys2Proof/Laws/Engine.lean ====
section
/-! SUPPORT. The engine's turn: which meaning SEL selects in each phase, that a ROUND step never asks for a refused
rotation, and what `n` turns do to a latched block. -/

namespace Sys2Proof.Machine

/-! ## The selector -/

theorem decodeStep_idle : ∀ r : BitVec 6, decodeStep (0#2 ++ r) = .idleNoStep r := by decide

theorem decodeStep_accum : ∀ r : BitVec 6, decodeStep (2#2 ++ r) = .accum r := by decide

theorem decodeStep_unused : ∀ r : BitVec 6, decodeStep (3#2 ++ r) = .unreachablePhase3 r := by decide

theorem decodeStep_stage0 : ∀ lo : BitVec 4, decodeStep (1#2 ++ (0#2 ++ lo)) = .roundF0 lo := by decide

theorem decodeStep_stage1 : ∀ lo : BitVec 4, decodeStep (1#2 ++ (1#2 ++ lo)) = .roundF1 lo := by decide

theorem decodeStep_stage2 : ∀ lo : BitVec 4, decodeStep (1#2 ++ (2#2 ++ lo)) = .roundF2 lo := by decide

theorem decodeStep_stage3 : ∀ lo : BitVec 4, decodeStep (1#2 ++ (3#2 ++ lo)) = .roundF3 lo := by decide

/-- A round index is its stage and its low four bits (R109). -/
theorem round_split : ∀ r : BitVec 6, stageOf r ++ r.extractLsb' 0 4 = r := by decide

/-- With phase ROUND, SEL selects the round of `r`, with its stage's function (R202 to R204). -/
theorem exec_selected_round (s : State) : ∀ r : BitVec 6,
    exec (decodeStep (1#2 ++ r)) s = roundStep (roundFunction r) r s := by
  intro r
  obtain ⟨st, hst⟩ : ∃ st, st = stageOf r := ⟨_, rfl⟩
  have hr := round_split r
  rw [← hst] at hr
  have h4 : ∀ x : BitVec 2, x = 0#2 ∨ x = 1#2 ∨ x = 2#2 ∨ x = 3#2 := by decide
  rcases h4 st with rfl | rfl | rfl | rfl <;> conv => lhs; rw [← hr]
  · rw [decodeStep_stage0]; change roundStep f0 (0#2 ++ _) s = _; rw [hr, roundFunction, ← hst]; rfl
  · rw [decodeStep_stage1]; change roundStep f1 (1#2 ++ _) s = _; rw [hr, roundFunction, ← hst]; rfl
  · rw [decodeStep_stage2]; change roundStep f2 (2#2 ++ _) s = _; rw [hr, roundFunction, ← hst]; rfl
  · rw [decodeStep_stage3]; change roundStep f3 (3#2 ++ _) s = _; rw [hr, roundFunction, ← hst]; rfl

/-! ## The ROUND step -/

/-- A ROUND step always answers a next state (R203: "Errors: none"). -/
theorem roundStep_eq_next (f : Word → Word → Word → Word) (i : BitVec 6) (s : State) :
    roundStep f i s =
      .next (advanceRound i (rotateWork ((roundSum f i s).rotateLeft (shiftAmount i)) s)) := by
  simp [roundStep, rotl32_eq_rotateLeft _ _ (shiftAmount_lt i)]

/-- What a round leaves alone, and the next round or ACCUM (R203). -/
theorem advanceRound_eq (i : BitVec 6) (s : State) :
    advanceRound i s = { s with
      r := if i.toNat < 63 then i + 1 else s.r
      phase := if i.toNat < 63 then s.phase else .accum } := by
  unfold advanceRound
  split <;> rfl

/-! ## Runs -/

theorem run_add (m n : Nat) : ∀ s : State, core.run (m + n) s =
    match core.run m s with
    | .next t => core.run n t
    | .fault r => .fault r
    | .refused r => .refused r := by
  induction m with
  | zero => intro s; simp [Host.Core.run]
  | succ m ih =>
    intro s
    rw [Nat.succ_add]
    simp only [Host.Core.run]
    cases core.step s with
    | next t => exact ih t
    | fault r => rfl
    | refused r => rfl

theorem run_one (s : State) : core.run 1 s = step s := by
  have h : core.step s = step s := rfl
  simp only [Host.Core.run, h]
  cases step s <;> rfl

/-- The first turn of a run whose first transition is the engine's. -/
theorem step_engine_turn {s : State} {rest : List Input} (h : s.everReset = true) :
    step { s with inputs := .engine :: rest } = exec (decodeStep (sel s)) { s with inputs := rest } := by
  simp [step, fetch, afterFirstReset, h, engineTurn, sel]

/-- The state a latched block is in after `n` ROUND steps (R203). -/
def afterRounds (s : State) (n : Nat) (rest : List Input) : State :=
  let w := compressRounds s.m s.h n
  { s with
    a := w.a, b := w.b, c := w.c, d := w.d
    r := if n < 64 then BitVec.ofNat 6 n else 63
    phase := if n < 64 then .round else .accum
    inputs := rest }

@[simp] theorem compressRounds_zero (m : Block) (h : Digest) :
    compressRounds m h 0 = ⟨h[0], h[1], h[2], h[3]⟩ := by simp [compressRounds]

theorem compressRounds_succ (m : Block) (h : Digest) (n : Nat) :
    compressRounds m h (n + 1) = compressRound m (compressRounds m h n) n := by
  simp [compressRounds, List.range_succ]

/-- One more ROUND step (R203, R212). -/
theorem step_afterRounds (s : State) (n : Nat) (rest : List Input) (h : s.everReset = true) (hn : n < 64) :
    step (afterRounds s n (.engine :: rest)) = .next (afterRounds s (n + 1) rest) := by
  have hsel : sel (afterRounds s n rest) = 1#2 ++ BitVec.ofNat 6 n := by
    simp [sel, afterRounds, hn, Phase.code]
  have hstep : step (afterRounds s n (.engine :: rest)) =
      exec (decodeStep (sel (afterRounds s n rest))) (afterRounds s n rest) :=
    step_engine_turn (s := afterRounds s n rest) h
  rw [hstep, hsel, exec_selected_round, roundStep_eq_next, advanceRound_eq]
  have ht : (BitVec.ofNat 6 n).toNat = n := by simp; omega
  congr 1
  simp only [afterRounds, rotateWork, compressRounds_succ, compressRound, roundSum, add32_eq, hn, if_true, ht]
  by_cases h63 : n < 63
  · have e : BitVec.ofNat 6 n + 1 = BitVec.ofNat 6 (n + 1) := by
      apply BitVec.eq_of_toNat_eq; simp
    simp only [h63, show n + 1 < 64 by omega, if_true, e]
  · obtain rfl : n = 63 := by omega
    simp

/-- `n` engine's turns of a latched block are `n` rounds (R203, R212). -/
theorem run_rounds (s : State) (rest : List Input) (h : s.everReset = true) (hp : s.phase = .round) (hr : s.r = 0)
    (ha : s.a = s.h[0]) (hb : s.b = s.h[1]) (hc : s.c = s.h[2]) (hd : s.d = s.h[3]) :
    ∀ n, n ≤ 64 → ∀ k, core.run n { s with inputs := List.replicate (n + k) .engine ++ rest } =
      .next (afterRounds s n (List.replicate k .engine ++ rest)) := by
  intro n
  induction n with
  | zero =>
    intro _ k
    simp [Host.Core.run, afterRounds, ha, hb, hc, hd, hr, hp]
  | succ n ih =>
    intro hn k
    rw [run_add, show n + 1 + k = n + (k + 1) by omega, ih (by omega) (k + 1)]
    simp only [run_one, List.replicate_succ, List.cons_append]
    exact step_afterRounds s n _ h (by omega)

theorem compress_eq (h : Digest) (m : Block) : compress h m = sumWork h (compressRounds m h 64) := by rw [compress]

/-! ## The end of a block -/

theorem accumulate_none {s : State} (h : s.fstate = .none) :
    accumulate s = { s with h := addWork s, r := 0, phase := .idle } := by simp only [accumulate, h]

theorem accumulate_pad2 {s : State} (h : s.fstate = .pad2) :
    accumulate s = secondPadBlock { s with h := addWork s, r := 0 } := by simp only [accumulate, h]

theorem accumulate_last {s : State} (h : s.fstate = .last) :
    accumulate s = complete { s with h := addWork s, r := 0 } := by simp only [accumulate, h]

theorem afterRounds_engine (s : State) (n : Nat) (rest : List Input) :
    afterRounds s n (.engine :: rest) = { afterRounds s n rest with inputs := .engine :: rest } := rfl

/-- The turn after the last round is ACCUM (R202, R208). -/
theorem step_afterRounds_accum (s : State) (n : Nat) (hn : 64 ≤ n) (rest : List Input) (h : s.everReset = true) :
    step (afterRounds s n (.engine :: rest)) = .next (accumulate (afterRounds s n rest)) := by
  have hsel : sel (afterRounds s n rest) = 2#2 ++ (afterRounds s n rest).r := by
    simp [sel, afterRounds, show ¬ n < 64 by omega, Phase.code]
  rw [afterRounds_engine, step_engine_turn (s := afterRounds s n rest) h, hsel, decodeStep_accum]
  rfl

/-- What `accumulate` starts from: the sums are those of `Compress` (R208, R212). -/
theorem addWork_afterRounds (s : State) (n : Nat) (rest : List Input) :
    addWork (afterRounds s n rest) = sumWork s.h (compressRounds s.m s.h n) := rfl

/-- A latched block with its 65 turns, by what follows it (R209 to R211): `w` are the working variables of the last
round. -/
theorem accumulate_afterRounds (s : State) (n : Nat) (rest : List Input) : ∃ w : Work,
    (s.fstate = .none → accumulate (afterRounds s n rest) =
      { s with
        h := sumWork s.h (compressRounds s.m s.h n), a := w.a, b := w.b, c := w.c, d := w.d, r := 0,
        phase := .idle, inputs := rest }) ∧
    (s.fstate = .pad2 → accumulate (afterRounds s n rest) = secondPadBlock
      { s with
        h := sumWork s.h (compressRounds s.m s.h n), a := w.a, b := w.b, c := w.c, d := w.d, r := 0,
        phase := (afterRounds s n rest).phase, inputs := rest }) ∧
    (s.fstate = .last → accumulate (afterRounds s n rest) = complete
      { s with
        h := sumWork s.h (compressRounds s.m s.h n), a := w.a, b := w.b, c := w.c, d := w.d, r := 0,
        phase := (afterRounds s n rest).phase, inputs := rest }) := by
  refine ⟨compressRounds s.m s.h n, fun h => ?_, fun h => ?_, fun h => ?_⟩
  · rw [accumulate_none (s := afterRounds s n rest) h, addWork_afterRounds]; rfl
  · rw [accumulate_pad2 (s := afterRounds s n rest) h, addWork_afterRounds]; rfl
  · rw [accumulate_last (s := afterRounds s n rest) h, addWork_afterRounds]; rfl

/-- 65 turns of a latched block: the 64 rounds and ACCUM (R212). -/
theorem run_block (s : State) (rest : List Input) (h : s.everReset = true) (hp : s.phase = .round) (hr : s.r = 0)
    (ha : s.a = s.h[0]) (hb : s.b = s.h[1]) (hc : s.c = s.h[2]) (hd : s.d = s.h[3]) (k : Nat) :
    core.run 65 { s with inputs := List.replicate (65 + k) .engine ++ rest } =
      .next (accumulate (afterRounds s 64 (List.replicate k .engine ++ rest))) := by
  rw [run_add 64 1, show 65 + k = 64 + (k + 1) by omega, run_rounds s rest h hp hr ha hb hc hd 64 (by omega) (k + 1)]
  simp only [run_one, List.replicate_succ, List.cons_append]
  exact step_afterRounds_accum _ _ (Nat.le_refl _) _ h

/-- Turns of an idle engine change nothing (R202). -/
theorem run_idle (n : Nat) : ∀ (s : State) (rest : List Input), s.everReset = true → s.phase = .idle →
    core.run n { s with inputs := List.replicate n .engine ++ rest } = .next { s with inputs := rest } := by
  induction n with
  | zero => intro s rest _ _; rfl
  | succ n ih =>
    intro s rest he hp
    have e : step { s with inputs := .engine :: (List.replicate n .engine ++ rest) } =
        .next { s with inputs := List.replicate n .engine ++ rest } := by
      rw [step_engine_turn he, sel, hp]
      change exec (decodeStep (0#2 ++ s.r)) _ = _
      rw [decodeStep_idle]
      rfl
    rw [Nat.add_comm, run_add 1 n, run_one, Nat.add_comm]
    simp only [List.replicate_succ, List.cons_append, e]
    exact ih s rest he hp

end Sys2Proof.Machine
end

