-- ==== Sys2Proof/Laws/Assembly.lean ====
section
/-! SUPPORT. A host program beside the engine: what each form does when the host has the turn, what the engine's turn
does, and that polls leave the engine's work alone. -/

namespace Sys2Proof.Machine

/-! ## One turn -/

/-- The engine's turn in front of the transitions still to come. -/
theorem step_engine_cons {s : State} (h : s.everReset = true) :
    step { s with inputs := .engine :: s.inputs } = exec (decodeStep (sel s)) s :=
  step_engine_turn h

/-- A host transaction in front of the transitions still to come (R13, R100). -/
theorem step_host_cons {s : State} (h : s.everReset = true) (ctl : BitVec 8) (v : Word) :
    step { s with inputs := .host 4 ctl v :: s.inputs } = exec (decodeBus ctl v) s := by
  have e : { s with everReset := true } = s := by rw [← h]
  simpa only [step, fetch, afterFirstReset, h, hostTurn, decode, if_true] using congrArg (exec (decodeBus ctl v)) e

theorem phase_cases (s : State) : s.phase = .idle ∨ s.phase = .round ∨ s.phase = .accum ∨ s.phase = .unused := by
  cases s.phase <;> simp

/-- The engine's turn in each phase: nothing, a round, the end of the block, or a fault (R202). -/
theorem engine_turn_cases (s : State) :
    (s.phase = .idle ∧ exec (decodeStep (sel s)) s = .next s) ∨
    (s.phase = .round ∧ exec (decodeStep (sel s)) s = .next (advanceRound s.r
      (rotateWork ((roundSum (roundFunction s.r) s.r s).rotateLeft (shiftAmount s.r)) s))) ∨
    (s.phase = .accum ∧ exec (decodeStep (sel s)) s = .next (accumulate s)) ∨
    (s.phase = .unused ∧ exec (decodeStep (sel s)) s = .fault .unusedPhase) := by
  rcases phase_cases s with hp | hp | hp | hp
  · have e : sel s = 0#2 ++ s.r := by rw [sel, hp]; rfl
    exact .inl ⟨hp, by rw [e, decodeStep_idle]; rfl⟩
  · have e : sel s = 1#2 ++ s.r := by rw [sel, hp]; rfl
    exact .inr (.inl ⟨hp, by rw [e, exec_selected_round, roundStep_eq_next]⟩)
  · have e : sel s = 2#2 ++ s.r := by rw [sel, hp]; rfl
    exact .inr (.inr (.inl ⟨hp, by rw [e, decodeStep_accum]; rfl⟩))
  · have e : sel s = 3#2 ++ s.r := by rw [sel, hp]; rfl
    exact .inr (.inr (.inr ⟨hp, by rw [e, decodeStep_unused]; rfl⟩))

/-- The engine's turn neither sees nor changes the transitions still to come and the value read last (R74, R341). -/
theorem engine_turn_congr {s t : State} (l : List Input) (v : Option Word) (h : exec (decodeStep (sel s)) s = .next t) :
    exec (decodeStep (sel s)) { s with inputs := l, rdata := v } = .next { t with inputs := l, rdata := v } := by
  rcases phase_cases s with hp | hp | hp | hp
  · have e : sel s = 0#2 ++ s.r := by rw [sel, hp]; rfl
    rw [e, decodeStep_idle] at h ⊢
    cases h
    rfl
  · have e : sel s = 1#2 ++ s.r := by rw [sel, hp]; rfl
    rw [e, exec_selected_round, roundStep_eq_next, advanceRound_eq] at h ⊢
    cases h
    rfl
  · have e : sel s = 2#2 ++ s.r := by rw [sel, hp]; rfl
    rw [e, decodeStep_accum] at h ⊢
    cases h
    simp only [exec, execAccum, accumulate]
    cases s.fstate <;> rfl
  · have e : sel s = 3#2 ++ s.r := by rw [sel, hp]; rfl
    rw [e, decodeStep_unused] at h
    cases h

/-- The engine's turn leaves the transitions still to come, and the reset mark. -/
theorem engine_turn_frame {s t : State} (h : exec (decodeStep (sel s)) s = .next t) :
    t.inputs = s.inputs ∧ t.everReset = s.everReset := by
  rcases engine_turn_cases s with ⟨_, e⟩ | ⟨_, e⟩ | ⟨_, e⟩ | ⟨_, e⟩ <;> rw [e] at h <;> cases h
  · exact ⟨rfl, rfl⟩
  · rw [advanceRound_eq]; exact ⟨rfl, rfl⟩
  · unfold accumulate
    split <;> exact ⟨rfl, rfl⟩

/-- Turns of the engine, one at a time. -/
theorem run_engine_succ {s t : State} (n : Nat) (he : s.everReset = true)
    (h : exec (decodeStep (sel s)) s = .next t) :
    core.run (n + 1) { s with inputs := List.replicate (n + 1) .engine ++ s.inputs } =
      core.run n { t with inputs := List.replicate n .engine ++ t.inputs } := by
  have hr : t.rdata = s.rdata := by
    have hx := engine_turn_congr s.inputs s.rdata h
    rw [show { s with inputs := s.inputs, rdata := s.rdata } = s from rfl, h] at hx
    injection hx with hx
    rw [hx]
  have hx := engine_turn_congr (List.replicate n .engine ++ s.inputs) s.rdata h
  rw [← hr] at hx
  rw [Nat.add_comm n 1, run_add, run_one]
  have e1 : List.replicate (1 + n) Input.engine ++ s.inputs = .engine :: (List.replicate n .engine ++ s.inputs) := by
    rw [Nat.add_comm, List.replicate_succ, List.cons_append]
  rw [e1, step_engine_turn he, (engine_turn_frame h).1]
  rw [hr] at hx
  rw [hx, ← hr]

end Sys2Proof.Machine

namespace Sys2Proof.Machine.Assembly

/-! ## Programs -/

theorem runProgram_append (us vs : List Turn) : ∀ (prog : List Op) (s : State), runProgram (us ++ vs) prog s =
    match runProgram us prog s with
    | .next (t, rest) => runProgram vs rest t
    | .fault f => .fault f
    | .refused q => .refused q := by
  induction us with
  | nil => intro prog s; rfl
  | cons u us ih =>
    intro prog s
    simp only [List.cons_append, runProgram]
    cases issue u prog with
    | none => exact ih _ _
    | some x =>
      dsimp only
      cases step { s with inputs := x :: s.inputs } with
      | next t => exact ih _ _
      | fault f => rfl
      | refused q => rfl

/-- The engine's turn in a program. -/
theorem runProgram_engine {s t : State} (us : List Turn) (prog : List Op) (he : s.everReset = true)
    (h : exec (decodeStep (sel s)) s = .next t) :
    runProgram (.engine :: us) prog s = runProgram us prog t := by
  simp only [runProgram, issue, step_engine_cons he, h, afterTurn]

/-- The host's turn in a program: the form at its head. -/
theorem runProgram_host {s t : State} (us : List Turn) (op : Op) (rest : List Op)
    (h : step { s with inputs := transaction op :: s.inputs } = .next t) :
    runProgram (.host :: us) (op :: rest) s = runProgram us (afterHost (op :: rest) t) t := by
  simp only [runProgram, issue, h, afterTurn]

/-- `WR DATA` (R144). -/
theorem step_wr_data {s : State} (he : s.everReset = true) (v : Word) :
    step { s with inputs := transaction (.wr .data v) :: s.inputs } = .next (setData v s) :=
  step_host_cons he _ _

/-- `WR CMD` (R143). -/
theorem step_wr_cmd {s : State} (he : s.everReset = true) (v : Word) :
    step { s with inputs := transaction (.wr .cmd v) :: s.inputs } = command v s :=
  step_host_cons he _ _

/-- A poll (R133). -/
theorem step_poll {s : State} (he : s.everReset = true) :
    step { s with inputs := transaction .waitReady :: s.inputs } = .next (respond (status s) s) :=
  step_host_cons he _ _

/-- `RD DOUTi` (R138). -/
theorem step_rd_dout {s : State} (he : s.everReset = true) (i : BitVec 2) :
    step { s with inputs := transaction (.rd (.dout i)) :: s.inputs } = .next (respond (digestWord s.dout i) s) := by
  refine (step_host_cons he _ _).trans ?_
  have hd : ∀ i : BitVec 2, decodeBus ((addr (.dout i)).setWidth 8) 0 = .rdDout i := by decide
  rw [hd]
  rfl

/-- A poll sees READY exactly in IDLE (R46, R47). -/
theorem sawReady_poll (s : State) : sawReady (respond (status s) s) = decide (s.phase = .idle) := by
  have h := status_toNat s
  have h6 : (ready s).toNat < 2 := by cases ready s <;> decide
  have e : (status s)[0] = decide ((status s).toNat % 2 = 1) := by
    rw [← BitVec.getLsbD_eq_getElem, BitVec.getLsbD, Nat.testBit_eq_decide_div_mod_eq]
    simp
  simp only [sawReady, respond_rdata, e, show (status s).toNat % 2 = (ready s).toNat by omega]
  by_cases hp : s.phase = .idle <;> simp [ready, hp]

/-- WAITRDY with one poll: it ends exactly when the engine is idle (R110). -/
theorem runProgram_poll {s : State} (us : List Turn) (rest : List Op) (he : s.everReset = true) :
    runProgram (.host :: us) (.waitReady :: rest) s =
      runProgram us (if s.phase = .idle then rest else .waitReady :: rest) (respond (status s) s) := by
  rw [runProgram_host us _ _ (step_poll he)]
  simp only [afterHost, sawReady_poll, decide_eq_true_eq]

/-- READDIGEST to its end: nothing but the value read last changes (R74, R110). -/
theorem runProgram_readDigest {s : State} (us : List Turn) (he : s.everReset = true) :
    runProgram (.host :: .host :: .host :: .host :: us) readDigest s =
      runProgram us [] (respond (digestWord s.dout 3) s) := by
  rw [readDigest, runProgram_host _ _ _ (step_rd_dout he 0)]
  simp only [afterHost]
  rw [runProgram_host _ _ _ (step_rd_dout (by exact he) 1)]
  simp only [afterHost]
  rw [runProgram_host _ _ _ (step_rd_dout (by exact he) 2)]
  simp only [afterHost]
  rw [runProgram_host _ _ _ (step_rd_dout (by exact he) 3)]
  rfl

/-- Turns of the engine alone in a program are a run of the machine. -/
theorem runProgram_engines (n : Nat) (prog : List Op) : ∀ (s u : State), s.everReset = true →
    core.run n { s with inputs := List.replicate n .engine ++ s.inputs } = .next u →
    runProgram (List.replicate n .engine) prog s = .next (u, prog) := by
  induction n with
  | zero => intro s u _ h; cases h; rfl
  | succ n ih =>
    intro s u he h
    rcases engine_turn_cases s with ⟨_, e⟩ | ⟨_, e⟩ | ⟨_, e⟩ | ⟨hp, e⟩
    case inr.inr.inr =>
      have e1 : List.replicate (n + 1) Input.engine ++ s.inputs = .engine :: (List.replicate n .engine ++ s.inputs) := by
        rw [List.replicate_succ, List.cons_append]
      have hsel : sel s = 3#2 ++ s.r := by rw [sel, hp]; rfl
      rw [Nat.add_comm, run_add, run_one, Nat.add_comm 1 n, e1, step_engine_turn he, hsel, decodeStep_unused] at h
      cases h
    all_goals
      rw [run_engine_succ n he e] at h
      rw [List.replicate_succ, runProgram_engine _ _ he e]
      exact ih _ _ ((engine_turn_frame e).2.trans he) h

end Sys2Proof.Machine.Assembly
end

