-- ==== Sys2Proof/Laws/Message.lean ====
section
/-! SUPPORT. Messages as byte sequences: their blocks, the digest words after them, and the block that the latch
takes from the buffer. -/

namespace Sys2Proof.Machine

theorem byteOf_append_left {m x : List Byte} {p : Nat} (h : p < m.length) : byteOf (m ++ x) p = byteOf m p := by
  simp [byteOf, List.getElem?_append_left h]

theorem byteOf_append_right {m x : List Byte} {p : Nat} (h : m.length ≤ p) :
    byteOf (m ++ x) p = byteOf x (p - m.length) := by
  simp [byteOf, List.getElem?_append_right h]

theorem byteOf_map_range (f : Nat → Byte) {n p : Nat} (h : p < n) : byteOf ((List.range n).map f) p = f p := by
  simp [byteOf, h]

theorem blockOf_getElem (bs : List Byte) (at0 j : Nat) (hj : j < 16) :
    (blockOf bs at0)[j] = wordLE (byteOf bs (at0 + 4 * j)) (byteOf bs (at0 + 4 * j + 1)) (byteOf bs (at0 + 4 * j + 2))
      (byteOf bs (at0 + 4 * j + 3)) := by
  simp [blockOf]

/-- A block is its 64 bytes. -/
theorem blockOf_congr {m m' : List Byte} {a b : Nat} (h : ∀ p, p < 64 → byteOf m (a + p) = byteOf m' (b + p)) :
    blockOf m a = blockOf m' b := by
  apply Vector.ext
  intro j hj
  simp only [blockOf_getElem _ _ _ hj, Nat.add_assoc]
  rw [h _ (by omega), h _ (by omega), h _ (by omega), h _ (by omega)]

@[simp] theorem absorb_zero (m : List Byte) : absorb m 0 = iv := by simp [absorb]

theorem absorb_succ (m : List Byte) (n : Nat) : absorb m (n + 1) = compress (absorb m n) (blockOf m (64 * n)) := by
  simp [absorb, List.range_succ]

/-- Later bytes leave earlier blocks alone. -/
theorem absorb_append (m x : List Byte) : ∀ n, 64 * n ≤ m.length → absorb (m ++ x) n = absorb m n := by
  intro n
  induction n with
  | zero => intro _; simp
  | succ n ih =>
    intro h
    rw [absorb_succ, absorb_succ, ih (by omega)]
    exact congrArg (compress _) (blockOf_congr fun p hp => byteOf_append_left (by omega))

/-- A latched data block is the message's block, in internal order (R77, R200). -/
theorem latchWords_false_eq_blockOf {b : Block} {m : List Byte} {a : Nat}
    (h : ∀ p : BitVec 6, byteAt b p = byteOf m (a + p.toNat)) : latchWords false b = blockOf m a := by
  apply Vector.ext
  intro j hj
  have tn (k : Nat) (hk : k < 64) : (BitVec.ofNat 6 k).toNat = k := by simp; omega
  rw [latchWords_getElem _ _ _ hj, if_neg (by simp), bswap32_word _ _ hj, blockOf_getElem _ _ _ hj]
  simp only [h, Nat.add_assoc]
  rw [tn _ (by omega), tn _ (by omega), tn _ (by omega), tn _ (by omega)]

/-- A latched final block: 56 bytes in internal order, and the two words of the length, the low one first
(R78, R200). -/
theorem latchWords_true_eq_blockOf {b : Block} {l : BitVec 64} {m : List Byte} {a : Nat}
    (h : ∀ p : BitVec 6, p.toNat < 56 → byteAt b p = byteOf m (a + p.toNat))
    (hl : ∀ k, k < 8 → byteOf m (a + 56 + k) = l.extractLsb' (8 * k) 8) :
    latchWords true (setLengthWords l b) = blockOf m a := by
  apply Vector.ext
  intro j hj
  have tn (k : Nat) (hk : k < 64) : (BitVec.ofNat 6 k).toNat = k := by simp; omega
  rw [latchWords_getElem _ _ _ hj, blockOf_getElem _ _ _ hj]
  by_cases h14 : 14 ≤ j
  · rw [if_pos ⟨rfl, h14⟩]
    have hw (q : Nat) (hq : q < 2) : l.extractLsb' (32 * q) 32 =
        wordLE (l.extractLsb' (32 * q) 8) (l.extractLsb' (32 * q + 8) 8) (l.extractLsb' (32 * q + 16) 8)
          (l.extractLsb' (32 * q + 24) 8) := by
      apply BitVec.eq_of_toNat_eq
      rw [wordLE, toNat_append, toNat_append, toNat_append]
      simp only [BitVec.extractLsb'_toNat, Nat.shiftRight_eq_div_pow, Nat.pow_add, ← Nat.div_div_eq_div_mul]
      omega
    obtain rfl | rfl : j = 14 ∨ j = 15 := by omega
    · have e : (setLengthWords l b)[14] = l.extractLsb' 0 32 := by simp [setLengthWords, lenLo]
      rw [e, hw 0 (by omega), show a + 4 * 14 = a + 56 + 0 by omega, hl 0 (by omega)]
      simp only [Nat.add_assoc, Nat.zero_add] at hl ⊢
      rw [hl 1 (by omega), hl 2 (by omega), hl 3 (by omega)]
    · have e : (setLengthWords l b)[15] = l.extractLsb' 32 32 := by simp [setLengthWords, lenHi]
      have e4 := hl 4 (by omega)
      have e5 := hl 5 (by omega)
      have e6 := hl 6 (by omega)
      have e7 := hl 7 (by omega)
      simp only [Nat.add_assoc, Nat.reduceAdd, Nat.reduceMul] at e4 e5 e6 e7 ⊢
      rw [e, hw 1 (by omega), e4, e5, e6, e7]
  · rw [if_neg (by omega)]
    rw [bswap32_word _ _ hj]
    simp only [Nat.add_assoc]
    have hb (k : Nat) (hk : k < 56) : byteAt (setLengthWords l b) (BitVec.ofNat 6 k) = byteOf m (a + k) := by
      rw [byteAt_setLengthWords _ _ _ (by rw [tn _ (by omega)]; exact hk), h _ (by rw [tn _ (by omega)]; exact hk),
        tn _ (by omega)]
    rw [hb _ (by omega), hb _ (by omega), hb _ (by omega), hb _ (by omega)]

end Sys2Proof.Machine
end

