-- ==== Sys2Proof/Laws/PerInstr.lean ====
section
/-! SUPPORT. Family RowMatch: the words of every well-formed instruction fit the mask and match of its row in
spec/opcode_table.json. -/

namespace Sys2Proof.Laws.RowMatch

open Sys2Proof

/-- The pattern of a row of the table: mask and match of CTL or SEL, the word of a command, or RESERVED_CMD's "every
32-bit word v with CmdLegal(v) false". -/
inductive Row where
  | bus (mask pattern : BitVec 8)
  | cmd (pattern : Word)
  | reserved
  | step (mask pattern : BitVec 8)
deriving DecidableEq, Repr

/-- The encoded form fits the row. -/
def fits : Row → Encoded → Bool
  | .bus mask pattern, .bus width ctl _ => width == 4 && (ctl &&& mask) == pattern
  | .cmd pattern, .cmd v => v == pattern
  | .reserved, .cmd v => !cmdLegal v
  | .step mask pattern, .step sel => (sel &&& mask) == pattern
  | _, _ => false

/-- The row of each constructor, from the table. -/
def rowOf : Instr → Row
  | .rdMisalignedOdd _ => .bus 0x81 0x01
  | .rdMisalignedTwo _ => .bus 0x83 0x02
  | .rdCmd => .bus 0xff 0x00
  | .rdData => .bus 0xff 0x04
  | .rdStatus => .bus 0xff 0x08
  | .rdBufLen => .bus 0xff 0x0c
  | .rdLenLo => .bus 0xff 0x10
  | .rdLenHi => .bus 0xff 0x14
  | .rdRsvd _ => .bus 0xfb 0x18
  | .rdH _ => .bus 0xf3 0x20
  | .rdDout _ => .bus 0xf3 0x30
  | .rdBuf _ => .bus 0xc3 0x40
  | .wrMisalignedOdd _ _ => .bus 0x81 0x81
  | .wrMisalignedTwo _ _ => .bus 0x83 0x82
  | .wrCmd _ => .bus 0xff 0x80
  | .wrData _ => .bus 0xff 0x84
  | .wrStatus _ => .bus 0xff 0x88
  | .wrBufLen _ => .bus 0xff 0x8c
  | .wrLenLo _ => .bus 0xff 0x90
  | .wrLenHi _ => .bus 0xff 0x94
  | .wrRsvd _ _ => .bus 0xfb 0x98
  | .wrH _ _ => .bus 0xf3 0xa0
  | .wrDout _ _ => .bus 0xf3 0xb0
  | .wrBuf _ _ => .bus 0xc3 0xc0
  | .nop => .cmd 0x00000000
  | .reset => .cmd 0x00000001
  | .updateNb0 => .cmd 0x00000002
  | .updateNb1 => .cmd 0x00000012
  | .updateNb2 => .cmd 0x00000022
  | .updateNb3 => .cmd 0x00000032
  | .updateNb4 => .cmd 0x00000042
  | .finalize => .cmd 0x00000003
  | .reservedCmd _ => .reserved
  | .idleNoStep _ => .step 0xc0 0x00
  | .roundF0 _ => .step 0xf0 0x40
  | .roundF1 _ => .step 0xf0 0x50
  | .roundF2 _ => .step 0xf0 0x60
  | .roundF3 _ => .step 0xf0 0x70
  | .accum _ => .step 0xc0 0x80
  | .unreachablePhase3 _ => .step 0xc0 0xc0

/-- The family's statement about one instruction. -/
def Statement (i : Instr) : Prop := wellFormed i = true → fits (rowOf i) (encode i) = true

/-- A write's value stands in WDATA, so the pattern of CTL does not see it. -/
theorem fits_bus (mask pattern ctl : BitVec 8) (v : Word) (h : (ctl &&& mask) = pattern) :
    fits (.bus mask pattern) (.bus 4 ctl v) = true := by simp [fits, h]

theorem rdMisalignedOdd (hi : BitVec 6) : Statement (.rdMisalignedOdd hi) := fun _ => fits_bus _ _ _ _ (by clear * - hi; revert hi; decide)

theorem rdMisalignedTwo (slot : BitVec 5) : Statement (.rdMisalignedTwo slot) := fun _ => fits_bus _ _ _ _ (by clear * - slot; revert slot; decide)

theorem rdCmd : Statement .rdCmd := fun _ => fits_bus _ _ _ _ (by decide)

theorem rdData : Statement .rdData := fun _ => fits_bus _ _ _ _ (by decide)

theorem rdStatus : Statement .rdStatus := fun _ => fits_bus _ _ _ _ (by decide)

theorem rdBufLen : Statement .rdBufLen := fun _ => fits_bus _ _ _ _ (by decide)

theorem rdLenLo : Statement .rdLenLo := fun _ => fits_bus _ _ _ _ (by decide)

theorem rdLenHi : Statement .rdLenHi := fun _ => fits_bus _ _ _ _ (by decide)

theorem rdRsvd (k : BitVec 1) : Statement (.rdRsvd k) := fun _ => fits_bus _ _ _ _ (by clear * - k; revert k; decide)

theorem rdH (i : BitVec 2) : Statement (.rdH i) := fun _ => fits_bus _ _ _ _ (by clear * - i; revert i; decide)

theorem rdDout (i : BitVec 2) : Statement (.rdDout i) := fun _ => fits_bus _ _ _ _ (by clear * - i; revert i; decide)

theorem rdBuf (j : BitVec 4) : Statement (.rdBuf j) := fun _ => fits_bus _ _ _ _ (by clear * - j; revert j; decide)

theorem wrMisalignedOdd (hi : BitVec 6) (v : Word) : Statement (.wrMisalignedOdd hi v) := fun _ => fits_bus _ _ _ _ (by clear * - hi; revert hi; decide)

theorem wrMisalignedTwo (slot : BitVec 5) (v : Word) : Statement (.wrMisalignedTwo slot v) := fun _ => fits_bus _ _ _ _ (by clear * - slot; revert slot; decide)

theorem wrCmd (v : Word) : Statement (.wrCmd v) := fun _ => fits_bus _ _ _ _ (by decide)

theorem wrData (v : Word) : Statement (.wrData v) := fun _ => fits_bus _ _ _ _ (by decide)

theorem wrStatus (v : Word) : Statement (.wrStatus v) := fun _ => fits_bus _ _ _ _ (by decide)

theorem wrBufLen (v : Word) : Statement (.wrBufLen v) := fun _ => fits_bus _ _ _ _ (by decide)

theorem wrLenLo (v : Word) : Statement (.wrLenLo v) := fun _ => fits_bus _ _ _ _ (by decide)

theorem wrLenHi (v : Word) : Statement (.wrLenHi v) := fun _ => fits_bus _ _ _ _ (by decide)

theorem wrRsvd (k : BitVec 1) (v : Word) : Statement (.wrRsvd k v) := fun _ => fits_bus _ _ _ _ (by clear * - k; revert k; decide)

theorem wrH (i : BitVec 2) (v : Word) : Statement (.wrH i v) := fun _ => fits_bus _ _ _ _ (by clear * - i; revert i; decide)

theorem wrDout (i : BitVec 2) (v : Word) : Statement (.wrDout i v) := fun _ => fits_bus _ _ _ _ (by clear * - i; revert i; decide)

theorem wrBuf (j : BitVec 4) (v : Word) : Statement (.wrBuf j v) := fun _ => fits_bus _ _ _ _ (by clear * - j; revert j; decide)

theorem nop : Statement .nop := fun _ => by decide

theorem reset : Statement .reset := fun _ => by decide

theorem updateNb0 : Statement .updateNb0 := fun _ => by decide

theorem updateNb1 : Statement .updateNb1 := fun _ => by decide

theorem updateNb2 : Statement .updateNb2 := fun _ => by decide

theorem updateNb3 : Statement .updateNb3 := fun _ => by decide

theorem updateNb4 : Statement .updateNb4 := fun _ => by decide

theorem finalize : Statement .finalize := fun _ => by decide

theorem reservedCmd (v : Word) : Statement (.reservedCmd v) := fun h => h

theorem idleNoStep (r : BitVec 6) : Statement (.idleNoStep r) := fun _ => by revert r; decide

theorem roundF0 (lo : BitVec 4) : Statement (.roundF0 lo) := fun _ => by revert lo; decide

theorem roundF1 (lo : BitVec 4) : Statement (.roundF1 lo) := fun _ => by revert lo; decide

theorem roundF2 (lo : BitVec 4) : Statement (.roundF2 lo) := fun _ => by revert lo; decide

theorem roundF3 (lo : BitVec 4) : Statement (.roundF3 lo) := fun _ => by revert lo; decide

theorem accum (r : BitVec 6) : Statement (.accum r) := fun _ => by revert r; decide

theorem unreachablePhase3 (r : BitVec 6) : Statement (.unreachablePhase3 r) := fun _ => by revert r; decide

end Sys2Proof.Laws.RowMatch
end

