-- ==== Sys2Proof/Laws/Step.lean ====
section
/-! SUPPORT. What a step can do, once: a hardware reset, a host transaction, or the engine's turn. -/

namespace Sys2Proof.Machine

/-- If a step answers a next state, one of the three agents made the transition (R7, R13). -/
theorem step_cases {s t : State} (h : step s = .next t) :
    (∃ rest, s.inputs = .reset :: rest ∧ t = hardwareReset { s with inputs := rest }) ∨
    (s.everReset = true ∧ ∃ ctl wdata rest, s.inputs = .host 4 ctl wdata :: rest ∧
      exec (decodeBus ctl wdata) { s with inputs := rest } = .next t) ∨
    (s.everReset = true ∧ ∃ rest, (s.inputs = .engine :: rest ∨ (s.inputs = [] ∧ rest = [])) ∧
      exec (decodeStep (sel s)) { s with inputs := rest } = .next t) := by
  unfold step fetch at h
  cases hi : s.inputs with
  | nil =>
    simp only [hi, afterFirstReset, engineTurn] at h
    cases he : s.everReset with
    | false => simp [he] at h
    | true =>
      simp only [he, if_true] at h
      refine .inr (.inr ⟨rfl, [], .inr ⟨rfl, rfl⟩, ?_⟩)
      rw [← h, ← hi, ← he]
  | cons x rest =>
    cases x with
    | reset =>
      simp only [hi, Host.Outcome.next.injEq] at h
      exact .inl ⟨rest, rfl, h.symm⟩
    | engine =>
      simp only [hi, afterFirstReset, engineTurn] at h
      cases he : s.everReset with
      | false => simp [he] at h
      | true =>
        simp only [he, if_true] at h
        exact .inr (.inr ⟨rfl, rest, .inl rfl, by rw [← h, ← he]; rfl⟩)
    | host width ctl wdata =>
      simp only [hi, afterFirstReset, hostTurn, decode] at h
      cases he : s.everReset with
      | false => simp [he] at h
      | true =>
        simp only [he, if_true] at h
        by_cases hw : width = 4
        · subst hw
          exact .inr (.inl ⟨rfl, ctl, wdata, rest, rfl, by simpa [he] using h⟩)
        · simp [hw] at h

end Sys2Proof.Machine
end

