-- ==== Sys2Proof/Tests/Slice0.lean ====
section
/-! SUPPORT. Tests. Expected values come from the spec: the encodings of 30_encoding.md, the vectors V<n> of
95_test_vectors.md and the examples of the rules. After them, one witness for the hypotheses of each obligation. -/

namespace Sys2Proof.Tests

open Sys2Proof Sys2Proof.Machine Sys2Proof.Claims

/-- What one transition shows of its next state. -/
def shows {α : Type} (o : Result) (f : State → α) : Option α :=
  match o with
  | .next t => some (f t)
  | _ => none

/-- One bus transaction from `s`, as a step. -/
def bus (ctl : BitVec 8) (wdata : Word) (s : State) : Result := step { s with inputs := [.host 4 ctl wdata] }

/-- One turn of the engine. -/
def turn (s : State) : Result := step { s with inputs := [.engine] }

/-- After the UPDATE of "abc" (V2). -/
def abc : State :=
  { State.reset with
    data := 0x61626300, buf := (Vector.replicate 16 0).set 0 0x61626300, bufLen := 3, len := 24 }

/-- FINALIZE of "abc" accepted (V2). -/
def busy : State :=
  { State.reset with
    data := 0x61626300, len := 24, m := ((Vector.replicate 16 0).set 0 0x80636261).set 14 24,
    a := 0x67452301, b := 0xefcdab89, c := 0x98badcfe, d := 0x10325476, phase := .round, fstate := .last }

/-- After the last round of "abc" (V21). -/
def lastRound : State :=
  { busy with
    a := 0x310ade8f, b := 0xc08226b3, c := 0xe484b9d8, d := 0x624d8cb2, r := 63, phase := .accum }

/-- 62 bytes sent: the buffer's last word is 0x3c3d0000 (V25). -/
def nearlyFull : State :=
  { State.reset with
    data := 0x3e3f4041, buf := ((Vector.replicate 16 0).set 0 0x00010203).set 15 0x3c3d0000, bufLen := 62, len := 496 }

/-- An idle engine with `n` bytes in the buffer. -/
def holding (n : BitVec 6) : State := { State.reset with bufLen := n }

/-! ## Well-formedness -/

/-- The one check: a legal word (R105) is no RESERVED_CMD. -/
theorem test_wellFormed_refuses_legal_as_reserved :
    wellFormed (.reservedCmd 0x03) = false ∧ wellFormed (.reservedCmd 0x42) = false ∧
      wellFormed (.reservedCmd 0x52) = true := by decide

/-! ## Encodings, bit by bit (R101, R103, R109) -/

theorem test_decode_reads :
    decode (.bus 4 0b01111111 0) = .ok (.rdMisalignedOdd 63) ∧
    decode (.bus 4 0b00000110 0) = .ok (.rdMisalignedTwo 1) ∧
    decode (.bus 4 0b00000000 0) = .ok .rdCmd ∧
    decode (.bus 4 0b00000100 0) = .ok .rdData ∧
    decode (.bus 4 0b00001000 0) = .ok .rdStatus ∧
    decode (.bus 4 0b00001100 0) = .ok .rdBufLen ∧
    decode (.bus 4 0b00010000 0) = .ok .rdLenLo ∧
    decode (.bus 4 0b00010100 0) = .ok .rdLenHi ∧
    decode (.bus 4 0b00011000 0) = .ok (.rdRsvd 0) ∧
    decode (.bus 4 0b00011100 0) = .ok (.rdRsvd 1) ∧
    decode (.bus 4 0b00101100 0) = .ok (.rdH 3) ∧
    decode (.bus 4 0b00110100 0) = .ok (.rdDout 1) ∧
    decode (.bus 4 0b01101000 0) = .ok (.rdBuf 10) := by decide

theorem test_decode_writes :
    decode (.bus 4 0b10000101 9) = .ok (.wrMisalignedOdd 2 9) ∧
    decode (.bus 4 0b11111110 9) = .ok (.wrMisalignedTwo 31 9) ∧
    decode (.bus 4 0b10000000 9) = .ok (.wrCmd 9) ∧
    decode (.bus 4 0b10000100 9) = .ok (.wrData 9) ∧
    decode (.bus 4 0b10001000 9) = .ok (.wrStatus 9) ∧
    decode (.bus 4 0b10001100 9) = .ok (.wrBufLen 9) ∧
    decode (.bus 4 0b10010000 9) = .ok (.wrLenLo 9) ∧
    decode (.bus 4 0b10010100 9) = .ok (.wrLenHi 9) ∧
    decode (.bus 4 0b10011000 9) = .ok (.wrRsvd 0 9) ∧
    decode (.bus 4 0b10011100 9) = .ok (.wrRsvd 1 9) ∧
    decode (.bus 4 0b10101000 9) = .ok (.wrH 2 9) ∧
    decode (.bus 4 0b10111100 9) = .ok (.wrDout 3 9) ∧
    decode (.bus 4 0b11010100 9) = .ok (.wrBuf 5 9) := by decide

theorem test_decode_commands :
    decode (.cmd 0b00000000000000000000000000000000) = .ok .nop ∧
    decode (.cmd 0b00000000000000000000000000000001) = .ok .reset ∧
    decode (.cmd 0b00000000000000000000000000000010) = .ok .updateNb0 ∧
    decode (.cmd 0b00000000000000000000000000010010) = .ok .updateNb1 ∧
    decode (.cmd 0b00000000000000000000000000100010) = .ok .updateNb2 ∧
    decode (.cmd 0b00000000000000000000000000110010) = .ok .updateNb3 ∧
    decode (.cmd 0b00000000000000000000000001000010) = .ok .updateNb4 ∧
    decode (.cmd 0b00000000000000000000000000000011) = .ok .finalize := by decide

/-- The reserved words of V29. -/
theorem test_decode_reserved_commands :
    decode (.cmd 0x04) = .ok (.reservedCmd 0x04) ∧
    decode (.cmd 0x0f) = .ok (.reservedCmd 0x0f) ∧
    decode (.cmd 0x52) = .ok (.reservedCmd 0x52) ∧
    decode (.cmd 0x13) = .ok (.reservedCmd 0x13) ∧
    decode (.cmd 0x11) = .ok (.reservedCmd 0x11) ∧
    decode (.cmd 0x82) = .ok (.reservedCmd 0x82) ∧
    decode (.cmd 0x10) = .ok (.reservedCmd 0x10) ∧
    decode (.cmd 0x80000000) = .ok (.reservedCmd 0x80000000) ∧
    decode (.cmd 0x101) = .ok (.reservedCmd 0x101) := by decide

/-- V30 and the rows of R109. -/
theorem test_decode_steps :
    decode (.step 0b00000000) = .ok (.idleNoStep 0) ∧
    decode (.step 0b01001111) = .ok (.roundF0 15) ∧
    decode (.step 0b01010000) = .ok (.roundF1 0) ∧
    decode (.step 0b01100101) = .ok (.roundF2 5) ∧
    decode (.step 0b01111111) = .ok (.roundF3 15) ∧
    decode (.step 0b10111111) = .ok (.accum 63) ∧
    decode (.step 0b11000001) = .ok (.unreachablePhase3 1) := by decide

/-- R72: no other width. -/
theorem test_decode_width : decode (.bus 2 0b00001000 0) = .error (.accessWidth 2) := by decide

/-- The host's numbering: CTL is the first byte, WDATA the next four. -/
theorem test_decode_table_words :
    decodeTableWord 8 0x80 = some (.wrCmd 0) ∧ decodeTableWord 40 0x61626384 = some (.wrData 0x616263) ∧
      decodeTableWord 32 0x32 = some .updateNb3 := by decide

/-- A table word placed by `withFetchWord` runs first. -/
theorem test_withFetchWord :
    shows (step (State.reset.withFetchWord 8 0x08)) (·.rdata) = some (some 1) ∧
      shows (step (State.reset.withFetchWord 32 0x04)) (·.ecause) = some .rsvdCmd := by decide

/-! ## The datapath -/

/-- V10 -/
theorem test_add32 : add32 0xffffffff 1 = 0 ∧ add32 0x12345678 0x9abcdef0 = 0xacf13568 := by decide

/-- V11 -/
theorem test_rotl32 :
    rotl32 0x80000000 1 = some 1 ∧ rotl32 0x00000001 31 = some 0x80000000 ∧ rotl32 0x12345678 0 = some 0x12345678 ∧
      rotl32 0x12345678 7 = some 0x1a2b3c09 ∧ rotl32 0xdeadbeef 22 = some 0xbbf7ab6f ∧ rotl32 1 32 = none := by
  decide

/-- V12 -/
theorem test_bswap32 : bswap32 0x12345678 = 0x78563412 ∧ bswap32 0xd98c1dd4 = 0xd41d8cd9 := by decide

/-- V13 -/
theorem test_bitwise :
    not32 0xefcdab89 = 0x10325476 ∧ and32 0xefcdab89 0x98badcfe = 0x88888888 ∧
      or32 0x0f0f0f0f 0x00ff00ff = 0x0fff0fff ∧ xor32 0x0f0f0f0f 0x00ff00ff = 0x0ff00ff0 := by decide

/-- V14 -/
theorem test_round_functions :
    f0 0x0f0f0f0f 0x00ff00ff 0x33333333 = 0x303f303f ∧ f1 0x0f0f0f0f 0x00ff00ff 0x33333333 = 0x03cf03cf ∧
      f2 0x0f0f0f0f 0x00ff00ff 0x33333333 = 0x3cc33cc3 ∧ f3 0x0f0f0f0f 0x00ff00ff 0x33333333 = 0xcf30cf30 := by
  decide

/-- V15: constants at the stage edges. -/
theorem test_rom :
    rom.length = 64 ∧ roundConstant 0 = 0xd76aa478 ∧ roundConstant 15 = 0x49b40821 ∧
      roundConstant 16 = 0xf61e2562 ∧ roundConstant 33 = 0x8771f681 ∧ roundConstant 47 = 0xc4ac5665 ∧
      roundConstant 48 = 0xf4292244 ∧ roundConstant 63 = 0xeb86d391 := by decide

/-- The column `g(i)` of R273. -/
theorem test_message_index :
    (List.range 64).map (fun i => (messageIndex (BitVec.ofNat 6 i)).toNat) =
      [0, 1, 2, 3, 4, 5, 6, 7, 8, 9, 10, 11, 12, 13, 14, 15] ++
      [1, 6, 11, 0, 5, 10, 15, 4, 9, 14, 3, 8, 13, 2, 7, 12] ++
      [5, 8, 11, 14, 1, 4, 7, 10, 13, 0, 3, 6, 9, 12, 15, 2] ++
      [0, 7, 14, 5, 12, 3, 10, 1, 8, 15, 6, 13, 4, 11, 2, 9] := by
  decide

/-- The column `s(i)` of R273. -/
theorem test_shift_amount :
    (List.range 64).map (fun i => shiftAmount (BitVec.ofNat 6 i)) =
      [7, 12, 17, 22, 7, 12, 17, 22, 7, 12, 17, 22, 7, 12, 17, 22] ++
      [5, 9, 14, 20, 5, 9, 14, 20, 5, 9, 14, 20, 5, 9, 14, 20] ++
      [4, 11, 16, 23, 4, 11, 16, 23, 4, 11, 16, 23, 4, 11, 16, 23] ++
      [6, 10, 15, 21, 6, 10, 15, 21, 6, 10, 15, 21, 6, 10, 15, 21] := by
  decide

/-! ## Reads (V28) -/

theorem test_reads_from_reset :
    shows (bus 0x00 0 State.reset) (·.rdata) = some (some 0) ∧
    shows (bus 0x08 0 State.reset) (·.rdata) = some (some 1) ∧
    shows (bus 0x24 0 State.reset) (·.rdata) = some (some 0xefcdab89) ∧
    shows (bus 0x30 0 State.reset) (·.rdata) = some (some 0) ∧
    shows (bus 0x18 0 State.reset) (fun t => (t.rdata, status t)) = some (some 0, 1) := by decide

theorem test_reads_after_update :
    shows (bus 0x04 0 abc) (·.rdata) = some (some 0x61626300) ∧
    shows (bus 0x08 0 abc) (·.rdata) = some (some 0x00000301) ∧
    shows (bus 0x0c 0 abc) (·.rdata) = some (some 3) ∧
    shows (bus 0x10 0 abc) (·.rdata) = some (some 0x18) ∧
    shows (bus 0x14 0 abc) (·.rdata) = some (some 0) ∧
    shows (bus 0x40 0 abc) (·.rdata) = some (some 0x61626300) ∧
    shows (bus 0x44 0 abc) (·.rdata) = some (some 0) := by decide

/-- V29: `RD @0x02`, and `RD @0x03` is as misaligned. -/
theorem test_reads_misaligned :
    shows (bus 0x02 0 State.reset) (fun t => (t.rdata, status t)) = some (some 0, 0x00010005) ∧
    shows (bus 0x03 0 State.reset) (fun t => (t.rdata, status t)) = some (some 0, 0x00010005) := by decide

/-! ## Writes (V28, V29) -/

theorem test_context_writes :
    shows (bus 0x8c 0xffffffc5 State.reset) (fun t => (t.bufLen, status t)) = some (5, 0x00000501) ∧
    shows (bus 0x94 1 State.reset) (fun t => (t.len, status t)) = some (0x100000000, 1) ∧
    shows (bus 0x90 0xfffffff8 State.reset) (fun t => (lenLo t.len, status t)) = some (0xfffffff8, 1) ∧
    shows (bus 0xa0 0x01234567 State.reset) (fun t => (t.h[0], status t)) = some (0x01234567, 1) ∧
    shows (bus 0xfc 0xa5a5a5a5 State.reset) (fun t => (t.buf[15], t.bufLen)) = some (0xa5a5a5a5, 0) := by decide

theorem test_context_writes_while_busy :
    shows (bus 0xa0 0 busy) (fun t => (t.h[0], status t)) = some (0x67452301, 0x00060004) ∧
    shows (bus 0x8c 5 busy) status = some 0x00060004 := by decide

theorem test_data_write_while_busy :
    shows (bus 0x84 0x11223344 busy) (fun t => (t.data, status t)) = some (0x11223344, 0) := by decide

theorem test_dropped_writes :
    shows (bus 0x85 1 State.reset) status = some 0x00010005 ∧
    shows (bus 0x8b 1 State.reset) status = some 0x00010005 ∧
    shows (bus 0x8a 1 State.reset) status = some 0x00010005 ∧
    shows (bus 0x88 0 State.reset) status = some 0x00020005 ∧
    shows (bus 0xb0 0 State.reset) status = some 0x00020005 ∧
    shows (bus 0x9c 1 State.reset) status = some 0x00030005 := by decide

/-! ## Commands (V26, V27, V29) -/

/-- V29: legality before phase, and CMD_BUSY. -/
theorem test_command_errors :
    shows (bus 0x80 0x04 State.reset) status = some 0x00040005 ∧
    shows (bus 0x80 0x52 busy) status = some 0x00040004 ∧
    shows (bus 0x80 0x03 busy) status = some 0x00050004 ∧
    shows (bus 0x80 0x02 busy) status = some 0x00050004 := by decide

/-- V26: NOP while busy. -/
theorem test_nop_while_busy : shows (bus 0x80 0 busy) status = some 0 := by decide

/-- V26: RESET keeps DATA. -/
theorem test_reset_command :
    shows (bus 0x80 1 busy) (fun t => (status t, t.h[0], t.len, t.data, t.m[0])) =
      some (1, 0x67452301, 0, 0x61626300, 0) := by decide

/-- V26: NB = 0. -/
theorem test_update_none :
    shows (bus 0x80 0x02 abc) (fun t => (status t, t.len, t.data)) = some (0x301, 24, 0x61626300) := by decide

/-- V27: one byte wraps L. -/
theorem test_update_wraps :
    shows (bus 0x80 0x12 { State.reset with data := 0x61000000, len := 0xfffffffffffffff8 })
      (fun t => (t.len, status t)) = some (0, 0x00000109) := by decide

/-- V5: "bc" after "a". -/
theorem test_update_two :
    shows (bus 0x80 0x22
        { State.reset with
          data := 0x62630000, buf := (Vector.replicate 16 0).set 0 0x61000000, bufLen := 1, len := 8 })
      (fun t => (t.buf[0], status t)) = some (0x61626300, 0x00000301) := by decide

/-- V2: "abc" at once. -/
theorem test_update_three :
    shows (bus 0x80 0x32 { State.reset with data := 0x61626300 })
      (fun t => (t.buf[0], t.len, status t)) = some (0x61626300, 24, 0x00000301) := by decide

/-- V25: two bytes fill the block, two follow it. -/
theorem test_update_four_fills :
    shows (bus 0x80 0x42 nearlyFull) (fun t => (t.buf[0], t.len, status t)) = some (0x40410000, 528, 0x00000200) ∧
    shows (bus 0x80 0x42 nearlyFull) (fun t => (t.phase, t.m[0], t.m[15])) =
      some (.round, 0x03020100, 0x3f3e3d3c) := by decide

/-- V2: the block of "abc". -/
theorem test_finalize_one_block :
    shows (bus 0x80 0x03 abc) (fun t => (t.m[0], t.m[13], t.m[14], t.m[15], t.fstate, status t)) =
      some (0x80636261, 0, 0x18, 0, .last, 0) := by decide

/-- V4, V24: 55 and 56 bytes. -/
theorem test_finalize_boundary :
    shows (bus 0x80 0x03 (holding 55)) (·.fstate) = some .last ∧
      shows (bus 0x80 0x03 (holding 56)) (fun t => (t.fstate, t.m[14])) = some (.pad2, 0x00000080) := by decide

/-! ## The engine's steps -/

/-- V20: round 0 of "abc". -/
theorem test_round_zero :
    shows (turn busy) (fun t => (t.a, t.b, t.c, t.d, t.r)) =
      some (0x10325476, 0xd6d117b4, 0xefcdab89, 0x98badcfe, 1) := by decide

/-- V21: rounds 16, 32 and 63 from the rows before them. -/
theorem test_round_stages :
    shows (turn { busy with
        a := 0xdda9b9a6, b := 0x72aff2e0, c := 0xe396856b, d := 0xa1051895, r := 16 }) (fun t => (t.b, t.r)) =
      some (0x3e9e9126, 17) ∧
    shows (turn { busy with
        a := 0x790a77fb, b := 0x726342d3, c := 0xa62884aa, d := 0x9f47e4f8, r := 32 }) (fun t => (t.b, t.r)) =
      some (0xb3707ebf, 33) ∧
    shows (turn { busy with
        a := 0x4f9dbe3f, b := 0x624d8cb2, c := 0x310ade8f, d := 0x7327d604, r := 62 }) (fun t => (t.b, t.r)) =
      some (0xe484b9d8, 63) := by decide

/-- V21: the step for round 63 leaves `r` and moves to ACCUM. -/
theorem test_round_last :
    shows (turn { busy with
        a := 0x7327d604, b := 0xe484b9d8, c := 0x624d8cb2, d := 0x310ade8f, r := 63 })
      (fun t => (t.b, t.r, t.phase)) = some (0xc08226b3, 63, .accum) := by decide

/-- V21: the digest of "abc" leaves ACCUM. -/
theorem test_accum_last :
    shows (turn lastRound) (fun t => (t.dout, t.h, t.len, status t)) =
      some (#v[0x90015098, 0x3cd24fb0, 0xd6963f7d, 0x28e17f72], iv, 0, 3) := by decide

/-- R209, R210: the two other ends of a block. -/
theorem test_accum_goes_on :
    shows (turn { lastRound with fstate := .none }) (fun t => (t.h, t.r, status t)) =
      some (#v[0x98500190, 0xb04fd23c, 0x7d3f96d6, 0x727fe128], 0, 1) ∧
    shows (turn { lastRound with fstate := .pad2 }) (fun t => (t.fstate, t.phase, t.a, t.m[14])) =
      some (.last, .round, 0x98500190, 24) := by decide

/-- R202: no step in IDLE, none in phase 11. -/
theorem test_no_step :
    shows (turn abc) id = some { abc with inputs := [] } ∧
      shows (turn { abc with phase := .unused }) id = none := by decide

/-- R330, R333: hardware reset in mid-FINALIZE. -/
theorem test_hardware_reset :
    shows (step { busy with inputs := [.reset] }) id = some State.reset ∧ status State.reset = 1 := by decide

/-! ## The host's program (R110) -/

theorem test_assembly_forms :
    Assembly.transaction (.wr .data 7) = .host 4 0x84 7 ∧
    Assembly.transaction (.wr (.raw 0x7f) 7) = .host 4 0xff 7 ∧
    Assembly.transaction (.rd (.buf 15)) = .host 4 0x7c 0 ∧
    Assembly.transaction .waitReady = .host 4 0x08 0 := by decide

theorem test_assembly_hash :
    Assembly.hash [0x61, 0x62, 0x63, 0x64, 0x65] =
      [.wr .cmd 0x01, .wr .data 0x61626364, .wr .cmd 0x42, .waitReady, .wr .data 0x65000000, .wr .cmd 0x12, .waitReady,
        .wr .cmd 0x03, .waitReady, .rd (.dout 0), .rd (.dout 1), .rd (.dout 2), .rd (.dout 3)] := by decide

/-- WAITRDY polls again while READY = 0, and ends with READY = 1. -/
theorem test_assembly_waitReady :
    (∃ t, Assembly.runProgram [.host, .engine] [.waitReady] busy = .next (t, [.waitReady])) ∧
      ∃ t, Assembly.runProgram [.host, .engine] [.waitReady] abc = .next (t, []) := ⟨⟨_, rfl⟩, ⟨_, rfl⟩⟩

/-! ## Witnesses: for each obligation with hypotheses, data that meet them all, at the boundaries -/

theorem witness_DecodeOfEncodeIsTheInstruction :
    wellFormed (.reservedCmd 0xffffffff) = true ∧ wellFormed (.reservedCmd 4) = true ∧
      wellFormed (.wrBuf 15 0xffffffff) = true := by decide

theorem witness_AddressesSelectTheirRegister :
    ∀ ctl ∈ ([0x00, 0x7c, 0x80, 0xfc] : List (BitVec 8)),
      ctl.toNat % 4 = 0 ∧ (ctl.toNat < 128 ∨ 128 ≤ ctl.toNat) := by decide

theorem witness_EightCommandWordsAreLegal :
    (0x52 : Word) ∉ legalWords ∧ (0x80 : Word) ∉ legalWords ∧ (0x42 : Word) ∈ legalWords := by decide

theorem witness_SelectorChoosesTheStep :
    State.reset.phase = .idle ∧ lastRound.phase = .accum ∧ { busy with phase := .unused }.phase = .unused ∧
      (busy.phase = .round ∧ busy.r.toNat / 16 = (0 : Fin 4).val) ∧
      { busy with r := 63 }.r.toNat / 16 = (3 : Fin 4).val := by decide

theorem witness_StepRunsTheHostsTransaction :
    { busy with inputs := [.host 4 0xff 7, .engine] }.everReset = true ∧
      { busy with inputs := [.host 4 0xff 7, .engine] }.inputs = .host 4 0xff 7 :: [.engine] ∧
      decode (.bus 4 0xff 7) = .ok (.wrMisalignedOdd 63 7) := by decide

theorem witness_StepRunsTheSelectedEngineStep :
    (busy.everReset = true ∧ busy.inputs = []) ∧ { busy with inputs := [.engine] }.inputs = .engine :: [] := by
  decide

theorem witness_HardwareResetSetsEveryRegister :
    { lastRound with inputs := [.reset, .engine], everReset := false }.inputs = .reset :: [.engine] := by decide

theorem witness_HardwareResetLeavesTheResetState :
    { abc with inputs := [.reset, .engine] }.inputs = .reset :: [.engine] := by decide

theorem witness_NothingRunsBeforeTheFirstReset :
    { busy with everReset := false, inputs := [.host 4 0x08 0] }.everReset = false ∧
      { busy with everReset := false, inputs := [.host 4 0x08 0] }.inputs = .host 4 0x08 0 :: [] ∧
      { busy with everReset := false, inputs := [.engine] }.inputs = .engine :: [] := by decide

theorem witness_OtherWidthsAreRefused :
    (3 ≠ 4 ∧ 5 ≠ 4) ∧ { busy with inputs := [.host 5 0x08 0] }.everReset = true ∧
      { busy with inputs := [.host 5 0x08 0] }.inputs = .host 5 0x08 0 :: [] := by decide

theorem witness_ReadsAnswerTheRegisterOfTheirAddress :
    readAddress .rdCmd = some 0x00 ∧ readAddress (.rdRsvd 1) = some 0x1c ∧ readAddress (.rdH 0) = some 0x20 ∧
      readAddress (.rdH 3) = some 0x2c ∧ readAddress (.rdDout 0) = some 0x30 ∧ readAddress (.rdDout 3) = some 0x3c ∧
      readAddress (.rdBuf 0) = some 0x40 ∧ readAddress (.rdBuf 15) = some 0x7c := by decide

theorem witness_StatusIsComposedOfItsFields :
    busy.err = false ∧ State.reset.err = false ∧ firstFailure State.reset 0x01 0 = some .misaligned ∧
      firstFailure busy 0x83 1 = some .misaligned ∧ firstFailure busy 0xb0 1 = some .roWrite ∧
      firstFailure busy 0x98 1 = some .rsvdAddr ∧ firstFailure State.reset 0x80 0x52 = some .rsvdCmd ∧
      firstFailure busy 0x80 0x03 = some .cmdBusy ∧ firstFailure busy 0x8c 0 = some .ctxBusy := by decide

theorem witness_MisalignedAccessesAreDropped :
    (0x01 : BitVec 8).toNat % 4 ≠ 0 ∧ (0x7f : BitVec 8).toNat % 4 ≠ 0 ∧ (0x7f : BitVec 8).toNat < 128 ∧
      (0x81 : BitVec 8).toNat % 4 ≠ 0 ∧ ¬ (0x81 : BitVec 8).toNat < 128 := by decide

theorem witness_DataWriteIsAcceptedInEveryPhase : (0x00 : Nat) ≠ 0x04 ∧ (0x7c : Nat) ≠ 0x04 := by decide

theorem witness_ContextWritesStoreWhenReadyElseRaise :
    (writeAddress (.wrBufLen 0xffffffff) = some (0x0c, 0xffffffff) ∧ isContextAddress 0x0c = true) ∧
      (writeAddress (.wrH 3 1) = some (0x2c, 1) ∧ isContextAddress 0x2c = true) ∧
      (writeAddress (.wrBuf 0 1) = some (0x40, 1) ∧ isContextAddress 0x40 = true) ∧
      (writeAddress (.wrBuf 15 1) = some (0x7c, 1) ∧ isContextAddress 0x7c = true) ∧
      State.reset.phase = .idle ∧ busy.phase ≠ .idle := by decide

theorem witness_ForbiddenWritesRaiseTheirCause : (0x43 : Word) ∉ legalWords := by decide

/-- Each check of R305 decides somewhere, with the later checks failing as well where they can. -/
theorem witness_FirstFailedCheckDecides :
    firstFailure busy 0x8b 1 = some .misaligned ∧ firstFailure busy 0x88 1 = some .roWrite ∧
      firstFailure busy 0xbc 1 = some .roWrite ∧ firstFailure busy 0x9c 1 = some .rsvdAddr ∧
      firstFailure busy 0x80 0x52 = some .rsvdCmd ∧ firstFailure busy 0x80 0x42 = some .cmdBusy ∧
      firstFailure busy 0xfc 1 = some .ctxBusy ∧ firstFailure busy 0x80 1 = none ∧
      firstFailure State.reset 0x80 0x42 = none := by decide

theorem witness_ErrIsStickyUntilReset :
    (shows (bus 0x80 0x52 { busy with err := true, ecause := .cmdBusy }) (fun t => (t.err, t.ecause)) =
      some (true, .cmdBusy)) ∧
    (shows (bus 0x80 0x01 { busy with err := true, ecause := .cmdBusy }) (fun t => (t.err, t.ecause)) =
      some (false, .none)) ∧
    (shows (step { busy with err := true, ecause := .cmdBusy, inputs := [.reset] }) (·.err) = some false) ∧
    (busy.err = false ∧ firstFailure busy 0x80 0x52 = some .rsvdCmd ∧ shows (bus 0x80 0x52 busy) (·.err) = some true) :=
  by decide

theorem witness_WriteToCmdRunsTheCommand :
    (0x52 : Word) ∉ legalWords ∧ busy.phase ≠ .idle ∧ (0x42 : Word) ∈ legalWords ∧ (0x42 : Word) ≠ 0x00 ∧
      (0x42 : Word) ≠ 0x01 := by decide

theorem witness_NopAndIdleChangeNothing :
    { abc with inputs := [.engine] }.everReset = true ∧ { abc with inputs := [.engine] }.phase = .idle ∧
      { abc with inputs := [.engine] }.inputs = .engine :: [] := by decide

theorem witness_BusyCommandsAreDropped : busy.phase ≠ .idle ∧ lastRound.phase ≠ .idle := by decide

theorem witness_UpdateAppendsItsBytes :
    (abc.phase = .idle ∧ abc.bufLen.toNat + (0 : Fin 5).val < 64) ∧
      ((holding 59).phase = .idle ∧ (holding 59).bufLen.toNat + (4 : Fin 5).val < 64) ∧
      ((holding 60).phase = .idle ∧ 64 ≤ (holding 60).bufLen.toNat + (4 : Fin 5).val) ∧
      64 ≤ (holding 63).bufLen.toNat + (4 : Fin 5).val := by decide

theorem witness_UpdateCountsItsBits : { abc with len := 0xffffffffffffffe0 }.phase = .idle := by decide

theorem witness_FinalizePadsAndLatches :
    ((holding 55).phase = .idle ∧ (holding 55).bufLen.toNat ≤ 55) ∧
      ((holding 56).phase = .idle ∧ 56 ≤ (holding 56).bufLen.toNat) ∧ 56 ≤ (holding 63).bufLen.toNat ∧
      (holding 0).bufLen.toNat ≤ 55 := by decide

theorem witness_EngineTurnComputesItsRound :
    ({ busy with inputs := [.engine] }.everReset = true ∧ { busy with inputs := [.engine] }.inputs = .engine :: [] ∧
      busy.phase = .round ∧ busy.r.toNat / 16 = (0 : Fin 4).val) ∧
      { busy with r := 63, inputs := [.engine] }.r.toNat / 16 = (3 : Fin 4).val := by decide

theorem witness_AccumEndsTheBlock :
    { lastRound with fstate := .none }.fstate = .none ∧ { lastRound with fstate := .pad2 }.fstate = .pad2 ∧
      lastRound.fstate = .last := by decide

theorem witness_EngineStepsOnlyInRoundAndAccum :
    ({ busy with inputs := [.engine] }.everReset = true ∧ { busy with inputs := [.engine] }.inputs = .engine :: []) ∧
      abc.phase = .idle ∧ (busy.phase = .round ∧ busy.r.toNat / 16 = (0 : Fin 4).val) ∧
      { busy with r := 63 }.r.toNat / 16 = (3 : Fin 4).val ∧ lastRound.phase = .accum ∧
      { busy with phase := .unused }.phase = .unused := by decide

theorem witness_RotateMovesEachBit : 0 < 32 ∧ 31 < 32 ∧ 32 ≤ 32 := by decide

theorem witness_RegistersAreWrittenOnlyByTheirWriters :
    (∃ t, exec (.wrH 0 5) abc = .next t ∧ t.h ≠ abc.h) ∧
      (∃ t, exec (.accum 63) { lastRound with fstate := .none } = .next t ∧ t.h ≠ lastRound.h) ∧
      (∃ t, exec (.wrData 5) abc = .next t ∧ t.data ≠ abc.data) ∧
      (∃ t, exec (.accum 63) lastRound = .next t ∧ t.dout ≠ lastRound.dout) ∧
      ∃ t, exec .reset { abc with h := #v[0, 0, 0, 0] } = .next t ∧ t.h ≠ #v[0, 0, 0, 0] :=
  ⟨⟨_, rfl, by decide⟩, ⟨_, rfl, by decide⟩, ⟨_, rfl, by decide⟩, ⟨_, rfl, by decide⟩, ⟨_, rfl, by decide⟩⟩

theorem witness_DvalidLifecycle :
    { lastRound with inputs := [.reset] }.inputs = .reset :: [] ∧ (∃ t, exec (.accum 63) lastRound = .next t) ∧ (∃ t, exec .reset { abc with dvalid := true } = .next t) ∧
      (∃ t, exec (.wrCmd 3) { abc with dvalid := true } = .next t) ∧
      ∃ t, exec .updateNb1 { abc with dvalid := true } = .next t :=
  ⟨rfl, ⟨_, rfl⟩, ⟨_, rfl⟩, ⟨_, rfl⟩, ⟨_, rfl⟩⟩

theorem witness_LovfLifecycle :
    { lastRound with inputs := [.reset] }.inputs = .reset :: [] ∧ (∃ t, exec (.wrCmd 1) { abc with lovf := true } = .next t) ∧
      (∃ t, exec .updateNb4 { abc with len := 0xffffffffffffffe0 } = .next t) ∧
      (∃ t, exec .updateNb4 busy = .next t) ∧ ∃ t, exec .finalize { abc with lovf := true } = .next t :=
  ⟨rfl, ⟨_, rfl⟩, ⟨_, rfl⟩, ⟨_, rfl⟩, ⟨_, rfl⟩⟩

theorem witness_ReadyChangesOnlyAsStated :
    shows (bus 0x80 0x03 abc) (fun t => (abc.phase, t.phase)) = some (.idle, .round) ∧
      shows (bus 0x80 0x42 (holding 60)) (fun t => ((holding 60).phase, t.phase)) = some (.idle, .round) ∧
      shows (turn lastRound) (fun t => (lastRound.phase, t.phase)) = some (.accum, .idle) ∧
      shows (bus 0x80 0x01 busy) (fun t => (busy.phase, t.phase)) = some (.round, .idle) ∧
      shows (step { busy with inputs := [.reset] }) (·.phase) = some .idle := by decide

theorem witness_OnlyReadsAnswerTheBus :
    (∃ t, exec .rdData abc = .next t ∧ t.rdata ≠ abc.rdata) ∧
      (∃ t, exec (.rdMisalignedOdd 0) abc = .next t ∧ t.rdata ≠ abc.rdata) ∧
      ∃ t, exec (.rdMisalignedTwo 31) abc = .next t ∧ t.rdata ≠ abc.rdata :=
  ⟨⟨_, rfl, by decide⟩, ⟨_, rfl, by decide⟩, ⟨_, rfl, by decide⟩⟩

/-- A block in flight, a FINALIZE in flight and an unreset machine meet the invariant, and each steps. -/
theorem witness_StepKeepsTheLegalStates :
    (Inv busy ∧ ∃ t, step busy = .next t) ∧
      (Inv { busy with fstate := .none } ∧ ∃ t, step { busy with fstate := .none } = .next t) ∧
      (Inv { busy with everReset := false, inputs := [.reset] } ∧
        ∃ t, step { busy with everReset := false, inputs := [.reset] } = .next t) := by
  refine ⟨⟨fun _ => ?_, _, rfl⟩, ⟨fun _ => ?_, _, rfl⟩, ⟨fun h => ?_, _, rfl⟩⟩
  · constructor <;> decide
  · constructor <;> decide
  · cases h

theorem witness_StepsUntilReady :
    (State.reset.everReset = true ∧ State.reset.phase = .idle) ∧
      (0 = if (holding 59).bufLen.toNat + (4 : Fin 5).val < 64 then 0 else 65) ∧
      (65 = if (holding 60).bufLen.toNat + (4 : Fin 5).val < 64 then 0 else 65) ∧
      (65 = if (holding 55).bufLen.toNat ≤ 55 then 65 else 130) ∧
      130 = if (holding 56).bufLen.toNat ≤ 55 then 65 else 130 := by decide

theorem witness_EngineAlwaysReturnsToReady :
    (busy.everReset = true ∧ Inv busy) ∧ Inv { busy with fstate := .pad2, r := 0 } ∧ Inv lastRound := by
  refine ⟨⟨rfl, fun _ => ?_⟩, fun _ => ?_, fun _ => ?_⟩ <;> constructor <;> decide

theorem witness_EngineRunIsCompress :
    busy.everReset = true ∧ busy.phase = .round ∧ busy.r = 0 ∧ busy.a = busy.h[0] ∧ busy.b = busy.h[1] ∧
      busy.c = busy.h[2] ∧ busy.d = busy.h[3] ∧ busy.fstate = .last ∧ { busy with fstate := .none }.fstate = .none ∧
      { busy with fstate := .pad2 }.fstate = .pad2 := by decide

/-- The states of V2 and of reset represent "abc" and the empty message. -/
theorem witness_Represents : Represents State.reset [] ∧ Represents abc [0x61, 0x62, 0x63] := by
  refine ⟨⟨rfl, rfl, (absorb_zero _).symm, rfl, ?_, rfl⟩, ⟨rfl, rfl, (absorb_zero _).symm, rfl, ?_, rfl⟩⟩ <;> decide

theorem witness_UpdateStreamsTheMessage :
    abc.everReset = true ∧ Represents abc [0x61, 0x62, 0x63] := ⟨rfl, witness_Represents.2⟩

theorem witness_FinalizeOutputsTheDigest :
    State.reset.everReset = true ∧ Represents State.reset [] ∧ Represents abc [0x61, 0x62, 0x63] :=
  ⟨rfl, witness_Represents.1, witness_Represents.2⟩

/-- After HASH of "a" has polled once for FINALIZE and found READY = 0 (R110). -/
def hashing : State :=
  { State.reset with
    data := 0x61000000, len := 8, m := ((Vector.replicate 16 0).set 0 0x00008061).set 14 8,
    a := 0x67452301, b := 0xefcdab89, c := 0x98badcfe, d := 0x10325476, phase := .round, fstate := .last,
    rdata := some 0 }

/-- HASH of "a" to that point: one poll for the UPDATE, one for FINALIZE. -/
theorem hash_to_first_poll :
    Assembly.runProgram (List.replicate 6 .host) (Assembly.hash [0x61]) State.reset =
      .next (hashing, .waitReady :: Assembly.readDigest) := by rfl

/-- HASH of "a" under a schedule whose two WAITRDYs make one poll and two. -/
theorem witness_HashLeavesTheDigest :
    State.reset.everReset = true ∧ ∃ us t, Assembly.Turn.reset ∉ us ∧
      Assembly.runProgram us (Assembly.hash [0x61]) State.reset = .next (t, []) := by
  have e := run_block hashing hashing.inputs rfl rfl rfl rfl rfl rfl rfl 0
  obtain ⟨w, -, -, h⟩ := accumulate_afterRounds hashing 64 (List.replicate 0 .engine ++ hashing.inputs)
  rw [h rfl] at e
  have run : ∀ u : State, u.everReset = true → u.phase = .idle →
      core.run 65 { hashing with inputs := List.replicate 65 .engine ++ hashing.inputs } = .next u →
      Assembly.runProgram (List.replicate 6 .host ++ (List.replicate 65 .engine ++ List.replicate 5 .host))
        (Assembly.hash [0x61]) State.reset = .next (respond (digestWord u.dout 3) (respond (status u) u), []) := by
    intro u he hp hu
    rw [Assembly.runProgram_append, hash_to_first_poll]
    dsimp only
    rw [Assembly.runProgram_append, Assembly.runProgram_engines 65 _ hashing u rfl hu]
    refine (Assembly.runProgram_poll _ _ he).trans ?_
    rw [if_pos hp]
    exact Assembly.runProgram_readDigest [] he
  exact ⟨rfl, _, _, by decide, run _ rfl rfl e⟩

/-- A poll of STATUS between two turns of the engine. -/
theorem witness_PollingDoesNotDisturbTheEngine :
    busy.everReset = true ∧ (∀ x ∈ [Input.engine, .host 4 0x08 0, .engine], isEngineOrRead x = true) ∧
      ∃ t, core.run 3 { busy with inputs := [.engine, .host 4 0x08 0, .engine] ++ [] } = .next t :=
  ⟨rfl, by decide, _, rfl⟩

/-- Two idle engines with "abc" buffered that differ beyond the context: in the bytes past `bufLen`, `M`, DVALID and
ERR. -/
theorem witness_ContextDeterminesTheCommands :
    SameContext abc { abc with
        buf := (abc.buf.set 0 0x616263ff).set 15 7, m := Vector.replicate 16 9, dvalid := true, err := true } ∧
      abc.data = { abc with dvalid := true }.data := by
  refine ⟨⟨⟨rfl, rfl⟩, ⟨rfl, rfl⟩, rfl, rfl, rfl, ?_⟩, rfl⟩
  decide

end Sys2Proof.Tests
end

section
/-! The host's turn: what the fetch finds when a host transaction is next, and the instruction that the step runs
(00_scope.md R13, 30_encoding.md R100). -/

namespace Sys2Proof.Machine

/-- After the first hardware reset nothing stops the transition that is fetched (R53). -/
theorem afterFirstReset_of_everReset {s : State} (h : s.everReset = true) (f : Fetched) :
    afterFirstReset s f = f := if_pos h

/-- The fetch takes a listed host transaction off the list and hands it to the decoder, whatever its width. -/
theorem fetch_host {s : State} {width : Nat} {ctl : BitVec 8} {wdata : Word} {rest : List Input}
    (hreset : s.everReset = true) (hin : s.inputs = .host width ctl wdata :: rest) :
    fetch s = hostTurn width ctl wdata { s with inputs := rest } := by
  simp only [fetch, hin, afterFirstReset_of_everReset hreset]

/-- A transaction that decodes runs its instruction in the state it was taken from. -/
theorem hostTurn_of_decode {width : Nat} {ctl : BitVec 8} {wdata : Word} {i : Instr}
    (hdec : decode (.bus width ctl wdata) = .ok i) (s : State) :
    hostTurn width ctl wdata s = .run i s := by
  simp only [hostTurn, hdec]

/-- A step whose fetch finds an instruction is that instruction's `exec`. -/
theorem step_of_fetch_run {s t : State} {i : Instr} (h : fetch s = .run i t) : step s = exec i t := by
  simp only [step, h]

/-- Settles O8: the fetch finds the host's transaction, its words decode to `i`, and the step runs `i`. -/
theorem stepRunsTheHostsTransaction : Obligations.StepRunsTheHostsTransaction := by
  intro s ctl wdata rest i hreset hin hdec
  have hfetch : fetch s = .run i { s with inputs := rest } :=
    (fetch_host hreset hin).trans (hostTurn_of_decode hdec _)
  exact step_of_fetch_run hfetch

end Sys2Proof.Machine
end

section
/-! STATUS and the failed checks (10_state.md R46, 60_exceptions.md R301, R303, R305): the fields of STATUS, and what a
bus transaction does whose first failed check is `c`. -/

namespace Sys2Proof.Machine

open Sys2Proof.Claims

/-! ## STATUS -/

theorem code_toNat (c : Cause) : c.code.toNat = causeCode c := by cases c <;> rfl

theorem causeCode_le (c : Cause) : causeCode c ≤ 6 := by cases c <;> decide

/-- R46: the four flags of STATUS. -/
theorem status_flags (s : State) :
    (status s)[0] = ready s ∧ (status s)[1] = s.dvalid ∧ (status s)[2] = s.err ∧ (status s)[3] = s.lovf := by
  simp only [← BitVec.getLsbD_eq_getElem, status, BitVec.getLsbD_setWidth, BitVec.getLsbD_append]
  simp

/-- R46: the numeric fields of STATUS and the zero bits between them. -/
theorem status_fields (s : State) :
    (status s).toNat / 16 % 16 = 0 ∧ (status s).toNat / 2 ^ 8 % 64 = s.bufLen.toNat ∧
      (status s).toNat / 2 ^ 14 % 4 = 0 ∧ (status s).toNat / 2 ^ 16 = causeCode s.ecause := by
  have hlen := s.bufLen.isLt
  have hlovf := s.lovf.toNat_lt
  have herr := s.err.toNat_lt
  have hdvalid := s.dvalid.toNat_lt
  have hready := (ready s).toNat_lt
  rw [status_toNat, code_toNat]
  omega

/-! ## What each failed check does (R303) -/

/-- A row found at one WDATA is the row at every WDATA. -/
theorem decodeBus_of_zero {ctl : BitVec 8} {i : Instr} (h : decodeBus ctl 0 = i) (v : Word) :
    decodeBus ctl v = withValue v i := by rw [decodeBus_withValue, h]

/-- A misaligned access raises MISALIGNED, and a misaligned read returns 0 (R141, R153). -/
theorem exec_misaligned (ctl : BitVec 8) (v : Word) (s : State) (h : ctl.toNat % 128 % 4 ≠ 0) :
    exec (decodeBus ctl v) s =
      .next (if ctl.toNat < 128 then respond 0 (raiseErr .misaligned s) else raiseErr .misaligned s) := by
  have hbits : ∀ ctl : BitVec 8, ctl.toNat % 128 % 4 ≠ 0 → ctl[0] = true ∨ ctl[1] = true := by decide
  have hwe : ∀ ctl : BitVec 8, ctl[7] = decide (¬ ctl.toNat < 128) := by decide
  simp only [decodeBus, hwe ctl]
  by_cases h0 : ctl[0] = true
  · by_cases hr : ctl.toNat < 128 <;> simp only [h0, hr] <;> rfl
  · have h1 := (hbits ctl h).resolve_left h0
    by_cases hr : ctl.toNat < 128 <;> simp only [h0, h1, hr] <;> rfl

/-- A write to STATUS or DOUT raises RO_WRITE (R145, R150). -/
theorem exec_readOnly_write (ctl : BitVec 8) (v : Word) (s : State) (hw : ctl.toNat / 128 = 1)
    (hal : ctl.toNat % 128 % 4 = 0)
    (ha : ctl.toNat % 128 = 0x08 ∨ (0x30 ≤ ctl.toNat % 128 ∧ ctl.toNat % 128 < 0x40)) :
    exec (decodeBus ctl v) s = .next (raiseErr .roWrite s) := by
  have row : ∀ ctl : BitVec 8, ctl.toNat / 128 = 1 → ctl.toNat % 128 % 4 = 0 →
      (ctl.toNat % 128 = 0x08 ∨ (0x30 ≤ ctl.toNat % 128 ∧ ctl.toNat % 128 < 0x40)) →
      decodeBus ctl 0 = .wrStatus 0 ∨ ∃ i, decodeBus ctl 0 = .wrDout i 0 := by decide
  rcases row ctl hw hal ha with h | ⟨i, h⟩ <;> rw [decodeBus_of_zero h v] <;> rfl

/-- A write to 0x18 or 0x1C raises RSVD_ADDR (R152). -/
theorem exec_reserved_write (ctl : BitVec 8) (v : Word) (s : State) (hw : ctl.toNat / 128 = 1)
    (ha : ctl.toNat % 128 = 0x18 ∨ ctl.toNat % 128 = 0x1C) :
    exec (decodeBus ctl v) s = .next (raiseErr .rsvdAddr s) := by
  have row : ∀ ctl : BitVec 8, ctl.toNat / 128 = 1 → (ctl.toNat % 128 = 0x18 ∨ ctl.toNat % 128 = 0x1C) →
      ∃ k, decodeBus ctl 0 = .wrRsvd k 0 := by decide
  obtain ⟨k, h⟩ := row ctl hw ha
  rw [decodeBus_of_zero h v]
  rfl

/-- A write to address 0x00 is `Command(v)` (R143). -/
theorem exec_cmd_write (ctl : BitVec 8) (v : Word) (s : State) (hw : ctl.toNat / 128 = 1)
    (ha : ctl.toNat % 128 = 0x00) : exec (decodeBus ctl v) s = command v s := by
  have row : ∀ ctl : BitVec 8, ctl.toNat / 128 = 1 → ctl.toNat % 128 = 0x00 → decodeBus ctl 0 = .wrCmd 0 := by decide
  rw [decodeBus_of_zero (row ctl hw ha) v]
  rfl

/-- With READY = 0 a context write raises CTX_BUSY (R154). -/
theorem exec_context_write_busy (ctl : BitVec 8) (v : Word) (s : State) (hw : ctl.toNat / 128 = 1)
    (hal : ctl.toNat % 128 % 4 = 0) (ha : isContextAddress (ctl.toNat % 128) = true) (hp : s.phase ≠ .idle) :
    exec (decodeBus ctl v) s = .next (raiseErr .ctxBusy s) := by
  have row : ∀ ctl : BitVec 8, ctl.toNat / 128 = 1 → ctl.toNat % 128 % 4 = 0 →
      isContextAddress (ctl.toNat % 128) = true →
      decodeBus ctl 0 = .wrBufLen 0 ∨ decodeBus ctl 0 = .wrLenLo 0 ∨ decodeBus ctl 0 = .wrLenHi 0 ∨
        (∃ i, decodeBus ctl 0 = .wrH i 0) ∨ ∃ j, decodeBus ctl 0 = .wrBuf j 0 := by decide
  rcases row ctl hw hal ha with h | h | h | ⟨i, h⟩ | ⟨j, h⟩ <;> rw [decodeBus_of_zero h v] <;>
    exact congrArg Host.Outcome.next (whenReady_busy hp)

theorem updateWord_mem_legalWords : ∀ k : Fin 5, updateWord k.val ∈ legalWords := by decide

theorem cmdLegal_of_mem_legalWords {v : Word} (h : v ∈ legalWords) : cmdLegal v = true := by
  have hall : legalWords.all cmdLegal = true := by decide
  exact List.all_eq_true.mp hall v h

/-- A word that is not legal raises RSVD_CMD (R106, R160). -/
theorem command_of_not_legal {v : Word} (h : v ∉ legalWords) (s : State) :
    command v s = .next (raiseErr .rsvdCmd s) := by
  rcases command_cases v s with ⟨-, hc⟩ | ⟨rfl, -⟩ | ⟨rfl, -⟩ | ⟨k, rfl, -⟩ | ⟨rfl, -⟩
  · exact hc
  · exact absurd (by decide) h
  · exact absurd (by decide) h
  · exact absurd (updateWord_mem_legalWords k) h
  · exact absurd (by decide) h

/-- With READY = 0 every legal word but NOP and RESET raises CMD_BUSY (R160). -/
theorem command_of_busy {v : Word} {s : State} (h : v ∈ legalWords) (h0 : v ≠ 0) (h1 : v ≠ 1) (hp : s.phase ≠ .idle) :
    command v s = .next (raiseErr .cmdBusy s) := by
  rcases command_cases v s with ⟨hl, -⟩ | ⟨hv, -⟩ | ⟨hv, -⟩ | ⟨k, -, hc⟩ | ⟨-, hc⟩
  · exact absurd (cmdLegal_of_mem_legalWords h) (by simp [hl])
  · exact absurd hv h0
  · exact absurd hv h1
  · rw [hc, whenReady_busy hp]
  · rw [hc, whenReady_busy hp]

/-- The first failed check of a bus transaction decides what it does: it raises the check's cause and is dropped, and a
read that failed returns 0 (R303, R305). -/
theorem exec_of_firstFailure {s : State} {ctl : BitVec 8} {v : Word} {c : Cause} (h : firstFailure s ctl v = some c) :
    exec (decodeBus ctl v) s = .next (if ctl.toNat < 128 then respond 0 (raiseErr c s) else raiseErr c s) := by
  have hwrite (hw : ctl.toNat / 128 = 1) : ¬ ctl.toNat < 128 := by omega
  simp only [firstFailure] at h
  split_ifs at h with hal hro hrsvd hill hbusy hctx <;> obtain rfl := Option.some.inj h
  · exact exec_misaligned ctl v s hal
  · rw [if_neg (hwrite hro.1)]
    exact exec_readOnly_write ctl v s hro.1 (not_not.mp hal) hro.2
  · rw [if_neg (hwrite hrsvd.1)]
    exact exec_reserved_write ctl v s hrsvd.1 hrsvd.2
  · obtain ⟨hw, ha, hv⟩ := hill
    rw [if_neg (hwrite hw), exec_cmd_write ctl v s hw ha, command_of_not_legal hv]
  · obtain ⟨hw, ha, h0, h1, hp⟩ := hbusy
    have hv : v ∈ legalWords := by_contra fun hv => hill ⟨hw, ha, hv⟩
    rw [if_neg (hwrite hw), exec_cmd_write ctl v s hw ha, command_of_busy hv h0 h1 hp]
  · obtain ⟨hw, ha, hp⟩ := hctx
    rw [if_neg (hwrite hw), exec_context_write_busy ctl v s hw (not_not.mp hal) ha hp]

/-- Settles O15: STATUS field by field, and the code that a first failed check leaves in it. -/
theorem statusIsComposedOfItsFields : Obligations.StatusIsComposedOfItsFields := by
  refine ⟨fun s => ?_, fun s ctl wdata c herr hc => ?_⟩
  · obtain ⟨hready, hdvalid, he, hlovf⟩ := status_flags s
    obtain ⟨hzlo, hlen, hzhi, hcause⟩ := status_fields s
    have hle := causeCode_le s.ecause
    exact ⟨hready, hdvalid, he, hlovf, hzlo, hlen, hzhi, hcause, by omega⟩
  · refine ⟨_, exec_of_firstFailure hc, ?_, ?_⟩
    · obtain ⟨-, -, -, hcause⟩ := status_fields
        (if ctl.toNat < 128 then respond 0 (raiseErr c s) else raiseErr c s)
      rw [hcause]
      split <;> simp [herr]
    · split <;> simp [raiseErr_eq, herr, respond]

end Sys2Proof.Machine
end

section
/-! The result registers, those that few instructions write (10_state.md R31, R36, R42, R43, R45): H, DATA, DOUT, DVALID
and LOVF. What every instruction does to them is said once, by `ResultsStep`; the three statements are read off it. -/

namespace Sys2Proof.Machine

open Sys2Proof.Claims

/-- R330: hardware reset acts in every state, before the first reset too. -/
theorem step_of_reset_next {s : State} {rest : List Input} (h : s.inputs = .reset :: rest) :
    step s = .next (hardwareReset { s with inputs := rest }) := by
  simp only [step, fetch, h]

/-! ## States with the same result registers -/

/-- `t` holds what `s` holds in H, DATA, DOUT, DVALID and LOVF. -/
structure SameResults (s t : State) : Prop where
  h : t.h = s.h
  data : t.data = s.data
  dout : t.dout = s.dout
  dvalid : t.dvalid = s.dvalid
  lovf : t.lovf = s.lovf

theorem sameResults_refl (s : State) : SameResults s s := ⟨rfl, rfl, rfl, rfl, rfl⟩

theorem sameResults_respond (v : Word) {s t : State} (h : SameResults s t) : SameResults s (respond v t) :=
  ⟨h.h, h.data, h.dout, h.dvalid, h.lovf⟩

theorem sameResults_raiseErr (c : Cause) (s : State) : SameResults s (raiseErr c s) := by constructor <;> simp

theorem sameResults_whenReady {c : Cause} {op : State → State} {s : State} (hop : SameResults s (op s)) :
    SameResults s (whenReady c op s) := by
  rcases whenReady_cases c op s with ⟨-, h⟩ | ⟨-, h⟩ <;> rw [h]
  · exact hop
  · exact sameResults_raiseErr c s

theorem sameResults_roundStep {f : Word → Word → Word → Word} {i : BitVec 6} {s t : State}
    (h : roundStep f i s = .next t) : SameResults s t := by
  rw [roundStep_eq_next, advanceRound_eq] at h
  obtain rfl := Host.Outcome.next.inj h
  exact ⟨rfl, rfl, rfl, rfl, rfl⟩

/-! ## What the commands and ACCUM do to the result registers -/

/-- An UPDATE writes LOVF alone (R166). -/
theorem update_results (s : State) {n : Nat} (hn : n ≤ 4) :
    SameResults { s with lovf := s.lovf || decide (2 ^ 64 ≤ s.len.toNat + 8 * n) } (update n s) := by
  rcases Nat.lt_or_ge (s.bufLen.toNat + n) 64 with h | h
  · obtain ⟨b, hu, -⟩ := update_within s n h
    rw [hu]
    exact ⟨rfl, rfl, rfl, rfl, countBits_lovf n hn _⟩
  · obtain ⟨b0, b1, hu, -⟩ := update_full s n h (by omega)
    rw [hu]
    exact ⟨rfl, rfl, rfl, rfl, countBits_lovf n hn _⟩

/-- With READY = 0 an UPDATE leaves LOVF alone too (R160). -/
theorem whenReady_update_results (s : State) {n : Nat} (hn : n ≤ 4) :
    SameResults { s with lovf := s.lovf || (decide (s.phase = .idle) && decide (2 ^ 64 ≤ s.len.toNat + 8 * n)) }
      (whenReady .cmdBusy (update n) s) := by
  rcases whenReady_cases .cmdBusy (update n) s with ⟨hp, h⟩ | ⟨hp, h⟩ <;> rw [h]
  · simpa [hp] using update_results s hn
  · simpa [hp] using sameResults_raiseErr .cmdBusy s

/-- A FINALIZE writes DVALID alone, and only with READY = 1 (R160, R168). -/
theorem whenReady_finalize_results (s : State) :
    SameResults { s with dvalid := if s.phase = .idle then false else s.dvalid } (whenReady .cmdBusy finalize s) := by
  rcases whenReady_cases .cmdBusy finalize s with ⟨hp, h⟩ | ⟨hp, h⟩ <;> rw [h]
  · obtain ⟨m, hm⟩ := finalize_eq s
    rw [hm, if_pos hp]
    exact ⟨rfl, rfl, rfl, rfl, rfl⟩
  · rw [if_neg hp]
    exact sameResults_raiseErr .cmdBusy s

/-- ACCUM writes H, and at the end of a FINALIZE it captures the digest and sets DVALID (R208, R211). -/
theorem accumulate_results (s : State) :
    (s.fstate = .last ∧ ∃ h dout, SameResults { s with h := h, dout := dout, dvalid := true } (accumulate s)) ∨
      (s.fstate ≠ .last ∧ ∃ h, SameResults { s with h := h } (accumulate s)) := by
  cases hf : s.fstate with
  | none =>
    rw [accumulate_none hf]
    exact .inr ⟨by decide, _, rfl, rfl, rfl, rfl, rfl⟩
  | pad2 =>
    obtain ⟨m, hm, -⟩ := secondPadBlock_eq { s with h := addWork s, r := 0 }
    rw [accumulate_pad2 hf, hm]
    exact .inr ⟨by decide, _, rfl, rfl, rfl, rfl, rfl⟩
  | last =>
    rw [accumulate_last hf]
    exact .inl ⟨rfl, _, _, rfl, rfl, rfl, rfl, rfl⟩

/-! ## What every instruction does to the result registers -/

/-- Which of the writers `i` is: RESET, FINALIZE, ACCUM, or an UPDATE of so many bytes. -/
structure WriterKind (i : Instr) (reset finalize accum : Bool) (update : Option Nat) : Prop where
  reset : isReset i = reset
  finalize : isFinalize i = finalize
  accum : isAccum i = accum
  update : updateCount i = update

theorem writerKind_cmd_update (k : Fin 5) : WriterKind (.wrCmd (updateWord k.val)) false false false (some k.val) := by
  fin_cases k <;> exact ⟨rfl, rfl, rfl, rfl⟩

theorem writerKind_cmd_not_legal {v : Word} (h : cmdLegal v = false) :
    WriterKind (.wrCmd v) false false false none := by
  have hne : ∀ w ∈ legalWords, v ≠ w := by
    rintro w hw rfl
    simp [cmdLegal_of_mem_legalWords hw] at h
  simp only [legalWords, List.forall_mem_cons] at hne
  obtain ⟨-, h1, h3, h02, h12, h22, h32, h42, -⟩ := hne
  refine ⟨by simpa [isReset] using h1, by simpa [isFinalize] using h3, rfl, ?_⟩
  rw [updateCount, if_neg h02, if_neg h12, if_neg h22, if_neg h32, if_neg h42]

/-- What `i` makes of the result registers of `s`, by the writer that `i` is. -/
inductive ResultsStep (i : Instr) (s t : State) : Prop
  | reset (kind : WriterKind i true false false none)
      (results : SameResults { s with h := iv, dout := Vector.replicate 4 0, dvalid := false, lovf := false } t)
  | finalize (kind : WriterKind i false true false none)
      (results : SameResults { s with dvalid := if s.phase = .idle then false else s.dvalid } t)
  | update (n : Nat) (kind : WriterKind i false false false (some n))
      (results : SameResults
        { s with lovf := s.lovf || (decide (s.phase = .idle) && decide (2 ^ 64 ≤ s.len.toNat + 8 * n)) } t)
  | accumLast (kind : WriterKind i false false true none) (last : s.fstate = .last) (h dout : Digest)
      (results : SameResults { s with h := h, dout := dout, dvalid := true } t)
  | accum (kind : WriterKind i false false true none) (notLast : s.fstate ≠ .last) (h : Digest)
      (results : SameResults { s with h := h } t)
  | wrData (kind : WriterKind i false false false none) (v : Word) (instr : i = .wrData v)
      (results : SameResults { s with data := v } t)
  | wrH (kind : WriterKind i false false false none) (k : BitVec 2) (v : Word) (instr : i = .wrH k v)
      (idle : s.phase = .idle) (h : Digest)
      (results : SameResults { s with h := h } t)
  | other (kind : WriterKind i false false false none) (results : SameResults s t)

/-- A write to CMD does to the result registers what its command does (R143, R160). -/
theorem resultsStep_wrCmd {v : Word} {s t : State} (h : command v s = .next t) : ResultsStep (.wrCmd v) s t := by
  rcases command_cases v s with ⟨hl, hc⟩ | ⟨rfl, hc⟩ | ⟨rfl, hc⟩ | ⟨k, rfl, hc⟩ | ⟨rfl, hc⟩ <;>
    obtain rfl := Host.Outcome.next.inj (hc.symm.trans h)
  · exact .other (writerKind_cmd_not_legal hl) (sameResults_raiseErr _ s)
  · exact .other ⟨rfl, rfl, rfl, rfl⟩ (sameResults_refl s)
  · exact .reset ⟨rfl, rfl, rfl, rfl⟩ ⟨rfl, rfl, rfl, rfl, rfl⟩
  · exact .update _ (writerKind_cmd_update k) (whenReady_update_results s (by omega))
  · exact .finalize ⟨rfl, rfl, rfl, rfl⟩ (whenReady_finalize_results s)

theorem resultsStep_accum {r : BitVec 6} {s : State} : ResultsStep (.accum r) s (accumulate s) := by
  rcases accumulate_results s with ⟨hlast, h, dout, ht⟩ | ⟨hlast, h, ht⟩
  · exact .accumLast ⟨rfl, rfl, rfl, rfl⟩ hlast h dout ht
  · exact .accum ⟨rfl, rfl, rfl, rfl⟩ hlast h ht

theorem resultsStep_wrH {k : BitVec 2} {v : Word} {s : State} :
    ResultsStep (.wrH k v) s (whenReady .ctxBusy (setH k v) s) := by
  rcases whenReady_cases .ctxBusy (setH k v) s with ⟨hp, h⟩ | ⟨-, h⟩ <;> rw [h]
  · exact .wrH ⟨rfl, rfl, rfl, rfl⟩ k v rfl hp _ ⟨rfl, rfl, rfl, rfl, rfl⟩
  · exact .other ⟨rfl, rfl, rfl, rfl⟩ (sameResults_raiseErr _ s)

/-- Every instruction that answers a next state is one of these steps. -/
theorem exec_resultsStep {i : Instr} {s t : State} (h : exec i s = .next t) : ResultsStep i s t := by
  cases i with
  | rdMisalignedOdd _ | rdMisalignedTwo _ =>
    cases h; exact .other ⟨rfl, rfl, rfl, rfl⟩ (sameResults_respond 0 (sameResults_raiseErr _ s))
  | rdCmd | rdData | rdStatus | rdBufLen | rdLenLo | rdLenHi | rdRsvd _ | rdH _ | rdDout _ | rdBuf _ =>
    cases h; exact .other ⟨rfl, rfl, rfl, rfl⟩ (sameResults_respond _ (sameResults_refl s))
  | wrMisalignedOdd _ _ | wrMisalignedTwo _ _ | wrStatus _ | wrRsvd _ _ | wrDout _ _ | reservedCmd _ =>
    cases h; exact .other ⟨rfl, rfl, rfl, rfl⟩ (sameResults_raiseErr _ s)
  | wrBufLen _ | wrLenLo _ | wrLenHi _ | wrBuf _ _ =>
    cases h; exact .other ⟨rfl, rfl, rfl, rfl⟩ (sameResults_whenReady ⟨rfl, rfl, rfl, rfl, rfl⟩)
  | wrCmd v => exact resultsStep_wrCmd h
  | wrData v => cases h; exact .wrData ⟨rfl, rfl, rfl, rfl⟩ v rfl ⟨rfl, rfl, rfl, rfl, rfl⟩
  | wrH k v => cases h; exact resultsStep_wrH
  | nop | idleNoStep _ => cases h; exact .other ⟨rfl, rfl, rfl, rfl⟩ (sameResults_refl s)
  | reset => cases h; exact .reset ⟨rfl, rfl, rfl, rfl⟩ ⟨rfl, rfl, rfl, rfl, rfl⟩
  | updateNb0 | updateNb1 | updateNb2 | updateNb3 | updateNb4 =>
    cases h; exact .update _ ⟨rfl, rfl, rfl, rfl⟩ (whenReady_update_results s (by decide))
  | finalize => cases h; exact .finalize ⟨rfl, rfl, rfl, rfl⟩ (whenReady_finalize_results s)
  | roundF0 _ | roundF1 _ | roundF2 _ | roundF3 _ =>
    exact .other ⟨rfl, rfl, rfl, rfl⟩ (sameResults_roundStep h)
  | accum r => cases h; exact resultsStep_accum
  | unreachablePhase3 r => cases h

/-! ## The statements -/

/-- Settles O36: in each step of `ResultsStep` only the writers of R31, R36 and R42 change H, DATA and DOUT. -/
theorem registersAreWrittenOnlyByTheirWriters : Obligations.RegistersAreWrittenOnlyByTheirWriters := by
  intro i s t hexec
  cases exec_resultsStep hexec with
  | reset kind results => simp [kind.reset, results.data]
  | finalize kind results => simp [results.h, results.data, results.dout]
  | update n kind results => simp [results.h, results.data, results.dout]
  | accumLast kind last h dout results => simp [kind.accum, last, results.data]
  | accum kind notLast h results => simp [kind.accum, results.data, results.dout]
  | wrData kind v instr results => simp [instr, results.h, results.dout]
  | wrH kind k v instr idle h results => simp [instr, idle, results.data, results.dout]
  | other kind results => simp [results.h, results.data, results.dout]

/-- Settles O37: DVALID of each step of `ResultsStep`. -/
theorem dvalidLifecycle : Obligations.DvalidLifecycle := by
  refine ⟨fun s rest hin => ⟨_, step_of_reset_next hin, rfl⟩, fun i s t hexec => ?_⟩
  cases exec_resultsStep hexec with
  | reset kind results => simp [kind.accum, kind.reset, results.dvalid]
  | finalize kind results => simp [kind.accum, kind.reset, kind.finalize, results.dvalid]
  | update n kind results => simp [kind.accum, kind.reset, kind.finalize, results.dvalid]
  | accumLast kind last h dout results => simp [kind.accum, last, results.dvalid]
  | accum kind notLast h results => simp [notLast, kind.reset, kind.finalize, results.dvalid]
  | wrData kind v instr results => simp [kind.accum, kind.reset, kind.finalize, results.dvalid]
  | wrH kind k v instr idle h results => simp [kind.accum, kind.reset, kind.finalize, results.dvalid]
  | other kind results => simp [kind.accum, kind.reset, kind.finalize, results.dvalid]

/-- Settles O38: LOVF of each step of `ResultsStep`. -/
theorem lovfLifecycle : Obligations.LovfLifecycle := by
  refine ⟨fun s rest hin => ⟨_, step_of_reset_next hin, rfl⟩, fun i s t hexec => ?_⟩
  cases exec_resultsStep hexec with
  | reset kind results => simp [kind.reset, results.lovf]
  | finalize kind results => simp [kind.reset, kind.update, results.lovf]
  | update n kind results => simp [kind.reset, kind.update, results.lovf]
  | accumLast kind last h dout results => simp [kind.reset, kind.update, results.lovf]
  | accum kind notLast h results => simp [kind.reset, kind.update, results.lovf]
  | wrData kind v instr results => simp [kind.reset, kind.update, results.lovf]
  | wrH kind k v instr idle h results => simp [kind.reset, kind.update, results.lovf]
  | other kind results => simp [kind.reset, kind.update, results.lovf]

end Sys2Proof.Machine
end

section
/-! A bus access that the engine does not take (20_memory.md R72, R73): one of a width other than 4 is refused by name,
and a misaligned one raises MISALIGNED and is dropped. -/

namespace Sys2Proof.Machine

open Sys2Proof.Claims

/-! ## The width of an access -/

/-- The decoder names the width it refuses (R72). -/
theorem decode_bus_of_width_ne {width : Nat} (h : width ≠ 4) (ctl : BitVec 8) (wdata : Word) :
    decode (.bus width ctl wdata) = .error (.accessWidth width) := if_neg h

/-- The host's turn refuses a transaction for the width that the decoder refuses. -/
theorem hostTurn_of_width_ne {width : Nat} (h : width ≠ 4) (ctl : BitVec 8) (wdata : Word) (s : State) :
    hostTurn width ctl wdata s = .refuse (.accessWidth width) := by
  simp only [hostTurn, decode_bus_of_width_ne h]

/-- A step whose fetch refuses the transition is refused for the same reason. -/
theorem step_of_fetch_refuse {s : State} {r : Refusal} (h : fetch s = .refuse r) : step s = .refused r := by
  simp only [step, h]

/-- Settles O13: the decoder refuses the width by name, and the fetch and the step pass its refusal on. -/
theorem otherWidthsAreRefused : Obligations.OtherWidthsAreRefused := by
  intro s width ctl wdata rest hwidth
  refine ⟨decode_bus_of_width_ne hwidth ctl wdata, fun hreset hin => ?_⟩
  have hfetch : fetch s = .refuse (.accessWidth width) :=
    (fetch_host hreset hin).trans (hostTurn_of_width_ne hwidth ctl wdata _)
  exact step_of_fetch_refuse hfetch

/-! ## Alignment -/

/-- `raise ERR(c)` leaves the error state of the claims (R302). -/
theorem raiseErr_eq_errorState (c : Cause) (s : State) : raiseErr c s = errorState c s := raiseErr_eq c s

/-- A misaligned read's answer, in the terms of the claims (R141). -/
theorem respond_zero_raiseErr (c : Cause) (s : State) :
    respond 0 (raiseErr c s) = { errorState c s with rdata := some 0 } := by
  rw [raiseErr_eq_errorState, respond]

/-- Settles O16: the four meanings are `raise ERR(MISALIGNED)`, with the answer 0 for the reads, and every misaligned
CTL has one of them. -/
theorem misalignedAccessesAreDropped : Obligations.MisalignedAccessesAreDropped := by
  intro s
  have hread : (.next (respond 0 (raiseErr .misaligned s)) : Result) =
      .next { errorState .misaligned s with rdata := some 0 } :=
    congrArg Host.Outcome.next (respond_zero_raiseErr .misaligned s)
  have hwrite : (.next (raiseErr .misaligned s) : Result) = .next (errorState .misaligned s) :=
    congrArg Host.Outcome.next (raiseErr_eq_errorState .misaligned s)
  refine ⟨fun _ => hread, fun _ => hread, fun _ _ => hwrite, fun _ _ => hwrite, fun ctl wdata hal => ?_⟩
  rw [exec_misaligned ctl wdata s (by omega), respond_zero_raiseErr, raiseErr_eq_errorState]

end Sys2Proof.Machine
end

section
/-! Polling beside the engine (20_memory.md R74, 70_reset_and_hazards.md R341): an aligned read writes the value the bus
returned last and nothing else, which the engine's turn does not read, so the turns of an interleaving with reads do
what the turns alone do. -/

namespace Sys2Proof.Machine

open Sys2Proof.Claims

/-! ## One transition -/

/-- A run that answers a next state answers one at its first step. -/
theorem run_succ_eq_next_iff {n : Nat} {s u : State} :
    core.run (n + 1) s = .next u ↔ ∃ t, step s = .next t ∧ core.run n t = .next u := by
  rw [Nat.add_comm, run_add, run_one]
  cases step s <;> simp

/-- The transitions of a polling host and the engine, by agent. -/
theorem isEngineOrRead_cases {x : Input} (h : isEngineOrRead x = true) :
    x = .engine ∨ ∃ ctl wdata, x = .host 4 ctl wdata ∧ ctl.toNat < 128 ∧ ctl.toNat % 4 = 0 := by
  cases x with
  | engine => exact .inl rfl
  | host width ctl wdata =>
    simp only [isEngineOrRead, Bool.and_eq_true, beq_iff_eq, decide_eq_true_eq] at h
    obtain ⟨⟨rfl, hread⟩, haligned⟩ := h
    exact .inr ⟨ctl, wdata, rfl, hread, haligned⟩
  | reset => cases h

/-- The read of a slot answers some value and changes nothing else (R74, R130). -/
theorem exec_decodeRead (slot : BitVec 5) (s : State) : ∃ v, exec (decodeRead slot) s = .next (respond v s) := by
  unfold decodeRead
  repeat' split
  all_goals exact ⟨_, rfl⟩

/-- An aligned read answers some value and changes nothing else (R74, R101). -/
theorem exec_aligned_read {ctl : BitVec 8} (hread : ctl.toNat < 128) (haligned : ctl.toNat % 4 = 0) (wdata : Word)
    (s : State) : ∃ v, exec (decodeBus ctl wdata) s = .next (respond v s) := by
  have hctl : ∀ ctl : BitVec 8, ctl.toNat < 128 → ctl.toNat % 4 = 0 →
      ctl = ctlOf false (ctl.extractLsb' 2 5) := by decide
  rw [hctl ctl hread haligned, decodeBus_read]
  exact exec_decodeRead _ s

/-- The engine's turn leaves the value read last (R74). -/
theorem engine_turn_rdata {s t : State} (h : exec (decodeStep (sel s)) s = .next t) : t.rdata = s.rdata := by
  have ht := Host.Outcome.next.inj (h.symm.trans (engine_turn_congr s.inputs s.rdata h))
  rw [ht]

/-- The converse of `engine_turn_congr`: whatever is still to come and was read last, a turn that answers a next state
is the turn of `s`, with those two fields left in place. -/
theorem engine_turn_of_congr {s t : State} {l : List Input} {v : Option Word}
    (h : exec (decodeStep (sel s)) { s with inputs := l, rdata := v } = .next t) :
    ∃ s', exec (decodeStep (sel s)) s = .next s' ∧ t = { s' with inputs := l, rdata := v } := by
  have hs : exec (decodeStep (sel s)) s = .next { t with inputs := s.inputs, rdata := s.rdata } :=
    engine_turn_congr (s := { s with inputs := l, rdata := v }) s.inputs s.rdata h
  exact ⟨_, hs, Host.Outcome.next.inj (h.symm.trans (engine_turn_congr l v hs))⟩

/-- The first of the engine's turns alone (R202). -/
theorem step_engineTurns_succ {s t : State} (hreset : s.everReset = true)
    (hturn : exec (decodeStep (sel s)) s = .next t)
    (n : Nat) (rest : List Input) : step (engineTurns (n + 1) rest s) = .next (engineTurns n rest t) := by
  have ht : { t with inputs := List.replicate n .engine ++ rest, rdata := s.rdata } = engineTurns n rest t := by
    rw [← engine_turn_rdata hturn, engineTurns]
  rw [← ht]
  exact (step_engine_turn hreset).trans (engine_turn_congr _ s.rdata hturn)

/-! ## The interleaving -/

/-- The turns of an interleaving do what the turns alone do, whatever value was read before it: the induction behind
`pollingDoesNotDisturbTheEngine`, in which each read leaves another `rdata` to the transitions after it. -/
theorem run_reads_and_turns {rest : List Input} {t : State} (ins : List Input) :
    ∀ (s : State) (v : Option Word), s.everReset = true → (∀ x ∈ ins, isEngineOrRead x = true) →
      core.run ins.length { s with inputs := ins ++ rest, rdata := v } = .next t →
      ∃ u, core.run (ins.count .engine) (engineTurns (ins.count .engine) rest s) = .next u ∧
        t = { u with rdata := t.rdata } := by
  induction ins with
  | nil =>
    intro s v _ _ hrun
    obtain rfl := Host.Outcome.next.inj hrun
    exact ⟨_, rfl, rfl⟩
  | cons x ins ih =>
    intro s v hreset hall hrun
    obtain ⟨hx, hins⟩ := List.forall_mem_cons.mp hall
    obtain ⟨t₁, hstep, hrun⟩ := run_succ_eq_next_iff.mp hrun
    rcases isEngineOrRead_cases hx with rfl | ⟨ctl, wdata, rfl, hread, haligned⟩
    · have hturn := (step_engine_turn (s := { s with rdata := v }) hreset).symm.trans hstep
      obtain ⟨s', hs', rfl⟩ := engine_turn_of_congr (s := s) hturn
      obtain ⟨-, hreset'⟩ := engine_turn_frame hs'
      obtain ⟨u, hu, ht⟩ := ih s' v (hreset'.trans hreset) hins hrun
      rw [List.count_cons_self]
      exact ⟨u, run_succ_eq_next_iff.mpr ⟨_, step_engineTurns_succ hreset hs' _ rest, hu⟩, ht⟩
    · obtain ⟨w, hw⟩ := exec_aligned_read hread haligned wdata { s with inputs := ins ++ rest, rdata := v }
      have hhost := step_host_cons (s := { s with inputs := ins ++ rest, rdata := v }) hreset ctl wdata
      obtain rfl := Host.Outcome.next.inj ((hhost.trans hw).symm.trans hstep)
      rw [List.count_cons_of_ne (by simp)]
      exact ih s (some w) hreset hins hrun

/-- Settles O49: the interleaving started at the value that `s` itself holds as read last. -/
theorem pollingDoesNotDisturbTheEngine : Obligations.PollingDoesNotDisturbTheEngine := by
  intro ins rest s t hreset hins hrun
  exact run_reads_and_turns ins s s.rdata hreset hins hrun

end Sys2Proof.Machine
end

section
/-! The encodings (30_encoding.md R100 to R110): a decoded word encodes to itself, every CTL names one BUS row, and
eight command words are legal. -/

namespace Sys2Proof.Machine

open Sys2Proof.Claims

/-! ## The value of a bus transaction -/

/-- A bus transaction with another WDATA where it is a write, `CTL[7] = 1` (R100). -/
def withWdata (v : Word) : Encoded → Encoded
  | .bus width ctl x => .bus width ctl (if ctl.toNat < 128 then x else v)
  | e => e

/-- A read's transaction carries no value of its own (R100). -/
theorem withWdata_encodeRead (v : Word) (slot : BitVec 5) : withWdata v (encodeRead slot) = encodeRead slot := by
  have hread : ∀ slot, (ctlOf false slot).toNat < 128 := by decide
  rw [encodeRead, withWdata, if_pos (hread slot)]

/-- A write's transaction carries its value as WDATA (R100). -/
theorem withWdata_encodeWrite (v x : Word) (slot : BitVec 5) :
    withWdata v (encodeWrite slot x) = encodeWrite slot v := by
  have hwrite : ∀ slot, ¬ (ctlOf true slot).toNat < 128 := by decide
  rw [encodeWrite, withWdata, if_neg (hwrite slot), encodeWrite]

/-- The encoder puts the value of a write in WDATA, and nowhere else (R100, R110). -/
theorem encode_withValue (v : Word) (i : Instr) : encode (withValue v i) = withWdata v (encode i) := by
  cases i with
  | rdMisalignedOdd hi =>
    have hread : ∀ hi : BitVec 6, (0#1 ++ hi ++ 1#1).toNat < 128 := by decide
    exact congrArg (Encoded.bus 4 _) (if_pos (hread hi)).symm
  | rdMisalignedTwo slot =>
    have hread : ∀ slot : BitVec 5, (0#1 ++ slot ++ 2#2).toNat < 128 := by decide
    exact congrArg (Encoded.bus 4 _) (if_pos (hread slot)).symm
  | wrMisalignedOdd hi _ =>
    have hwrite : ∀ hi : BitVec 6, ¬ (1#1 ++ hi ++ 1#1).toNat < 128 := by decide
    exact congrArg (Encoded.bus 4 _) (if_neg (hwrite hi)).symm
  | wrMisalignedTwo slot _ =>
    have hwrite : ∀ slot : BitVec 5, ¬ (1#1 ++ slot ++ 2#2).toNat < 128 := by decide
    exact congrArg (Encoded.bus 4 _) (if_neg (hwrite slot)).symm
  | rdCmd | rdData | rdStatus | rdBufLen | rdLenLo | rdLenHi | rdRsvd _ | rdH _ | rdDout _ | rdBuf _ =>
    exact (withWdata_encodeRead v _).symm
  | wrCmd _ | wrData _ | wrStatus _ | wrBufLen _ | wrLenLo _ | wrLenHi _ | wrRsvd _ _ | wrH _ _ | wrDout _ _
  | wrBuf _ _ =>
    exact (withWdata_encodeWrite v _ _).symm
  | nop | reset | updateNb0 | updateNb1 | updateNb2 | updateNb3 | updateNb4 | finalize | reservedCmd _
  | idleNoStep _ | roundF0 _ | roundF1 _ | roundF2 _ | roundF3 _ | accum _ | unreachablePhase3 _ => rfl

/-- The value of a write is not part of its well-formedness. -/
theorem wellFormed_withValue (v : Word) (i : Instr) : wellFormed (withValue v i) = wellFormed i := by
  cases i <;> rfl

/-! ## The command words -/

theorem cmdOp_toNat (v : Word) : (cmdOp v).toNat = v.toNat % 16 := by
  simp [cmdOp, BitVec.extractLsb'_toNat]

theorem cmdNb_toNat (v : Word) : (cmdNb v).toNat = v.toNat / 16 % 8 := by
  simp [cmdNb, BitVec.extractLsb'_toNat, Nat.shiftRight_eq_div_pow]

/-- RSVD = 0 says that the word is below 2^7 (R102). -/
theorem cmdRsvd_eq_zero_iff (v : Word) : cmdRsvd v = 0 ↔ v.toNat / 2 ^ 7 = 0 := by
  have hlt := v.isLt
  rw [cmdRsvd, ← BitVec.toNat_inj, BitVec.extractLsb'_toNat, Nat.shiftRight_eq_div_pow, Nat.mod_eq_of_lt (by omega)]
  rfl

/-- R105 as the eight words. -/
theorem cmdLegal_iff_mem_legalWords (v : Word) : cmdLegal v = true ↔ v ∈ legalWords := by
  refine ⟨fun h => ?_, cmdLegal_of_mem_legalWords⟩
  rcases cmdLegal_cases h with rfl | rfl | rfl | ⟨k, rfl⟩
  · decide
  · decide
  · decide
  · exact updateWord_mem_legalWords k

/-- R105 as a condition on the fields, each a number. -/
theorem cmdLegal_iff_fields (v : Word) : cmdLegal v = true ↔ v.toNat / 2 ^ 7 = 0 ∧
    ((v.toNat % 16 ∈ [0x0, 0x1, 0x3] ∧ v.toNat / 16 % 8 = 0) ∨ (v.toNat % 16 = 0x2 ∧ v.toNat / 16 % 8 ≤ 4)) := by
  rw [← cmdRsvd_eq_zero_iff, ← cmdOp_toNat, ← cmdNb_toNat]
  simp [cmdLegal, ← BitVec.toNat_inj, or_assoc]

/-- R106: a word that is not legal is RESERVED_CMD. -/
theorem decodeCmd_of_not_legal {v : Word} (h : cmdLegal v = false) : decodeCmd v = .reservedCmd v := by
  rw [decodeCmd, h]
  rfl

/-- An UPDATE's word decodes to the UPDATE of its byte count (R103). -/
theorem decodeCmd_updateWord : ∀ k : Fin 5, decodeCmd (updateWord k.val) = updateOf k := by decide

/-- The word of an UPDATE, by its byte count (R163). -/
theorem encode_updateOf : ∀ k : Fin 5,
    wellFormed (updateOf k) = true ∧ encode (updateOf k) = .cmd (updateWord k.val) := by decide

/-- Every bit of a command word is given back: a legal word is one of the eight, and RESERVED_CMD keeps its word. -/
theorem encode_decodeCmd (v : Word) : wellFormed (decodeCmd v) = true ∧ encode (decodeCmd v) = .cmd v := by
  cases h : cmdLegal v with
  | false =>
    rw [decodeCmd_of_not_legal h]
    exact ⟨by rw [wellFormed, h]; rfl, rfl⟩
  | true =>
    rcases cmdLegal_cases h with rfl | rfl | rfl | ⟨k, rfl⟩
    · exact ⟨rfl, rfl⟩
    · exact ⟨rfl, rfl⟩
    · exact ⟨rfl, rfl⟩
    · rw [decodeCmd_updateWord k]
      exact encode_updateOf k

/-- Settles O5: legality as the words and as the fields, and the decoder's answer to the words that are not legal. -/
theorem eightCommandWordsAreLegal : Obligations.EightCommandWordsAreLegal := by
  refine ⟨by decide, cmdLegal_iff_mem_legalWords, cmdLegal_iff_fields, fun v hv => decodeCmd_of_not_legal ?_⟩
  rwa [← cmdLegal_iff_mem_legalWords, Bool.not_eq_true] at hv

/-! ## The words of a decoded transaction -/

/-- Every CTL is given back, with the WDATA that its kind of access keeps (R100, R101, R110). -/
theorem encode_decodeBus (ctl : BitVec 8) (wdata : Word) : wellFormed (decodeBus ctl wdata) = true ∧
    encode (decodeBus ctl wdata) = .bus 4 ctl (if ctl.toNat < 128 then 0 else wdata) := by
  have hzero : ∀ ctl : BitVec 8,
      wellFormed (decodeBus ctl 0) = true ∧ encode (decodeBus ctl 0) = .bus 4 ctl 0 := by decide
  obtain ⟨hwf, henc⟩ := hzero ctl
  rw [decodeBus_withValue, wellFormed_withValue, encode_withValue, henc]
  exact ⟨hwf, rfl⟩

/-- Every bit of a step selector is given back (R109). -/
theorem encode_decodeStep : ∀ x : BitVec 8, wellFormed (decodeStep x) = true ∧ encode (decodeStep x) = .step x := by
  decide

/-- Settles O2, format by format. -/
theorem encodeOfDecodeIsTheWord : Obligations.EncodeOfDecodeIsTheWord :=
  ⟨encode_decodeBus, encode_decodeCmd, encode_decodeStep⟩

/-! ## The BUS rows -/

/-- The patterns of two different rows differ in a bit that both fix (R101). -/
theorem busRows_eq_of_agree : ∀ row ∈ busRows, ∀ row' ∈ busRows,
    row.pattern &&& row'.mask = row'.pattern &&& row.mask → row'.mask = row.mask ∧ row'.pattern = row.pattern := by
  decide

/-- A CTL matches at most one row (R101). -/
theorem busRows_match_unique {ctl : BitVec 8} {row row' : BusRow} (hrow : row ∈ busRows) (hrow' : row' ∈ busRows)
    (h : ctl &&& row.mask = row.pattern) (h' : ctl &&& row'.mask = row'.pattern) :
    row'.mask = row.mask ∧ row'.pattern = row.pattern := by
  refine busRows_eq_of_agree row hrow row' hrow' ?_
  rw [← h, ← h', BitVec.and_assoc, BitVec.and_assoc, BitVec.and_comm row.mask]

/-- A row that holds of a write holds of it with every other value. -/
theorem busRows_holds_withValue {row : BusRow} (hrow : row ∈ busRows) {ctl : BitVec 8} {i : Instr} (v : Word)
    (h : row.holds ctl 0 i = true) : row.holds ctl v (withValue v i) = true := by
  -- In each row, `h` is about the row's own constructor, where it fixes the operands, or is false.
  fin_cases hrow <;> dsimp only at h ⊢ <;> split at h
  all_goals simp_all [withValue]

/-- Every CTL matches a row, and the decoder's instruction is that row's (R101). -/
theorem busRows_match_exists (ctl : BitVec 8) (wdata : Word) : ∃ row ∈ busRows,
    ctl &&& row.mask = row.pattern ∧ row.holds ctl wdata (decodeBus ctl wdata) = true := by
  have hzero : ∀ ctl : BitVec 8, ∃ row ∈ busRows,
      ctl &&& row.mask = row.pattern ∧ row.holds ctl 0 (decodeBus ctl 0) = true := by decide
  obtain ⟨row, hrow, hmatch, hholds⟩ := hzero ctl
  rw [decodeBus_withValue]
  exact ⟨row, hrow, hmatch, busRows_holds_withValue hrow wdata hholds⟩

/-- Settles O3: the row that matches, which is the only one. -/
theorem everyCtlNamesExactlyOneRow : Obligations.EveryCtlNamesExactlyOneRow := by
  intro ctl wdata
  obtain ⟨row, hrow, hmatch, hholds⟩ := busRows_match_exists ctl wdata
  exact ⟨row, hrow, hmatch, hholds, fun row' hrow' hmatch' => busRows_match_unique hrow hrow' hmatch hmatch'⟩

end Sys2Proof.Machine
end

section
/-! The register map as the host sees it (20_memory.md R71, 40_host_access.md R130 to R154): the transaction of each
address, what a read of it answers, and what a write to it stores. -/

namespace Sys2Proof.Machine

open Sys2Proof.Claims

/-! ## The transaction of an address -/

/-- A read's address is its CTL (R100, R101). -/
theorem decodeBus_of_readAddress {i : Instr} {a : Nat} (h : readAddress i = some a) (wdata : Word) :
    decodeBus (BitVec.ofNat 8 a) wdata = i := by
  cases i <;> cases h
  case rdCmd | rdData | rdStatus | rdBufLen | rdLenLo | rdLenHi => rfl
  case rdRsvd k =>
    have row : ∀ k : BitVec 1, decodeBus (BitVec.ofNat 8 (0x18 + 4 * k.toNat)) 0 = .rdRsvd k := by decide
    exact decodeBus_of_zero (row k) wdata
  case rdH k =>
    have row : ∀ k : BitVec 2, decodeBus (BitVec.ofNat 8 (0x20 + 4 * k.toNat)) 0 = .rdH k := by decide
    exact decodeBus_of_zero (row k) wdata
  case rdDout k =>
    have row : ∀ k : BitVec 2, decodeBus (BitVec.ofNat 8 (0x30 + 4 * k.toNat)) 0 = .rdDout k := by decide
    exact decodeBus_of_zero (row k) wdata
  case rdBuf j =>
    have row : ∀ j : BitVec 4, decodeBus (BitVec.ofNat 8 (0x40 + 4 * j.toNat)) 0 = .rdBuf j := by decide
    exact decodeBus_of_zero (row j) wdata

/-- A write's CTL is its address with WE, bit 7, set (R100, R101). -/
theorem decodeBus_of_writeAddress {i : Instr} {a : Nat} {v : Word} (h : writeAddress i = some (a, v)) :
    decodeBus (BitVec.ofNat 8 (0x80 + a)) v = i := by
  cases i <;> cases h
  case wrCmd | wrData | wrStatus | wrBufLen | wrLenLo | wrLenHi => rfl
  case wrRsvd k =>
    have row : ∀ k : BitVec 1, decodeBus (BitVec.ofNat 8 (0x80 + (0x18 + 4 * k.toNat))) 0 = .wrRsvd k 0 := by decide
    exact decodeBus_of_zero (row k) v
  case wrH k =>
    have row : ∀ k : BitVec 2, decodeBus (BitVec.ofNat 8 (0x80 + (0x20 + 4 * k.toNat))) 0 = .wrH k 0 := by decide
    exact decodeBus_of_zero (row k) v
  case wrDout k =>
    have row : ∀ k : BitVec 2, decodeBus (BitVec.ofNat 8 (0x80 + (0x30 + 4 * k.toNat))) 0 = .wrDout k 0 := by decide
    exact decodeBus_of_zero (row k) v
  case wrBuf j =>
    have row : ∀ j : BitVec 4, decodeBus (BitVec.ofNat 8 (0x80 + (0x40 + 4 * j.toNat))) 0 = .wrBuf j 0 := by decide
    exact decodeBus_of_zero (row j) v

/-! ## The register of an address -/

theorem registerView_bufLen (s : State) : registerView s 0x0C = s.bufLen.setWidth 32 :=
  BitVec.ofNat_toNat 32 s.bufLen

theorem registerView_lenLo (s : State) : registerView s 0x10 = lenLo s.len := by
  apply BitVec.eq_of_toNat_eq
  rw [lenLo_toNat]
  exact BitVec.toNat_ofNat ..

theorem registerView_lenHi (s : State) : registerView s 0x14 = lenHi s.len := by
  apply BitVec.eq_of_toNat_eq
  have hlt := (lenHi s.len).isLt
  rw [lenHi_toNat] at hlt ⊢
  exact (BitVec.toNat_ofNat ..).trans (Nat.mod_eq_of_lt hlt)

/-- The reserved addresses hold nothing (R140). -/
theorem registerView_rsvd (s : State) (k : BitVec 1) : registerView s (0x18 + 4 * k.toNat) = 0 := by
  have hk := k.isLt
  unfold registerView
  repeat rw [if_neg (by omega)]

theorem registerView_h (s : State) (k : BitVec 2) : registerView s (0x20 + 4 * k.toNat) = digestWord s.h k := by
  have hk := k.isLt
  unfold registerView
  iterate 5 rw [if_neg (by omega)]
  rw [if_pos (by omega), show (0x20 + 4 * k.toNat - 0x20) / 4 = k.toNat by omega]
  simp [digestWord, hk]

theorem registerView_dout (s : State) (k : BitVec 2) : registerView s (0x30 + 4 * k.toNat) = digestWord s.dout k := by
  have hk := k.isLt
  unfold registerView
  iterate 6 rw [if_neg (by omega)]
  rw [if_pos (by omega), show (0x30 + 4 * k.toNat - 0x30) / 4 = k.toNat by omega]
  simp [digestWord, hk]

theorem registerView_buf (s : State) (j : BitVec 4) : registerView s (0x40 + 4 * j.toNat) = blockWord s.buf j := by
  have hj := j.isLt
  unfold registerView
  iterate 7 rw [if_neg (by omega)]
  rw [if_pos (by omega), show (0x40 + 4 * j.toNat - 0x40) / 4 = j.toNat by omega]
  simp [blockWord, hj]

/-! ## Reads -/

/-- An aligned read returns the register of its address (R131 to R140). -/
theorem exec_of_readAddress {i : Instr} {a : Nat} (h : readAddress i = some a) (s : State) :
    exec i s = .next (respond (registerView s a) s) := by
  cases i <;> cases h
  case rdCmd | rdData | rdStatus => rfl
  case rdBufLen => rw [registerView_bufLen]; rfl
  case rdLenLo => rw [registerView_lenLo]; rfl
  case rdLenHi => rw [registerView_lenHi]; rfl
  case rdRsvd k => rw [registerView_rsvd]; rfl
  case rdH k => rw [registerView_h]; rfl
  case rdDout k => rw [registerView_dout]; rfl
  case rdBuf j => rw [registerView_buf]; rfl

/-- No register of the map is written by a read's answer (R74). -/
theorem registerView_respond (v : Word) (s : State) (a : Nat) : registerView (respond v s) a = registerView s a := rfl

/-- Settles O14: the read's CTL and answer by its address; the answer leaves the register as it was for a second
read. -/
theorem readsAnswerTheRegisterOfTheirAddress : Obligations.ReadsAnswerTheRegisterOfTheirAddress := by
  intro s i a ha
  refine ⟨decodeBus_of_readAddress ha, exec_of_readAddress ha s, fun t ht => ?_⟩
  obtain rfl := Host.Outcome.next.inj ((exec_of_readAddress ha s).symm.trans ht)
  rw [exec_of_readAddress ha, registerView_respond]
  rfl

/-! ## Writes: what each store leaves at each address -/

theorem registerView_setData (v : Word) (s : State) (b : Nat) :
    registerView (setData v s) b = if b = 0x04 then v else registerView s b := by
  by_cases hb : b = 0x04
  · rw [if_pos hb, hb]
    rfl
  · rw [if_neg hb, registerView, if_neg hb, registerView, if_neg hb]
    rfl

/-- Settles O17: the write is `setData` with no guard, and `registerView_setData` says what each address then reads. -/
theorem dataWriteIsAcceptedInEveryPhase : Obligations.DataWriteIsAcceptedInEveryPhase := by
  intro s v
  refine ⟨decodeBus_of_writeAddress (i := .wrData v) rfl, setData v s, rfl, ?_, fun b hb => ?_, rfl⟩
  · rw [registerView_setData, if_pos rfl]
  · rw [registerView_setData, if_neg hb]

/-- `t` is `s` with `x` stored at address `a`, where `a` is a context register's: every other aligned address but
STATUS, which shows BUFLEN too (R46), reads as before. -/
structure StoresAt (a : Nat) (x : Word) (s t : State) : Prop where
  view : ∀ b, b ≠ 0x08 → b % 4 = 0 → registerView t b = if b = a then x else registerView s b
  frame : t = { s with h := t.h, buf := t.buf, bufLen := t.bufLen, len := t.len }

theorem storesAt_setBufLen (v : Word) (s : State) :
    StoresAt 0x0C (BitVec.ofNat 32 (v.toNat % 64)) s (setBufLen v s) := by
  refine ⟨fun b hstatus _ => ?_, rfl⟩
  by_cases hb : b = 0x0C
  · rw [if_pos hb, hb, registerView_bufLen, setBufLen_bufLen, ← BitVec.ofNat_toNat, BitVec.extractLsb'_toNat]
    rfl
  · simp only [registerView, if_neg hb, if_neg hstatus]
    rfl

theorem lenLo_append (x y : Word) : lenLo (x ++ y) = y := by
  apply BitVec.eq_of_toNat_eq
  rw [lenLo_toNat, toNat_append]
  omega

theorem lenHi_append (x y : Word) : lenHi (x ++ y) = x := by
  apply BitVec.eq_of_toNat_eq
  rw [lenHi_toNat, toNat_append]
  omega

theorem storesAt_setLenLo (v : Word) (s : State) : StoresAt 0x10 v s (setLenLo v s) := by
  refine ⟨fun b hstatus _ => ?_, rfl⟩
  by_cases hlo : b = 0x10
  · rw [if_pos hlo, hlo, registerView_lenLo, setLenLo_len, lenLo_append]
  · rw [if_neg hlo]
    by_cases hhi : b = 0x14
    · rw [hhi, registerView_lenHi, registerView_lenHi, setLenLo_len, lenHi_append]
    · simp only [registerView, if_neg hlo, if_neg hhi, if_neg hstatus]
      rfl

theorem storesAt_setLenHi (v : Word) (s : State) : StoresAt 0x14 v s (setLenHi v s) := by
  refine ⟨fun b hstatus _ => ?_, rfl⟩
  by_cases hhi : b = 0x14
  · rw [if_pos hhi, hhi, registerView_lenHi, setLenHi_len, lenHi_append]
  · rw [if_neg hhi]
    by_cases hlo : b = 0x10
    · rw [hlo, registerView_lenLo, registerView_lenLo, setLenHi_len, lenLo_append]
    · simp only [registerView, if_neg hlo, if_neg hhi, if_neg hstatus]
      rfl

theorem digestWord_setDigestWord (x : Digest) (i k : BitVec 2) (v : Word) :
    digestWord (setDigestWord x i v) k = if k = i then v else digestWord x k := by
  simp [digestWord, setDigestWord, Vector.getElem_set, BitVec.toNat_inj, eq_comm]

theorem blockWord_setBlockWord (x : Block) (i k : BitVec 4) (v : Word) :
    blockWord (setBlockWord x i v) k = if k = i then v else blockWord x k := by
  simp [blockWord, setBlockWord, Vector.getElem_set, BitVec.toNat_inj, eq_comm]

/-- An aligned address of a run of `2 ^ n` registers from `base` is that of one of its registers (R71). -/
theorem exists_register_of_aligned {n base b : Nat} (hbase : base % 4 = 0) (hb : b % 4 = 0) (hlo : base ≤ b)
    (hhi : b < base + 4 * 2 ^ n) : ∃ k : BitVec n, b = base + 4 * k.toNat := by
  refine ⟨BitVec.ofNat n ((b - base) / 4), ?_⟩
  rw [BitVec.toNat_ofNat, Nat.mod_eq_of_lt (by omega)]
  omega

/-- Two registers of such a run have the same address only if they are the same. -/
theorem register_address_inj {n base : Nat} {i k : BitVec n} : base + 4 * k.toNat = base + 4 * i.toNat ↔ k = i := by
  rw [← BitVec.toNat_inj]
  omega

theorem storesAt_setH (i : BitVec 2) (v : Word) (s : State) : StoresAt (0x20 + 4 * i.toNat) v s (setH i v s) := by
  refine ⟨fun b hstatus hb => ?_, rfl⟩
  by_cases hrun : 0x20 ≤ b ∧ b < 0x30
  · obtain ⟨k, rfl⟩ := exists_register_of_aligned (n := 2) rfl hb hrun.1 hrun.2
    simp only [registerView_h, setH_h, digestWord_setDigestWord, register_address_inj]
  · have hi := i.isLt
    rw [if_neg (by omega)]
    simp only [registerView, if_neg hrun, if_neg hstatus]
    rfl

theorem storesAt_setBuf (j : BitVec 4) (v : Word) (s : State) : StoresAt (0x40 + 4 * j.toNat) v s (setBuf j v s) := by
  refine ⟨fun b hstatus hb => ?_, rfl⟩
  by_cases hrun : 0x40 ≤ b ∧ b < 0x80
  · obtain ⟨k, rfl⟩ := exists_register_of_aligned (n := 4) rfl hb hrun.1 hrun.2
    simp only [registerView_buf, setBuf_buf, blockWord_setBlockWord, register_address_inj]
  · have hj := j.isLt
    rw [if_neg (by omega)]
    simp only [registerView, if_neg hrun, if_neg hstatus]
    rfl

/-! ## Context writes -/

/-- What a context write stores: BUFLEN takes `v[5:0]` (R146), the others the whole word. -/
def storedWord (a : Nat) (v : Word) : Word := if a = 0x0C then BitVec.ofNat 32 (v.toNat % 64) else v

/-- A context write is a store at its address, guarded by READY (R146 to R149, R151, R154). -/
theorem exec_context_write {i : Instr} {a : Nat} {v : Word} (hw : writeAddress i = some (a, v))
    (hctx : isContextAddress a = true) : ∃ op : State → State, ∀ s,
      exec i s = .next (whenReady .ctxBusy op s) ∧ StoresAt a (storedWord a v) s (op s) := by
  cases i <;> cases hw
  case wrBufLen => exact ⟨setBufLen v, fun s => ⟨rfl, storesAt_setBufLen v s⟩⟩
  case wrLenLo => exact ⟨setLenLo v, fun s => ⟨rfl, storesAt_setLenLo v s⟩⟩
  case wrLenHi => exact ⟨setLenHi v, fun s => ⟨rfl, storesAt_setLenHi v s⟩⟩
  case wrH k =>
    rw [storedWord, if_neg (by omega)]
    exact ⟨setH k v, fun s => ⟨rfl, storesAt_setH k v s⟩⟩
  case wrBuf j =>
    rw [storedWord, if_neg (by omega)]
    exact ⟨setBuf j v, fun s => ⟨rfl, storesAt_setBuf j v s⟩⟩
  case wrCmd | wrData | wrStatus => cases hctx
  case wrRsvd k =>
    have hno : ∀ k : BitVec 1, isContextAddress (0x18 + 4 * k.toNat) = false := by decide
    cases (hno k).symm.trans hctx
  case wrDout k =>
    have hno : ∀ k : BitVec 2, isContextAddress (0x30 + 4 * k.toNat) = false := by decide
    cases (hno k).symm.trans hctx

theorem writeAddress_aligned {i : Instr} {a : Nat} {v : Word} (hw : writeAddress i = some (a, v)) : a % 4 = 0 := by
  cases i <;> cases hw <;> omega

theorem ne_status_of_isContextAddress {a : Nat} (hctx : isContextAddress a = true) : a ≠ 0x08 := by
  rintro rfl
  cases hctx

/-- Settles O18: the store of `exec_context_write` with READY = 1, its guard's error with READY = 0. -/
theorem contextWritesStoreWhenReadyElseRaise : Obligations.ContextWritesStoreWhenReadyElseRaise := by
  intro s i a v hw hctx
  obtain ⟨op, hop⟩ := exec_context_write hw hctx
  obtain ⟨hexec, hstore⟩ := hop s
  refine ⟨decodeBus_of_writeAddress hw, fun hidle => ⟨op s, ?_, ?_, fun b hba hstatus hb => ?_, hstore.frame⟩,
    fun hbusy => ?_⟩
  · rw [hexec, whenReady_idle hidle]
  · rw [hstore.view a (ne_status_of_isContextAddress hctx) (writeAddress_aligned hw), if_pos rfl, storedWord]
  · rw [hstore.view b hstatus hb, if_neg hba]
  · rw [hexec, whenReady_busy hbusy, raiseErr_eq_errorState]

/-! ## Forbidden writes -/

/-- Settles O19: each is `raise ERR` of its cause (R145, R150, R152, R106). -/
theorem forbiddenWritesRaiseTheirCause : Obligations.ForbiddenWritesRaiseTheirCause := by
  intro s v
  have hraise (c : Cause) : (.next (raiseErr c s) : Result) = .next (errorState c s) :=
    congrArg Host.Outcome.next (raiseErr_eq_errorState c s)
  refine ⟨⟨decodeBus_of_writeAddress (i := .wrStatus v) rfl, fun i => ?_, fun k => ?_⟩, hraise .roWrite,
    fun _ => hraise .roWrite, fun _ => hraise .rsvdAddr, hraise .rsvdCmd,
    fun hv => (command_of_not_legal hv s).trans (hraise .rsvdCmd)⟩
  · have hdec := decodeBus_of_writeAddress (i := .wrDout i v) rfl
    rwa [← Nat.add_assoc] at hdec
  · have hdec := decodeBus_of_writeAddress (i := .wrRsvd k v) rfl
    rwa [← Nat.add_assoc] at hdec

end Sys2Proof.Machine
end

section
/-! A write to CMD (40_host_access.md R143, 41_commands.md R160): it is the command that its word decodes to. -/

namespace Sys2Proof.Machine

open Sys2Proof.Claims

/-- UPDATE of `k` bytes, whichever its row (R163). -/
theorem exec_updateOf (k : Fin 5) (s : State) :
    exec (updateOf k) s = .next (whenReady .cmdBusy (update k.val) s) := by
  fin_cases k <;> rfl

/-- A write to CMD does what its word decodes to does (R143, R160). -/
theorem exec_wrCmd (v : Word) (s : State) : exec (.wrCmd v) s = exec (decodeCmd v) s := by
  change command v s = _
  rcases command_cases v s with ⟨hill, hc⟩ | ⟨rfl, hc⟩ | ⟨rfl, hc⟩ | ⟨k, rfl, hc⟩ | ⟨rfl, hc⟩ <;> rw [hc]
  · rw [decodeCmd_of_not_legal hill]
    rfl
  · rfl
  · rfl
  · rw [decodeCmd_updateWord, exec_updateOf]
  · rfl

/-- Settles O22: the command that `v` decodes to, and what `Command(v)` does where it is turned away. -/
theorem writeToCmdRunsTheCommand : Obligations.WriteToCmdRunsTheCommand := by
  intro s v
  refine ⟨decodeBus_of_writeAddress (i := .wrCmd v) rfl, exec_wrCmd v s, fun hv => ?_, exec_wrCmd 0 s, exec_wrCmd 1 s,
    fun hbusy hv h0 h1 => ?_, exec_wrCmd 3 s, fun k => ?_⟩
  · rw [← raiseErr_eq_errorState]
    exact command_of_not_legal hv s
  · rw [← raiseErr_eq_errorState]
    exact command_of_busy hv h0 h1 hbusy
  · have hdec : ∀ k : Fin 5, decodeCmd (BitVec.ofNat 32 (16 * k.val + 2)) = updateOf k := by decide
    rw [exec_wrCmd, hdec]

end Sys2Proof.Machine
end

section
/-! What the context determines (40_host_access.md R155): two states that the host cannot tell apart by their context
stay so under the operations of UPDATE and FINALIZE. -/

namespace Sys2Proof.Machine

open Sys2Proof.Claims

/-- Two states with the same context, idle or with the same block in flight: what R155 asks to be kept. -/
structure SameEngine (s t : State) : Prop where
  h : s.h = t.h
  len : s.len = t.len
  bufLen : s.bufLen = t.bufLen
  phase : s.phase = t.phase
  fstate : s.fstate = t.fstate
  bytes : ∀ p : BitVec 6, p.toNat < s.bufLen.toNat → byteAt s.buf p = byteAt t.buf p
  inFlight : s.phase ≠ .idle → s.m = t.m ∧ s.a = t.a ∧ s.b = t.b ∧ s.c = t.c ∧ s.d = t.d ∧ s.r = t.r

theorem SameEngine.of_sameContext {s t : State} (hctx : SameContext s t) : SameEngine s t where
  h := hctx.h
  len := hctx.len
  bufLen := hctx.bufLen
  phase := hctx.idle.1.trans hctx.idle.2.symm
  fstate := hctx.none.1.trans hctx.none.2.symm
  bytes := hctx.bytes
  inFlight := fun hbusy => absurd hctx.idle.1 hbusy

/-! ## The latch -/

/-- Equal full buffers over equal `H` and `L` are latched alike, whatever else differs (R200, R201). -/
theorem sameEngine_latch (f : FState) (final : Bool) {s t : State} (hh : s.h = t.h) (hlen : s.len = t.len)
    (hbuf : s.buf = t.buf) : SameEngine (setFState f (latch final s)) (setFState f (latch final t)) where
  h := hh
  len := hlen
  bufLen := rfl
  phase := rfl
  fstate := rfl
  bytes := fun _ _ => rfl
  inFlight := fun _ => by simp [hh, hbuf]

/-! ## UPDATE -/

/-- A byte stored behind equal buffered bytes. -/
theorem byteAt_setByte_congr {b b' : Block} {n p : BitVec 6} (x : Byte)
    (h : ∀ p : BitVec 6, p.toNat < n.toNat → byteAt b p = byteAt b' p) (hp : p.toNat ≤ n.toNat) :
    byteAt (setByte b n x) p = byteAt (setByte b' n x) p := by
  rw [byteAt_setByte, byteAt_setByte]
  split_ifs with hn
  · rfl
  · have hne : p.toNat ≠ n.toNat := fun e => hn (BitVec.eq_of_toNat_eq e.symm)
    exact h p (by omega)

/-- The same byte appended to both (R164), whether or not it fills the buffer. -/
theorem sameEngine_appendByte {s t : State} (hst : SameEngine s t) (x : Byte) :
    SameEngine (appendByte s x) (appendByte t x) := by
  have hbytes (p : BitVec 6) (hp : p.toNat ≤ s.bufLen.toNat) :
      byteAt (setByte s.buf s.bufLen x) p = byteAt (setByte t.buf t.bufLen x) p := by
    rw [← hst.bufLen]
    exact byteAt_setByte_congr x hst.bytes hp
  have hlt := s.bufLen.isLt
  rcases Nat.lt_or_ge (s.bufLen.toNat + 1) 64 with hroom | hfull
  · have hroom' : t.bufLen.toNat + 1 < 64 := hst.bufLen ▸ hroom
    rw [appendByte_within hroom, appendByte_within hroom']
    have hsucc : (s.bufLen + 1).toNat = s.bufLen.toNat + 1 := BitVec.toNat_add_of_lt hroom
    exact { hst with
      bufLen := congrArg (· + 1) hst.bufLen
      bytes := fun p hp => hbytes p (by simp only [hsucc] at hp; omega) }
  · have hs : s.bufLen.toNat = 63 := by omega
    have ht : t.bufLen.toNat = 63 := hst.bufLen ▸ hs
    rw [appendByte_full hs, appendByte_full ht]
    exact sameEngine_latch _ _ hst.h hst.len (block_ext_bytes fun p => hbytes p (by have := p.isLt; omega))

theorem sameEngine_countBits (n : Nat) {s t : State} (hst : SameEngine s t) :
    SameEngine (countBits n s) (countBits n t) :=
  { hst with len := by simp only [countBits, hst.len] }

/-- UPDATE with the same DATA: the same bytes, one after the other, and the same count (R163). -/
theorem sameEngine_update (n : Nat) {s t : State} (hst : SameEngine s t) (hdata : s.data = t.data) :
    SameEngine (update n s) (update n t) := by
  rw [update, update, hdata]
  exact sameEngine_countBits n (List.foldl_rel hst fun x _ _ _ h => sameEngine_appendByte h x)

/-! ## FINALIZE -/

/-- The buffered bytes, 0x80 and `n` zero bytes, in the buffer of `s` (R169 to R171). -/
def paddedBlock (s : State) (n : Nat) : Block :=
  zeroBytes (setByte s.buf s.bufLen 0x80#8) (s.bufLen.toNat + 1) n

theorem finalize_onePad {s : State} (h : s.bufLen.toNat ≤ 55) : finalize s = setFState .last (latch true
    { s with dvalid := false, buf := setLengthWords s.len (paddedBlock s (55 - s.bufLen.toNat)) }) := if_pos h

theorem finalize_twoPad {s : State} (h : ¬ s.bufLen.toNat ≤ 55) : finalize s = setFState .pad2 (latch false
    { s with dvalid := false, buf := paddedBlock s (63 - s.bufLen.toNat) }) := if_neg h

/-- The padding hides every byte but the buffered ones, as far as it reaches. -/
theorem byteAt_paddedBlock_congr {s t : State} (hst : SameEngine s t) {n : Nat} {p : BitVec 6}
    (hn : s.bufLen.toNat + 1 + n ≤ 64) (hp : p.toNat ≤ s.bufLen.toNat + n) :
    byteAt (paddedBlock s n) p = byteAt (paddedBlock t n) p := by
  rw [paddedBlock, paddedBlock, byteAt_padded s n p hn hp,
    byteAt_padded t n p (hst.bufLen ▸ hn) (hst.bufLen ▸ hp), ← hst.bufLen]
  split_ifs with hlt
  · exact hst.bytes p hlt
  · rfl
  · rfl

/-- The length words hide the last eight bytes (R170). -/
theorem setLengthWords_congr (l : BitVec 64) {b b' : Block}
    (h : ∀ p : BitVec 6, p.toNat < 56 → byteAt b p = byteAt b' p) : setLengthWords l b = setLengthWords l b' := by
  apply block_ext_bytes
  intro p
  by_cases hp : p.toNat < 56
  · rw [byteAt_setLengthWords l b p hp, byteAt_setLengthWords l b' p hp, h p hp]
  · have hlt := p.isLt
    have hword : 14 = p.toNat / 4 ∨ 15 = p.toNat / 4 := by omega
    simp only [byteAt, byteWord, setLengthWords, Vector.getElem_set]
    rcases hword with hw | hw <;> simp [← hw]

/-- FINALIZE latches the same padded block, in one block or in two (R168 to R171). -/
theorem sameEngine_finalize {s t : State} (hst : SameEngine s t) : SameEngine (finalize s) (finalize t) := by
  have hlt := s.bufLen.isLt
  by_cases hone : s.bufLen.toNat ≤ 55
  · rw [finalize_onePad hone, finalize_onePad (hst.bufLen ▸ hone)]
    refine sameEngine_latch _ _ hst.h hst.len ?_
    simp only [← hst.bufLen, ← hst.len]
    exact setLengthWords_congr _ fun p hp => byteAt_paddedBlock_congr hst (by omega) (by omega)
  · rw [finalize_twoPad hone, finalize_twoPad (hst.bufLen ▸ hone)]
    refine sameEngine_latch _ _ hst.h hst.len (block_ext_bytes fun p => ?_)
    have hp := p.isLt
    simp only [← hst.bufLen]
    exact byteAt_paddedBlock_congr hst (by omega) (by omega)

/-! ## The statement -/

/-- Settles O50: an UPDATE and a FINALIZE keep `SameEngine`, which the same context gives. -/
theorem contextDeterminesTheCommands : Obligations.ContextDeterminesTheCommands := by
  intro s t i hctx hdata hi
  have hst := SameEngine.of_sameContext hctx
  obtain ⟨op, hop, hs, ht⟩ : ∃ op : State → State, SameEngine (op s) (op t) ∧
      exec i s = .next (op s) ∧ exec i t = .next (op t) := by
    rcases hi with ⟨k, rfl⟩ | rfl
    · refine ⟨update k.val, sameEngine_update k.val hst hdata, ?_, ?_⟩
      · rw [exec_updateOf, whenReady_idle hctx.idle.1]
      · rw [exec_updateOf, whenReady_idle hctx.idle.2]
    · exact ⟨finalize, sameEngine_finalize hst, congrArg Host.Outcome.next (whenReady_idle hctx.idle.1),
        congrArg Host.Outcome.next (whenReady_idle hctx.idle.2)⟩
  exact ⟨op s, op t, hs, ht, hop.h, hop.len, hop.bufLen, hop.phase, hop.fstate, hop.bytes, hop.inFlight⟩

end Sys2Proof.Machine
end

section
/-! The commands, one transition each (41_commands.md R161 to R171): NOP and the idle engine, RESET, the bytes and the
bits that an UPDATE adds, and the block that a FINALIZE pads and latches. -/

namespace Sys2Proof.Machine

open Sys2Proof.Claims

/-! ## NOP and RESET -/

/-- With phase IDLE the engine's turn changes nothing (R202). -/
theorem engine_turn_idle {s : State} (hidle : s.phase = .idle) : exec (decodeStep (sel s)) s = .next s := by
  have hsel : sel s = 0#2 ++ s.r := by rw [sel, hidle]; rfl
  rw [hsel, decodeStep_idle]
  rfl

/-- Settles O23: NOP and the step of IDLE answer their state, and the turn of an idle engine is that step. -/
theorem nopAndIdleChangeNothing : Obligations.NopAndIdleChangeNothing := by
  intro s
  refine ⟨rfl, exec_wrCmd 0 s, fun _ => rfl, fun hreset hidle rest hin => ?_⟩
  have hturn : step { s with inputs := .engine :: rest } = .next { s with inputs := rest } :=
    (step_engine_turn hreset).trans (engine_turn_idle (s := { s with inputs := rest }) hidle)
  rwa [← hin] at hturn

/-- An idle engine with an empty context holds the empty message (R167). -/
theorem represents_nil {s : State} (hidle : s.phase = .idle) (hf : s.fstate = .none) (hh : s.h = iv)
    (hbufLen : s.bufLen = 0) (hlen : s.len = 0) : Represents s [] where
  ready := hidle
  fstate := hf
  running := hh.trans (absorb_zero []).symm
  count := congrArg BitVec.toNat hbufLen
  tail := fun p hp => by simp [hbufLen] at hp
  length := hlen

/-- After RESET the engine holds the empty message (R162, R167). -/
theorem represents_resetCmd (s : State) : Represents (resetCmd s) [] := represents_nil rfl rfl rfl rfl rfl

/-- Settles O24: both forms of the command answer `resetCmd s`. -/
theorem resetCommandRestoresTheInitialState : Obligations.ResetCommandRestoresTheInitialState := by
  intro s
  have hzero {n : Nat} (j : Fin n) : (Vector.replicate n (0 : Word))[j] = 0 := by simp
  have hstatus : status State.reset = 1 := by decide
  exact ⟨resetCmd s, rfl, exec_wrCmd 1 s, rfl, fun j => ⟨hzero j, hzero j⟩, hzero, rfl, rfl, rfl, rfl, rfl, rfl, rfl,
    rfl, rfl, rfl, rfl, rfl, rfl, hstatus, rfl, rfl, rfl, rfl, rfl, represents_resetCmd s⟩

/-! ## The bytes of a word, by significance and in wire order (R76, R77) -/

/-- Byte `k` of a swapped word is the byte that stands `k`-th in wire order (R246). -/
theorem byteK_bswap32 (w : Word) {k : Nat} (hk : k < 4) : byteK (bswap32 w) k = dataByte w k := by
  apply BitVec.eq_of_getLsbD_eq
  intro n hn
  simp only [byteK, bswap32, dataByte, BitVec.getLsbD_setWidth, BitVec.getLsbD_ushiftRight, BitVec.getLsbD_append,
    BitVec.getLsbD_extractLsb', hn]
  interval_cases k <;> grind

/-- The claims' byte of DATA is the model's. -/
theorem wireByte_eq_dataByte (w : Word) {q : Nat} (hq : q < 4) : wireByte w q = dataByte w q := by
  apply BitVec.eq_of_getLsbD_eq
  intro n hn
  simp [wireByte, byteK, dataByte, hn, show 8 * (3 - q) = 24 - 8 * q by omega]

theorem position_toNat {n : Nat} (hn : n < 64) : (BitVec.ofNat 6 n).toNat = n :=
  (BitVec.toNat_ofNat ..).trans (Nat.mod_eq_of_lt hn)

/-- Byte position `4j + k` is byte `k` in wire order of word `j` (R75). -/
theorem byteAt_word (b : Block) {j k : Nat} (hj : j < 16) (hk : k < 4) :
    byteAt b (BitVec.ofNat 6 (4 * j + k)) = dataByte b[j] k := by
  have hp : (BitVec.ofNat 6 (4 * j + k)).toNat = 4 * j + k := position_toNat (by omega)
  have hword : (4 * j + k) / 4 = j := by omega
  have hbyte : (4 * j + k) % 4 = k := by omega
  simp only [byteAt, byteWord, byteShift, dataByte, hp, hword, hbyte]

/-- A word that the latch swaps holds its four buffered bytes in internal order (R77, R200). -/
theorem isWordOf_latchWords {final : Bool} {b : Block} {j : Nat} {f : Nat → Byte} (hj : j < 16)
    (hswap : final = true → j < 14)
    (hbytes : ∀ p : BitVec 6, p.toNat / 4 = j → byteAt b p = f p.toNat) : IsWordOf (latchWords final b)[j] f j := by
  intro k
  have hp : (BitVec.ofNat 6 (4 * j + k.val)).toNat = 4 * j + k.val := position_toNat (by omega)
  rw [latchWords_getElem _ _ _ hj, if_neg fun h => absurd (hswap h.1) (by omega), byteK_bswap32 _ k.isLt,
    ← byteAt_word b hj k.isLt, hbytes _ (by omega), hp]

/-! ## UPDATE -/

/-- With READY = 1 the row of UPDATE runs `update` (R163). -/
theorem exec_updateOf_idle {s : State} (hidle : s.phase = .idle) (k : Fin 5) :
    exec (updateOf k) s = .next (update k.val s) := by
  rw [exec_updateOf, whenReady_idle hidle]

/-- Settles O26: `update_within` and `update_full`, in the bytes of the claims. -/
theorem updateAppendsItsBytes : Obligations.UpdateAppendsItsBytes := by
  intro s k hidle
  refine ⟨update k.val s, exec_updateOf_idle hidle k, fun hroom => ?_, fun hfull => ?_⟩
  · obtain ⟨b, hupdate, hb⟩ := update_within s k.val hroom
    rw [hupdate]
    refine ⟨position_toNat hroom, fun p => (hb p).trans ?_, rfl⟩
    split_ifs with hp
    · exact (wireByte_eq_dataByte _ (by omega)).symm
    · rfl
  · obtain ⟨b0, b1, hupdate, hb0, hb1⟩ := update_full s k.val hfull (by omega)
    have hlen : (BitVec.ofNat 6 (s.bufLen.toNat + k.val - 64)).toNat = s.bufLen.toNat + k.val - 64 :=
      position_toNat (by omega)
    rw [hupdate]
    refine ⟨fun j => isWordOf_latchWords j.isLt nofun fun p _ => (hb0 p).trans ?_, rfl, rfl, rfl, rfl, rfl, rfl, rfl,
      hlen, fun p => (hb1 p).trans ?_, rfl⟩
    · have hp := p.isLt
      rw [streamByte, BitVec.ofNat_toNat, BitVec.setWidth_eq, wireByte_eq_dataByte _ (by omega)]
    · have hp : p.toNat < (BitVec.ofNat 6 (s.bufLen.toNat + k.val - 64)).toNat ↔
        p.toNat < s.bufLen.toNat + k.val - 64 := by rw [hlen]
      simp only [countBits, hp]
      split_ifs with hp
      · exact (wireByte_eq_dataByte _ (by omega)).symm
      · rfl

/-- The appended bytes leave L as it was, to which the count is then added (R163, R166). -/
theorem update_len_toNat (s : State) {n : Nat} (hn : n ≤ 64) :
    (update n s).len.toNat = (s.len.toNat + 8 * n) % 2 ^ 64 := by
  rcases Nat.lt_or_ge (s.bufLen.toNat + n) 64 with hroom | hfull
  · obtain ⟨b, hupdate, -⟩ := update_within s n hroom
    rw [hupdate]
    exact countBits_len_toNat n _
  · obtain ⟨b0, b1, hupdate, -⟩ := update_full s n hfull hn
    rw [hupdate]
    exact countBits_len_toNat n _

/-- Settles O27: L by `update_len_toNat`, LOVF by `update_results`. -/
theorem updateCountsItsBits : Obligations.UpdateCountsItsBits := by
  intro s k hidle
  have hk : k.val ≤ 4 := by omega
  exact ⟨update k.val s, exec_updateOf_idle hidle k, update_len_toNat s (by omega), (update_results s hk).lovf⟩

/-! ## FINALIZE -/

/-- As far as it reaches, the padding is that of the claims (R169 to R171). -/
theorem byteAt_paddedBlock (s : State) {n : Nat} {p : BitVec 6} (hn : s.bufLen.toNat + 1 + n ≤ 64)
    (hp : p.toNat ≤ s.bufLen.toNat + n) : byteAt (paddedBlock s n) p = paddedByte s p.toNat := by
  rw [paddedBlock, byteAt_padded s n p hn hp, paddedByte, BitVec.ofNat_toNat, BitVec.setWidth_eq]
  rfl

theorem lenLo_eq_ofNat (l : BitVec 64) : lenLo l = BitVec.ofNat 32 l.toNat := by
  apply BitVec.eq_of_toNat_eq
  rw [lenLo_toNat, BitVec.toNat_ofNat]

theorem lenHi_eq_ofNat (l : BitVec 64) : lenHi l = BitVec.ofNat 32 (l.toNat / 2 ^ 32) := by
  rw [← lenHi_toNat, BitVec.ofNat_toNat, BitVec.setWidth_eq]

/-- The latch copies the two length words of a final block (R170, R200). -/
theorem latchWords_lengthWords (l : BitVec 64) (b : Block) :
    (latchWords true (setLengthWords l b))[14] = lenLo l ∧ (latchWords true (setLengthWords l b))[15] = lenHi l := by
  simp [latchWords_getElem, setLengthWords]

/-- Settles O28: one block with the length words of `latchWords_lengthWords`, or the first of two. -/
theorem finalizePadsAndLatches : Obligations.FinalizePadsAndLatches := by
  intro s hidle
  refine ⟨finalize s, congrArg Host.Outcome.next (whenReady_idle hidle), ?_⟩
  have hlt := s.bufLen.isLt
  by_cases hone : s.bufLen.toNat ≤ 55
  · obtain ⟨hlo, hhi⟩ := latchWords_lengthWords s.len (paddedBlock s (55 - s.bufLen.toNat))
    rw [finalize_onePad hone]
    refine ⟨fun j => isWordOf_latchWords (by omega) (fun _ => j.isLt) fun p hp => ?_,
      fun _ => ⟨hlo.trans (lenLo_eq_ofNat _), hhi.trans (lenHi_eq_ofNat _), rfl⟩, fun _ => by omega, rfl⟩
    have hj := j.isLt
    rw [byteAt_setLengthWords _ _ _ (by omega)]
    exact byteAt_paddedBlock s (by omega) (by omega)
  · have hword (j : Nat) (hj : j < 16) :
        IsWordOf (latchWords false (paddedBlock s (63 - s.bufLen.toNat)))[j] (paddedByte s) j :=
      isWordOf_latchWords hj nofun fun p _ => byteAt_paddedBlock s (by omega) (by have := p.isLt; omega)
    rw [finalize_twoPad hone]
    exact ⟨fun j => hword j (by omega), fun _ => by omega,
      fun _ => ⟨hword 14 (by omega), hword 15 (by omega), rfl⟩, rfl⟩

end Sys2Proof.Machine
end

section
/-! Streaming (41_commands.md R167, R172, 42_compression.md R209 to R213): an UPDATE with the engine's turns appends its
bytes to the message the engine holds, and a FINALIZE with them outputs the message's digest. -/

namespace Sys2Proof.Machine

open Sys2Proof.Claims

/-! ## The 65 turns of a latched block -/

/-- A block that `Latch` has just handed to the compression (R200, R201). -/
structure Latched (s : State) : Prop where
  everReset : s.everReset = true
  phase : s.phase = .round
  r : s.r = 0
  a : s.a = s.h[0]
  b : s.b = s.h[1]
  c : s.c = s.h[2]
  d : s.d = s.h[3]

theorem latched_latch (f : FState) (final : Bool) {s : State} (hreset : s.everReset = true) :
    Latched (setFState f (latch final s)) := ⟨hreset, rfl, rfl, rfl, rfl, rfl, rfl⟩

/-- The block of `s` gone into `H`, with `w` left in the working variables (R208, R209, R212). -/
def blockDone (w : Work) (s : State) : State :=
  { s with h := compress s.h s.m, a := w.a, b := w.b, c := w.c, d := w.d, r := 0, phase := .idle }

/-- The first 65 turns of a latched block, by what follows it (R209 to R212). -/
theorem run_latched {s : State} (hs : Latched s) (k : Nat) (rest : List Input) : ∃ w,
    (s.fstate = .none →
      core.run 65 (engineTurns (65 + k) rest s) = .next (engineTurns k rest (blockDone w s))) ∧
    (s.fstate = .pad2 →
      core.run 65 (engineTurns (65 + k) rest s) = .next (engineTurns k rest (secondPadBlock (blockDone w s)))) ∧
    (s.fstate = .last →
      core.run 65 (engineTurns (65 + k) rest s) = .next (engineTurns k rest (complete (blockDone w s)))) := by
  have hrun := run_block s rest hs.everReset hs.phase hs.r hs.a hs.b hs.c hs.d k
  obtain ⟨w, hnone, hpad2, hlast⟩ := accumulate_afterRounds s 64 (List.replicate k .engine ++ rest)
  simp only [← compress_eq] at hnone hpad2 hlast
  refine ⟨w, fun hf => hrun.trans ?_, fun hf => hrun.trans ?_, fun hf => hrun.trans ?_⟩
  · rw [hnone hf]; rfl
  · rw [hpad2 hf]; rfl
  · rw [hlast hf]; rfl

/-- Turns of an idle engine (R202), as the claims write them. -/
theorem run_engineTurns_idle {s : State} (hreset : s.everReset = true) (hidle : s.phase = .idle) (n : Nat)
    (rest : List Input) : core.run n (engineTurns n rest s) = .next (engineTurns 0 rest s) :=
  run_idle n s rest hreset hidle

/-! ## The message an engine holds -/

/-- The message stands in none of the fields that only the host, or the interleaving, writes. -/
theorem Represents.of_host_fields {s : State} {msg : List Byte} (hs : Represents s msg) (v : Word) (l : List Input)
    (x : Option Word) : Represents { s with data := v, inputs := l, rdata := x } msg :=
  ⟨hs.ready, hs.fstate, hs.running, hs.count, hs.tail, hs.length⟩

theorem represents_engineTurns {s : State} {msg : List Byte} (hs : Represents s msg) (n : Nat) (rest : List Input) :
    Represents (engineTurns n rest s) msg := hs.of_host_fields s.data _ s.rdata

/-- The message is its full blocks and the buffered bytes. -/
theorem Represents.msg_length {s : State} {msg : List Byte} (hs : Represents s msg) :
    msg.length = 64 * (msg.length / 64) + s.bufLen.toNat := by
  rw [hs.count, Nat.div_add_mod]

/-- Byte `p` of the block that the engine is filling, when the bytes `x` follow (R164, R167). -/
theorem Represents.byteOf_append {s : State} {msg : List Byte} (hs : Represents s msg) (x : List Byte) (p : BitVec 6) :
    byteOf (msg ++ x) (64 * (msg.length / 64) + p.toNat) =
      if p.toNat < s.bufLen.toNat then byteAt s.buf p else byteOf x (p.toNat - s.bufLen.toNat) := by
  have hmsg := hs.msg_length
  split_ifs with hp
  · rw [byteOf_append_left (by omega), hs.tail p hp]
  · rw [byteOf_append_right (by omega)]
    congr 1
    omega

theorem byteOf_dataBytes (w : Word) {n k : Nat} (hk : k < n) : byteOf (dataBytes w n) k = dataByte w k :=
  byteOf_map_range _ hk

/-! ## UPDATE -/

/-- An UPDATE leaves the operand, the last digest, the errors and the reset mark (R163). -/
theorem update_frame (s : State) {n : Nat} (hn : n ≤ 64) :
    (update n s).data = s.data ∧ (update n s).dout = s.dout ∧ (update n s).dvalid = s.dvalid ∧
      (update n s).err = s.err ∧ (update n s).ecause = s.ecause ∧ (update n s).everReset = s.everReset := by
  rcases Nat.lt_or_ge (s.bufLen.toNat + n) 64 with hroom | hfull
  · obtain ⟨b, hupdate, -⟩ := update_within s n hroom
    rw [hupdate]
    exact ⟨rfl, rfl, rfl, rfl, rfl, rfl⟩
  · obtain ⟨b0, b1, hupdate, -⟩ := update_full s n hfull hn
    rw [hupdate]
    exact ⟨rfl, rfl, rfl, rfl, rfl, rfl⟩

/-- L counts the bits of the message with its new bytes (R166). -/
theorem Represents.update_len {s : State} {msg : List Byte} (hs : Represents s msg) {n : Nat} (hn : n ≤ 64) :
    (update n s).len = BitVec.ofNat 64 (8 * (msg.length + n)) := by
  apply BitVec.eq_of_toNat_eq
  rw [update_len_toNat s hn, hs.length, BitVec.toNat_ofNat, BitVec.toNat_ofNat]
  omega

/-- An UPDATE that does not fill the buffer leaves the longer message at once (R164, R167). -/
theorem Represents.update_of_room {s : State} {msg : List Byte} (hs : Represents s msg) {n : Nat}
    (hroom : s.bufLen.toNat + n < 64) : Represents (update n s) (msg ++ dataBytes s.data n) := by
  have hmsg := hs.msg_length
  have hlength : (msg ++ dataBytes s.data n).length = msg.length + n := by simp
  have hblocks : (msg.length + n) / 64 = msg.length / 64 := by omega
  have hcount : (BitVec.ofNat 6 (s.bufLen.toNat + n)).toNat = s.bufLen.toNat + n := position_toNat hroom
  have hlen := hs.update_len (n := n) (by omega)
  obtain ⟨b, hupdate, hb⟩ := update_within s n hroom
  rw [hupdate] at hlen ⊢
  refine ⟨hs.ready, hs.fstate, ?_, hcount.trans (by omega), fun p hp => (hb p).trans ?_, hlength ▸ hlen⟩
  · rw [hlength, hblocks, absorb_append _ _ _ (by omega)]
    exact hs.running
  · replace hp : p.toNat < s.bufLen.toNat + n := hp.trans_eq hcount
    rw [hlength, hblocks, hs.byteOf_append]
    split_ifs with hnew hold hold
    · omega
    · exact (byteOf_dataBytes _ (by omega)).symm
    · rfl
    · omega

/-- An UPDATE that fills the buffer latches the message's next block (R165). -/
theorem Represents.latched_update {s : State} {msg : List Byte} (hs : Represents s msg) (hreset : s.everReset = true)
    {n : Nat} (hfull : 64 ≤ s.bufLen.toNat + n) (hn : n ≤ 64) :
    Latched (update n s) ∧ (update n s).fstate = .none ∧
      (update n s).m = blockOf (msg ++ dataBytes s.data n) (64 * (msg.length / 64)) := by
  obtain ⟨b0, b1, hupdate, hb0, -⟩ := update_full s n hfull hn
  rw [hupdate]
  refine ⟨⟨hreset, rfl, rfl, rfl, rfl, rfl, rfl⟩, rfl, latchWords_false_eq_blockOf fun p => ?_⟩
  have hp := p.isLt
  rw [hb0, hs.byteOf_append]
  split_ifs
  · rfl
  · exact (byteOf_dataBytes _ (by omega)).symm

/-- When the block that an UPDATE filled has gone into `H`, the engine holds the longer message (R167). -/
theorem Represents.update_of_full {s : State} {msg : List Byte} (hs : Represents s msg) (hreset : s.everReset = true)
    {n : Nat} (hfull : 64 ≤ s.bufLen.toNat + n) (hn : n ≤ 64) (w : Work) :
    Represents (blockDone w (update n s)) (msg ++ dataBytes s.data n) := by
  have hmsg := hs.msg_length
  have hlt := s.bufLen.isLt
  have hlength : (msg ++ dataBytes s.data n).length = msg.length + n := by simp
  have hblocks : (msg.length + n) / 64 = msg.length / 64 + 1 := by omega
  have hcount : (BitVec.ofNat 6 (s.bufLen.toNat + n - 64)).toNat = s.bufLen.toNat + n - 64 :=
    position_toNat (by omega)
  have hlen := hs.update_len hn
  obtain ⟨-, -, hm⟩ := hs.latched_update hreset hfull hn
  obtain ⟨b0, b1, hupdate, -, hb1⟩ := update_full s n hfull hn
  rw [hupdate] at hlen hm ⊢
  refine ⟨rfl, rfl, ?_, hcount.trans (by omega), fun p hp => (hb1 p).trans ?_, hlength ▸ hlen⟩
  · rw [hlength, hblocks, absorb_succ, absorb_append _ _ _ (by omega), ← hs.running, ← hm]
    rfl
  · replace hp : p.toNat < s.bufLen.toNat + n - 64 := hp.trans_eq hcount
    rw [if_pos hp, hlength, hblocks, byteOf_append_right (by omega), byteOf_dataBytes _ (by omega)]
    congr 1
    omega

/-- UPDATE and 65 turns of the engine (R167). -/
theorem Represents.update_run {s : State} {msg : List Byte} (hs : Represents s msg) (hreset : s.everReset = true)
    {n : Nat} (hn : n ≤ 64) (rest : List Input) :
    ∃ u, core.run 65 (engineTurns 65 rest (update n s)) = .next u ∧ Represents u (msg ++ dataBytes s.data n) ∧
      u.data = s.data ∧ u.dout = s.dout ∧ u.dvalid = s.dvalid ∧ u.err = s.err ∧ u.ecause = s.ecause ∧
      u.everReset = s.everReset ∧ u.inputs = rest := by
  obtain ⟨hdata, hdout, hdvalid, herr, hecause, hmark⟩ := update_frame s hn
  rcases Nat.lt_or_ge (s.bufLen.toNat + n) 64 with hroom | hfull
  · have hrep := hs.update_of_room hroom
    exact ⟨_, run_engineTurns_idle (hmark.trans hreset) hrep.ready 65 rest, represents_engineTurns hrep 0 rest,
      hdata, hdout, hdvalid, herr, hecause, hmark, rfl⟩
  · obtain ⟨hlatched, hf, -⟩ := hs.latched_update hreset hfull hn
    obtain ⟨w, hrun, -, -⟩ := run_latched hlatched 0 rest
    exact ⟨_, hrun hf, represents_engineTurns (hs.update_of_full hreset hfull hn w) 0 rest,
      hdata, hdout, hdvalid, herr, hecause, hmark, rfl⟩

theorem dataBytes_eq_map_wireByte (w : Word) {n : Nat} (hn : n ≤ 4) :
    dataBytes w n = (List.range n).map (wireByte w) := by
  refine List.map_congr_left fun q hq => (wireByte_eq_dataByte w ?_).symm
  have := List.mem_range.mp hq
  omega

/-- Settles O46: `Represents.update_run`, in the bytes of the claims. -/
theorem updateStreamsTheMessage : Obligations.UpdateStreamsTheMessage := by
  intro s msg k rest hreset hs
  obtain ⟨u, hrun, hrep, hdata, hdout, hdvalid, herr, hecause, -, hinputs⟩ :=
    hs.update_run hreset (n := k.val) (by omega) rest
  rw [dataBytes_eq_map_wireByte _ (by omega)] at hrep
  exact ⟨update k.val s, u, exec_updateOf_idle hs.ready k, hrun, hrep, herr, hecause, hdata, hdout, hdvalid, hinputs⟩

/-! ## The padded message (R172) -/

/-- The zero bytes of the padding, `(55 - n) mod 64` of them (R172). -/
def padZeros (msg : List Byte) : Nat := (119 - msg.length % 64) % 64

theorem pad_eq (msg : List Byte) : pad msg = msg ++ (0x80#8 ::
    (List.replicate (padZeros msg) 0 ++ le64 (BitVec.ofNat 64 (8 * msg.length)))) := by
  simp [pad, padZeros]

theorem pad_length (msg : List Byte) : (pad msg).length = msg.length + 1 + padZeros msg + 8 := by
  simp [pad_eq, le64]
  omega

/-- Up to the length, the padded message is the message, 0x80 and zeros. -/
theorem byteOf_pad {msg : List Byte} {p : Nat} (hp : p < msg.length + 1 + padZeros msg) :
    byteOf (pad msg) p = if p < msg.length then byteOf msg p else if p = msg.length then 0x80#8 else 0 := by
  rw [pad_eq]
  split_ifs with hlt heq
  · exact byteOf_append_left hlt
  · rw [byteOf_append_right (by omega), heq, Nat.sub_self]
    rfl
  · rw [byteOf_append_right (by omega), show p - msg.length = p - msg.length - 1 + 1 by omega]
    change byteOf (_ ++ _) _ = _
    rw [byteOf_append_left (by simp; omega)]
    simp [byteOf, show p - msg.length - 1 < padZeros msg by omega]

/-- The last eight bytes of the padded message are its length in bits (R172). -/
theorem byteOf_pad_length (msg : List Byte) {k : Nat} (hk : k < 8) :
    byteOf (pad msg) (msg.length + 1 + padZeros msg + k) =
      (BitVec.ofNat 64 (8 * msg.length)).extractLsb' (8 * k) 8 := by
  rw [pad_eq, byteOf_append_right (by omega),
    show msg.length + 1 + padZeros msg + k - msg.length = padZeros msg + k + 1 by omega]
  change byteOf (_ ++ _) _ = _
  rw [byteOf_append_right (by simp), List.length_replicate, Nat.add_sub_cancel_left]
  exact byteOf_map_range _ hk

/-- FINALIZE pads the buffer as R172 pads the message. -/
theorem Represents.paddedByte_eq {s : State} {msg : List Byte} (hs : Represents s msg) (p : BitVec 6)
    (hp : p.toNat < s.bufLen.toNat + 1 + padZeros msg) :
    paddedByte s p.toNat = byteOf (pad msg) (64 * (msg.length / 64) + p.toNat) := by
  have hmsg := hs.msg_length
  have hold : 64 * (msg.length / 64) + p.toNat < msg.length ↔ p.toNat < s.bufLen.toNat := by omega
  have hend : 64 * (msg.length / 64) + p.toNat = msg.length ↔ p.toNat = s.bufLen.toNat := by omega
  rw [byteOf_pad (by omega), paddedByte, BitVec.ofNat_toNat, BitVec.setWidth_eq]
  simp only [hold, hend]
  split_ifs with hp
  · exact hs.tail p hp
  · rfl
  · rfl

/-- The full blocks of a message are the first of its padding. -/
theorem absorb_pad (msg : List Byte) : absorb (pad msg) (msg.length / 64) = absorb msg (msg.length / 64) := by
  rw [pad_eq, absorb_append _ _ _ (by omega)]

/-! ## FINALIZE -/

/-- A FINALIZE latches its block and leaves `H`, L, LOVF, the operand, the errors and the reset mark (R168). -/
theorem finalize_frame (s : State) :
    (finalize s).h = s.h ∧ (finalize s).len = s.len ∧ (finalize s).lovf = s.lovf ∧ (finalize s).data = s.data ∧
      (finalize s).err = s.err ∧ (finalize s).ecause = s.ecause ∧ (finalize s).everReset = s.everReset := by
  obtain ⟨m, hm⟩ := finalize_eq s
  rw [hm]
  exact ⟨rfl, rfl, rfl, rfl, rfl, rfl, rfl⟩

theorem latched_finalize {s : State} (hreset : s.everReset = true) : Latched (finalize s) := by
  obtain ⟨m, hm⟩ := finalize_eq s
  rw [hm]
  exact ⟨hreset, rfl, rfl, rfl, rfl, rfl, rfl⟩

/-- With at most 55 bytes buffered, FINALIZE latches the last block of the padded message (R170). -/
theorem Represents.finalize_last {s : State} {msg : List Byte} (hs : Represents s msg)
    (hone : s.bufLen.toNat ≤ 55) :
    (finalize s).fstate = .last ∧ md5 msg = swapDigest (compress s.h (finalize s).m) := by
  have hmsg := hs.msg_length
  have hzeros : padZeros msg = 55 - s.bufLen.toNat := by rw [padZeros, ← hs.count]; omega
  have hblocks : (pad msg).length / 64 = msg.length / 64 + 1 := by rw [pad_length]; omega
  have hm : (finalize s).m = blockOf (pad msg) (64 * (msg.length / 64)) := by
    rw [finalize_onePad hone]
    refine latchWords_true_eq_blockOf (fun p hp => ?_) fun k hk => ?_
    · rw [byteAt_paddedBlock s (by omega) (by omega), hs.paddedByte_eq p (by omega)]
    · rw [hs.length, ← byteOf_pad_length msg hk]
      congr 1
      omega
  refine ⟨by rw [finalize_onePad hone]; rfl, ?_⟩
  rw [md5, hblocks, absorb_succ, absorb_pad, ← hs.running, hm]

/-- With 56 bytes or more, FINALIZE latches the last block but one, after which the length block is the last (R171,
R210). -/
theorem Represents.finalize_pad2 {s : State} {msg : List Byte} (hs : Represents s msg)
    (htwo : ¬ s.bufLen.toNat ≤ 55) (w : Work) :
    (finalize s).fstate = .pad2 ∧ md5 msg = swapDigest (compress (secondPadBlock (blockDone w (finalize s))).h
      (secondPadBlock (blockDone w (finalize s))).m) := by
  have hmsg := hs.msg_length
  have hlt := s.bufLen.isLt
  have hzeros : padZeros msg = 119 - s.bufLen.toNat := by rw [padZeros, ← hs.count]; omega
  have hblocks : (pad msg).length / 64 = msg.length / 64 + 1 + 1 := by rw [pad_length]; omega
  have hm : (finalize s).m = blockOf (pad msg) (64 * (msg.length / 64)) := by
    rw [finalize_twoPad htwo]
    refine latchWords_false_eq_blockOf fun p => ?_
    have hp := p.isLt
    rw [byteAt_paddedBlock s (by omega) (by omega), hs.paddedByte_eq p (by omega)]
  have hm2 : latchWords true (setLengthWords s.len (Vector.replicate 16 0)) =
      blockOf (pad msg) (64 * (msg.length / 64 + 1)) := by
    refine latchWords_true_eq_blockOf (fun p hp => ?_) fun k hk => ?_
    · rw [byteAt_replicate_zero, byteOf_pad (by omega), if_neg (by omega), if_neg (by omega)]
    · rw [hs.length, ← byteOf_pad_length msg hk]
      congr 1
      omega
  obtain ⟨hh, hlen, -⟩ := finalize_frame s
  refine ⟨by rw [finalize_twoPad htwo]; rfl, ?_⟩
  rw [md5, hblocks, absorb_succ, absorb_succ, absorb_pad, ← hs.running, ← hm, ← hm2, ← hlen, ← hh]
  rfl

/-- A run of 130 turns is two of 65. -/
theorem run_two_blocks {s t : State} {rest : List Input}
    (h : core.run 65 (engineTurns (65 + 65) rest s) = .next (engineTurns 65 rest t)) :
    core.run 130 (engineTurns 130 rest s) = core.run 65 (engineTurns 65 rest t) := by
  rw [run_add 65 65, h]

/-- The end of a message: the digest is out, and the engine holds the empty message (R173, R211). -/
theorem represents_complete (s : State) : Represents (complete s) [] := represents_nil rfl rfl rfl rfl rfl

/-- FINALIZE and 130 turns of the engine (R211, R213). -/
theorem Represents.finalize_run {s : State} {msg : List Byte} (hs : Represents s msg) (hreset : s.everReset = true)
    (rest : List Input) :
    ∃ u, core.run 130 (engineTurns 130 rest (finalize s)) = .next u ∧ Represents u [] ∧ u.dout = md5 msg ∧
      u.dvalid = true ∧ u.lovf = s.lovf ∧ u.data = s.data ∧ u.err = s.err ∧ u.ecause = s.ecause ∧
      u.everReset = s.everReset ∧ u.inputs = rest := by
  obtain ⟨hh, -, hlovf, hdata, herr, hecause, hmark⟩ := finalize_frame s
  have hlatched := latched_finalize hreset
  obtain ⟨w, -, hpad2, hlast⟩ := run_latched hlatched 65 rest
  by_cases hone : s.bufLen.toNat ≤ 55
  · obtain ⟨hf, hdigest⟩ := hs.finalize_last hone
    have hrun := run_two_blocks (hlast hf)
    rw [run_engineTurns_idle (s := complete (blockDone w (finalize s))) (hmark.trans hreset) rfl] at hrun
    rw [← hh] at hdigest
    exact ⟨_, hrun, represents_engineTurns (represents_complete _) 0 rest, hdigest.symm, rfl, hlovf, hdata, herr,
      hecause, hmark, rfl⟩
  · obtain ⟨hf, hdigest⟩ := hs.finalize_pad2 hone w
    obtain ⟨w', -, -, hlast'⟩ := run_latched (s := secondPadBlock (blockDone w (finalize s)))
      (latched_latch _ _ hlatched.everReset) 0 rest
    have hrun := run_two_blocks (hpad2 hf)
    rw [hlast' rfl] at hrun
    exact ⟨_, hrun, represents_engineTurns (represents_complete _) 0 rest, hdigest.symm, rfl, hlovf, hdata, herr,
      hecause, hmark, rfl⟩

end Sys2Proof.Machine
end

section
/-! HASH beside the engine (30_encoding.md R110, 41_commands.md R175): what a host program does under every schedule
without hardware reset, and that some schedule brings it to its end, put together from its forms. -/

namespace Sys2Proof.Machine.Assembly

open Sys2Proof.Claims

/-! ## Conditions that the engine's turns keep -/

/-- `P` holds only after the first hardware reset, and every turn of the engine keeps it. -/
structure Stable (P : State → Prop) : Prop where
  everReset : ∀ s, P s → s.everReset = true
  turn : ∀ s t, P s → exec (decodeStep (sel s)) s = .next t → P t

/-- An idle engine has no step (R202), so a condition that asks for IDLE is kept. -/
theorem stable_of_idle {P : State → Prop} (hreset : ∀ s, P s → s.everReset = true)
    (hidle : ∀ s, P s → s.phase = .idle) : Stable P where
  everReset := hreset
  turn s t hs ht := by
    obtain rfl := Host.Outcome.next.inj ((engine_turn_idle (hidle s hs)).symm.trans ht)
    exact hs

theorem stable_everReset : Stable (fun s => s.everReset = true) where
  everReset _ hs := hs
  turn _ _ hs ht := (engine_turn_frame ht).2.trans hs

/-- The engine's turns alone lead from the state to READY with `Q` (R341). -/
inductive Settling (Q : State → Prop) : State → Prop
  | idle {s : State} (hreset : s.everReset = true) (hidle : s.phase = .idle) (hQ : Q s) : Settling Q s
  | turn {s t : State} (hreset : s.everReset = true) (hturn : exec (decodeStep (sel s)) s = .next t)
      (ht : Settling Q t) : Settling Q s

theorem stable_settling (Q : State → Prop) : Stable (Settling Q) where
  everReset s hs := by cases hs <;> assumption
  turn s t hs ht := by
    cases hs with
    | idle hreset hidle hQ =>
      obtain rfl := Host.Outcome.next.inj ((engine_turn_idle hidle).symm.trans ht)
      exact .idle hreset hidle hQ
    | turn _ hturn hs' =>
      obtain rfl := Host.Outcome.next.inj (hturn.symm.trans ht)
      exact hs'

theorem Settling.of_idle {Q : State → Prop} {s : State} (hs : Settling Q s) (hidle : s.phase = .idle) : Q s := by
  induction hs with
  | idle _ _ hQ => exact hQ
  | turn _ hturn _ ih =>
    obtain rfl := Host.Outcome.next.inj ((engine_turn_idle hidle).symm.trans hturn)
    exact ih hidle

/-- A poll does not disturb an engine that is settling (R74). -/
theorem Settling.respond {Q : State → Prop} (hQ : ∀ v s, Q s → Q (respond v s)) {s : State} (hs : Settling Q s)
    (v : Word) : Settling Q (respond v s) := by
  induction hs with
  | idle hreset hidle h => exact .idle hreset hidle (hQ v _ h)
  | @turn s t hreset hturn _ ih =>
    obtain ⟨hinputs, -⟩ := engine_turn_frame hturn
    have hturn' : exec (decodeStep (sel s)) (Machine.respond v s) = .next (Machine.respond v t) :=
      (engine_turn_congr s.inputs (some v) hturn).trans (by rw [← hinputs]; rfl)
    exact .turn hreset hturn' ih

/-- A run of the engine's turns to READY. -/
theorem settling_of_run {Q : State → Prop} {u : State} (hidle : u.phase = .idle) (hQ : Q u) (n : Nat) :
    ∀ s : State, s.everReset = true → core.run n (engineTurns n s.inputs s) = .next u → Settling Q s := by
  induction n with
  | zero =>
    intro s hreset hrun
    obtain rfl : s = u := Host.Outcome.next.inj hrun
    exact .idle hreset hidle hQ
  | succ n ih =>
    intro s hreset hrun
    obtain ⟨t, hstep, hrun⟩ := run_succ_eq_next_iff.mp hrun
    obtain ⟨s', hturn, -⟩ := engine_turn_of_congr (s := s) ((step_engine_turn hreset).symm.trans hstep)
    obtain ⟨hinputs, hreset'⟩ := engine_turn_frame hturn
    obtain rfl := Host.Outcome.next.inj ((step_engineTurns_succ hreset hturn n s.inputs).symm.trans hstep)
    exact .turn hreset hturn (ih s' (hreset'.trans hreset) (hinputs ▸ hrun))

/-! ## Programs -/

/-- `prog`, started in `P` before the rest of a program, hands over to the rest in `Q`: under every schedule without
hardware reset that brings the program to its end, and under some schedule at once. -/
structure Runs (P : State → Prop) (prog : List Op) (Q : State → Prop) : Prop where
  always : ∀ us rest s t, .reset ∉ us → P s → runProgram us (prog ++ rest) s = .next (t, []) →
    ∃ vs u, .reset ∉ vs ∧ Q u ∧ runProgram vs rest u = .next (t, [])
  sometimes : ∀ rest s, P s → ∃ us u, .reset ∉ us ∧ Q u ∧ runProgram us (prog ++ rest) s = .next (u, rest)

theorem runs_nil (P : State → Prop) : Runs P [] P where
  always us _ s _ hus hs hrun := ⟨us, s, hus, hs, hrun⟩
  sometimes _ s hs := ⟨[], s, by simp, hs, rfl⟩

theorem Runs.append {P Q R : State → Prop} {p q : List Op} (hp : Runs P p Q) (hq : Runs Q q R) : Runs P (p ++ q) R where
  always us rest s t hus hs hrun := by
    rw [List.append_assoc] at hrun
    obtain ⟨vs, u, hvs, hu, hrun⟩ := hp.always us (q ++ rest) s t hus hs hrun
    exact hq.always vs rest u t hvs hu hrun
  sometimes rest s hs := by
    obtain ⟨us, u, hus, hu, hrun⟩ := hp.sometimes (q ++ rest) s hs
    obtain ⟨vs, v, hvs, hv, hrun'⟩ := hq.sometimes rest u hu
    refine ⟨us ++ vs, v, by simp [hus, hvs], hv, ?_⟩
    rw [List.append_assoc, runProgram_append, hrun]
    exact hrun'

/-- If a program goes on from the engine's turn, that turn answered a next state. -/
theorem runProgram_engine_next {us : List Turn} {prog : List Op} {s : State} {r : State × List Op}
    (hreset : s.everReset = true) (hrun : runProgram (.engine :: us) prog s = .next r) :
    ∃ t, exec (decodeStep (sel s)) s = .next t ∧ runProgram us prog t = .next r := by
  simp only [runProgram, issue, step_engine_cons hreset] at hrun
  cases hturn : exec (decodeStep (sel s)) s with
  | next t => exact ⟨t, rfl, by simpa only [hturn, afterTurn] using hrun⟩
  | fault f => simp only [hturn] at hrun; cases hrun
  | refused q => simp only [hturn] at hrun; cases hrun

/-- The induction over the schedule, for one form: each turn of the host hands over in `Q`, or leaves the form at the
head of the program in `P`. -/
theorem handover_of_host_turn {P Q : State → Prop} {op : Op} (hP : Stable P)
    (hhost : ∀ s, P s → ∃ t, step { s with inputs := transaction op :: s.inputs } = .next t ∧
      ∀ rest, (Q t ∧ afterHost (op :: rest) t = rest) ∨ (P t ∧ afterHost (op :: rest) t = op :: rest))
    (rest : List Op) (t : State) (us : List Turn) : ∀ s, .reset ∉ us → P s →
      runProgram us (op :: rest) s = .next (t, []) →
      ∃ vs u, .reset ∉ vs ∧ Q u ∧ runProgram vs rest u = .next (t, []) := by
  induction us with
  | nil => intro s _ _ hrun; cases hrun
  | cons turn us ih =>
    intro s hus hs hrun
    obtain ⟨hturn, hus'⟩ := not_or.mp (mt List.mem_cons.mpr hus)
    cases turn with
    | host =>
      obtain ⟨s', hstep, hafter⟩ := hhost s hs
      rw [runProgram_host us op rest hstep] at hrun
      rcases hafter rest with ⟨hQ, hrest⟩ | ⟨hs', hrest⟩ <;> rw [hrest] at hrun
      · exact ⟨us, s', hus', hQ, hrun⟩
      · exact ih s' hus' hs' hrun
    | engine =>
      obtain ⟨s', hs', hrun⟩ := runProgram_engine_next (hP.everReset s hs) hrun
      exact ih s' hus' (hP.turn s s' hs hs') hrun
    | reset => exact absurd rfl hturn

/-- A form that is one transaction. -/
theorem runs_transaction {P Q : State → Prop} {op : Op} (hP : Stable P) (hop : op ≠ .waitReady)
    (hstep : ∀ s, P s → ∃ t, step { s with inputs := transaction op :: s.inputs } = .next t ∧ Q t) :
    Runs P [op] Q := by
  have hafter (rest : List Op) (t : State) : afterHost (op :: rest) t = rest := by
    cases op with
    | waitReady => exact absurd rfl hop
    | wr _ _ | rd _ => rfl
  refine ⟨fun us rest s t => handover_of_host_turn hP (fun s hs => ?_) rest t us s, fun rest s hs => ?_⟩
  · obtain ⟨t, ht, hQ⟩ := hstep s hs
    exact ⟨t, ht, fun rest => .inl ⟨hQ, hafter rest t⟩⟩
  · obtain ⟨t, ht, hQ⟩ := hstep s hs
    exact ⟨[.host], t, by simp, hQ, by rw [List.singleton_append, runProgram_host [] op rest ht, hafter]; rfl⟩

/-- WAITRDY: every poll finds the engine settling, and the last one finds it settled (R110). -/
theorem runs_waitReady {Q : State → Prop} (hQ : ∀ v s, Q s → Q (respond v s)) : Runs (Settling Q) [.waitReady] Q := by
  have hP := stable_settling Q
  refine ⟨fun us rest s t => handover_of_host_turn hP (fun s hs => ?_) rest t us s, fun rest s hs => ?_⟩
  · refine ⟨_, step_poll (hP.everReset s hs), fun rest => ?_⟩
    simp only [afterHost, sawReady_poll, decide_eq_true_eq]
    by_cases hidle : s.phase = .idle
    · exact .inl ⟨hQ _ s (hs.of_idle hidle), if_pos hidle⟩
    · exact .inr ⟨hs.respond hQ _, if_neg hidle⟩
  · induction hs with
    | @idle s hreset hidle h =>
      refine ⟨[.host], _, by simp, hQ (status s) s h, ?_⟩
      rw [List.singleton_append, runProgram_poll [] rest hreset, if_pos hidle]
      rfl
    | turn hreset hturn _ ih =>
      obtain ⟨us, u, hus, hu, hrun⟩ := ih
      exact ⟨.engine :: us, u, by simp [hus], hu, (runProgram_engine us _ hreset hturn).trans hrun⟩

/-- A host whose program has ended leaves the engine alone. -/
theorem runProgram_nil_keeps {Q : State → Prop} (hQ : Stable Q) {t : State} (us : List Turn) :
    ∀ s, .reset ∉ us → Q s → runProgram us [] s = .next (t, []) → Q t := by
  induction us with
  | nil => intro s _ hs hrun; cases hrun; exact hs
  | cons turn us ih =>
    intro s hus hs hrun
    obtain ⟨hturn, hus'⟩ := not_or.mp (mt List.mem_cons.mpr hus)
    cases turn with
    | host => exact ih s hus' hs hrun
    | engine =>
      obtain ⟨s', hs', hrun⟩ := runProgram_engine_next (hQ.everReset s hs) hrun
      exact ih s' hus' (hQ.turn s s' hs hs') hrun
    | reset => exact absurd rfl hturn

/-! ## The parts of HASH -/

/-- The idle engine, without an error, holds `msg`. -/
structure Streaming (msg : List Byte) (s : State) : Prop where
  everReset : s.everReset = true
  safe : Safe s
  represents : Represents s msg

/-- The idle engine, without an error, shows the digest `x`. -/
structure Finished (x : Digest) (s : State) : Prop where
  everReset : s.everReset = true
  safe : Safe s
  idle : s.phase = .idle
  dout : s.dout = x
  dvalid : s.dvalid = true

theorem stable_streaming (msg : List Byte) : Stable (Streaming msg) :=
  stable_of_idle (fun _ hs => hs.everReset) fun _ hs => hs.represents.ready

theorem stable_finished (x : Digest) : Stable (Finished x) :=
  stable_of_idle (fun _ hs => hs.everReset) fun _ hs => hs.idle

theorem streaming_respond {msg : List Byte} (v : Word) (s : State) (hs : Streaming msg s) :
    Streaming msg (respond v s) :=
  ⟨hs.everReset, hs.safe, hs.represents.of_host_fields s.data s.inputs (some v)⟩

theorem finished_respond {x : Digest} (v : Word) (s : State) (hs : Finished x s) : Finished x (respond v s) :=
  ⟨hs.everReset, hs.safe, hs.idle, hs.dout, hs.dvalid⟩

theorem streaming_setData {msg : List Byte} (v : Word) (s : State) (hs : Streaming msg s) :
    Streaming msg (setData v s) :=
  ⟨hs.everReset, hs.safe, hs.represents.of_host_fields v s.inputs s.rdata⟩

/-- RESET, from any state (R162). -/
theorem runs_reset : Runs (fun s => s.everReset = true) reset (Streaming []) :=
  runs_transaction stable_everReset (by simp) fun s hs =>
    ⟨resetCmd s, step_wr_cmd hs 1, hs, rfl, represents_resetCmd s⟩

/-- An accepted UPDATE settles to the longer message (R167). -/
theorem settling_update {msg : List Byte} {s : State} (hs : Streaming msg s) (nb : Fin 5) :
    Settling (Streaming (msg ++ dataBytes s.data nb.val)) (Machine.update nb.val s) := by
  obtain ⟨u, hrun, hrep, -, -, -, herr, -, hmark, -⟩ :=
    hs.represents.update_run hs.everReset (n := nb.val) (by omega) (Machine.update nb.val s).inputs
  obtain ⟨-, -, -, -, -, hmark'⟩ := update_frame s (n := nb.val) (by omega)
  exact settling_of_run hrep.ready ⟨hmark.trans hs.everReset, herr.trans hs.safe, hrep⟩ 65 _
    (hmark'.trans hs.everReset) hrun

/-- `UPDATE nb, w` (R110, R163). -/
theorem runs_update (msg : List Byte) (nb : Fin 5) (w : Word) :
    Runs (Streaming msg) (update nb w) (Streaming (msg ++ dataBytes w nb.val)) := by
  have hdata : Runs (Streaming msg) [.wr .data w] (fun s => Streaming msg s ∧ s.data = w) :=
    runs_transaction (stable_streaming msg) (by simp) fun s hs =>
      ⟨setData w s, step_wr_data hs.everReset w, streaming_setData w s hs, rfl⟩
  have hcmd : Runs (fun s => Streaming msg s ∧ s.data = w) [.wr .cmd (updateWord nb.val)]
      (Settling (Streaming (msg ++ dataBytes w nb.val))) := by
    refine runs_transaction (stable_of_idle (fun _ hs => hs.1.everReset) fun _ hs => hs.1.represents.ready) (by simp) ?_
    rintro s ⟨hs, rfl⟩
    refine ⟨Machine.update nb.val s, (step_wr_cmd hs.everReset _).trans ?_, settling_update hs nb⟩
    exact (exec_wrCmd _ s).trans (decodeCmd_updateWord nb ▸ exec_updateOf_idle hs.represents.ready nb)
  exact (hdata.append hcmd).append (runs_waitReady streaming_respond)

theorem dataByte_packWord (b0 b1 b2 b3 : Byte) {k : Nat} (hk : k < 4) :
    dataByte (packWord b0 b1 b2 b3) k = [b0, b1, b2, b3].getD k 0 := by
  apply BitVec.eq_of_getLsbD_eq
  intro n hn
  simp only [dataByte, packWord, BitVec.getLsbD_extractLsb', BitVec.getLsbD_append]
  interval_cases k <;> grind

/-- The counted bytes of a packed word, in wire order (R76, R110). -/
theorem dataBytes_packWord (b0 b1 b2 b3 : Byte) (nb : Fin 5) :
    dataBytes (packWord b0 b1 b2 b3) nb.val = [b0, b1, b2, b3].take nb.val := by
  fin_cases nb <;> simp [dataBytes, List.range_succ, dataByte_packWord]

/-- One UPDATE of HASH: as many bytes of its word as it counts (R110). -/
theorem runs_update_packWord (msg : List Byte) (nb : Fin 5) (b0 b1 b2 b3 : Byte) :
    Runs (Streaming msg) (update nb (packWord b0 b1 b2 b3)) (Streaming (msg ++ [b0, b1, b2, b3].take nb.val)) :=
  dataBytes_packWord b0 b1 b2 b3 nb ▸ runs_update msg nb _

/-- The UPDATEs of HASH (R110, R167). -/
theorem runs_updates (bytes : List Byte) :
    ∀ msg, Runs (Streaming msg) (updates bytes) (Streaming (msg ++ bytes)) := by
  induction bytes using updates.induct with
  | case1 => intro msg; rw [List.append_nil]; exact runs_nil _
  | case2 b0 => intro msg; exact runs_update_packWord msg 1 b0 0 0 0
  | case3 b0 b1 => intro msg; exact runs_update_packWord msg 2 b0 b1 0 0
  | case4 b0 b1 b2 => intro msg; exact runs_update_packWord msg 3 b0 b1 b2 0
  | case5 b0 b1 b2 b3 rest ih =>
    intro msg
    have hall := (runs_update_packWord msg 4 b0 b1 b2 b3).append (ih _)
    rwa [List.append_assoc] at hall

/-- An accepted FINALIZE settles to the digest (R213). -/
theorem settling_finalize {msg : List Byte} {s : State} (hs : Streaming msg s) :
    Settling (Finished (md5 msg)) (Machine.finalize s) := by
  obtain ⟨u, hrun, hrep, hdout, hdvalid, -, -, herr, -, hmark, -⟩ :=
    hs.represents.finalize_run hs.everReset (Machine.finalize s).inputs
  exact settling_of_run hrep.ready ⟨hmark.trans hs.everReset, herr.trans hs.safe, hrep.ready, hdout, hdvalid⟩ 130 _
    (latched_finalize hs.everReset).everReset hrun

/-- FINALIZE (R110, R168). -/
theorem runs_finalize (msg : List Byte) : Runs (Streaming msg) finalize (Finished (md5 msg)) := by
  have hcmd : Runs (Streaming msg) [.wr .cmd 3] (Settling (Finished (md5 msg))) :=
    runs_transaction (stable_streaming msg) (by simp) fun s hs =>
      ⟨Machine.finalize s, (step_wr_cmd hs.everReset 3).trans
        (congrArg Host.Outcome.next (whenReady_idle hs.represents.ready)), settling_finalize hs⟩
  exact hcmd.append (runs_waitReady finished_respond)

/-- READDIGEST reads, and changes nothing (R74, R110). -/
theorem runs_readDigest (x : Digest) : Runs (Finished x) readDigest (Finished x) := by
  have hread (i : BitVec 2) : Runs (Finished x) [.rd (.dout i)] (Finished x) :=
    runs_transaction (stable_finished x) (by simp) fun s hs =>
      ⟨_, step_rd_dout hs.everReset i, finished_respond _ s hs⟩
  exact (hread 0).append ((hread 1).append ((hread 2).append (hread 3)))

/-- HASH, from any state (R110, R175). -/
theorem runs_hash (bytes : List Byte) :
    Runs (fun s => s.everReset = true) (hash bytes) (Finished (md5 bytes)) :=
  ((runs_reset.append (runs_updates bytes [])).append (runs_finalize bytes)).append (runs_readDigest _)

/-- Settles O48: `runs_hash` for the whole program; what the schedule holds after its end is the engine's turns. -/
theorem hashLeavesTheDigest : Obligations.HashLeavesTheDigest := by
  intro bytes s hreset
  have hhash := runs_hash bytes
  refine ⟨fun us t hus hrun => ?_, ?_⟩
  · obtain ⟨vs, u, hvs, hu, hrun⟩ := hhash.always us [] s t hus hreset (by rwa [List.append_nil])
    have ht := runProgram_nil_keeps (stable_finished _) vs u hvs hu hrun
    exact ⟨ht.dout, ht.dvalid, ht.safe⟩
  · obtain ⟨us, t, hus, -, hrun⟩ := hhash.sometimes [] s hreset
    rw [List.append_nil] at hrun
    exact ⟨us, t, hus, hrun⟩

end Sys2Proof.Machine.Assembly
end

section
/-! The engine's steps (42_compression.md R202 to R213): a round in the arithmetic of the claims, the engine's turn in
each phase, ACCUM by `fstate`, and the runs of a latched block and of a FINALIZE. -/

namespace Sys2Proof.Machine

open Sys2Proof.Claims

/-! ## The schedule of a round, by its stage -/

/-- `g(i)` of the model is that of the claims (R205). -/
theorem messageIndex_toNat : ∀ (i : BitVec 6) (st : Fin 4), i.toNat / 16 = st.val →
    (messageIndex i).toNat = stageIndex st i.toNat := by decide

/-- `s(i)` of the model is that of the claims (R206). -/
theorem shiftAmount_eq : ∀ (i : BitVec 6) (st : Fin 4), i.toNat / 16 = st.val →
    shiftAmount i = (stageShifts st).getD (i.toNat % 4) 0 := by decide

/-- The message word of round `i` (R203, R205). -/
theorem blockWord_messageIndex (m : Block) {i : BitVec 6} {st : Fin 4} (hst : i.toNat / 16 = st.val) :
    blockWord m (messageIndex i) = m.toList.getD (stageIndex st i.toNat) 0 := by
  have hlt := (messageIndex i).isLt
  rw [← messageIndex_toNat i st hst]
  simp [blockWord, hlt]

/-! ## The ROUND step -/

/-- `s` after round `i` of stage `st`, in the arithmetic of R203 to R206. -/
def roundDone (st : Fin 4) (i : Nat) (s : State) : State :=
  { s with
    a := s.d
    b := s.b + (s.a + stageFunction st s.b s.c s.d + s.m.toList.getD (stageIndex st i) 0 + rom.getD i 0).rotateLeft
      ((stageShifts st).getD (i % 4) 0)
    c := s.b
    d := s.c
    r := if i < 63 then BitVec.ofNat 6 (i + 1) else s.r
    phase := if i < 63 then s.phase else .accum }

/-- The model's round `i` of stage `st` is that of the claims (R203 to R207). -/
theorem roundStep_eq_roundDone {st : Fin 4} {i : BitVec 6} (hst : i.toNat / 16 = st.val) (s : State) :
    roundStep (stageFunction st) i s = .next (roundDone st i.toNat s) := by
  have hnext : i + 1 = BitVec.ofNat 6 (i.toNat + 1) := by
    rw [BitVec.ofNat_add, BitVec.ofNat_toNat, BitVec.setWidth_eq]
    rfl
  rw [roundStep_eq_next, advanceRound_eq, hnext, shiftAmount_eq i st hst, roundSum, blockWord_messageIndex s.m hst]
  rfl

/-- The round of a ROUND row: its stage above SEL[3:0] (R109). -/
def rowRound (st : Fin 4) (lo : BitVec 4) : BitVec 6 := BitVec.ofNat 2 st.val ++ lo

theorem rowRound_toNat (st : Fin 4) (lo : BitVec 4) : (rowRound st lo).toNat = 16 * st.val + lo.toNat := by
  rw [rowRound, toNat_append, BitVec.toNat_ofNat]
  omega

/-- The four ROUND rows differ in their stage alone (R203, R204). -/
theorem exec_roundOf_eq_roundStep (st : Fin 4) (lo : BitVec 4) (s : State) :
    exec (roundOf st lo) s = roundStep (stageFunction st) (rowRound st lo) s := by
  fin_cases st <;> rfl

/-- What a ROUND row does in any state (R203 to R206). -/
theorem exec_roundOf (st : Fin 4) (lo : BitVec 4) (s : State) :
    exec (roundOf st lo) s = .next (roundDone st (16 * st.val + lo.toNat) s) := by
  have hi := rowRound_toNat st lo
  have hlo := lo.isLt
  rw [exec_roundOf_eq_roundStep, roundStep_eq_roundDone (by omega), hi]

/-- Settles O29: `exec_roundOf`. -/
theorem roundStepComputesItsRound : Obligations.RoundStepComputesItsRound :=
  fun s st lo => exec_roundOf st lo s

/-! ## The engine's turn -/

/-- The engine's turn, taken off the list, is the step that SEL selects (R13, R202). -/
theorem step_of_engine_next {s : State} {rest : List Input} (hreset : s.everReset = true)
    (hin : s.inputs = .engine :: rest) : step s = exec (decodeStep (sel s)) { s with inputs := rest } := by
  rw [← step_engine_turn hreset, ← hin]

/-- In phase ROUND, SEL selects the row of `r` (R109, R202). -/
theorem decodeStep_sel_round {s : State} (hround : s.phase = .round) {st : Fin 4} (hst : s.r.toNat / 16 = st.val) :
    decodeStep (sel s) = roundOf st (BitVec.ofNat 4 (s.r.toNat % 16)) := by
  have row : ∀ (r : BitVec 6) (st : Fin 4), r.toNat / 16 = st.val →
      decodeStep (1#2 ++ r) = roundOf st (BitVec.ofNat 4 (r.toNat % 16)) := by decide
  rw [sel, hround]
  exact row s.r st hst

/-- The engine's turn in phase ROUND is the round of `r` (R203). -/
theorem step_of_round {s : State} {rest : List Input} {st : Fin 4} (hreset : s.everReset = true)
    (hin : s.inputs = .engine :: rest) (hround : s.phase = .round) (hst : s.r.toNat / 16 = st.val) :
    step s = .next (roundDone st s.r.toNat { s with inputs := rest }) := by
  have hr : 16 * st.val + (BitVec.ofNat 4 (s.r.toNat % 16)).toNat = s.r.toNat := by
    rw [BitVec.toNat_ofNat]
    omega
  rw [step_of_engine_next hreset hin, decodeStep_sel_round hround hst, exec_roundOf, hr]

/-- Settles O30: `step_of_round`, in which the phase is ROUND. -/
theorem engineTurnComputesItsRound : Obligations.EngineTurnComputesItsRound := by
  intro s rest st hreset hin hround hst
  rw [step_of_round hreset hin hround hst, roundDone, hround]

/-- Settles O32: the step that SEL selects in each phase, and what it answers. -/
theorem engineStepsOnlyInRoundAndAccum : Obligations.EngineStepsOnlyInRoundAndAccum := by
  refine ⟨fun _ _ => rfl, fun s rest hreset hin => ?_⟩
  have hstep := step_of_engine_next hreset hin
  refine ⟨fun hidle => hstep.trans (engine_turn_idle (s := { s with inputs := rest }) hidle), fun hround st hst => ?_,
    fun haccum => ?_, fun hunused => ?_⟩
  · rw [hstep, decodeStep_sel_round hround hst]
    exact ⟨rfl, _, exec_roundOf st _ _⟩
  · have hsel : sel s = 2#2 ++ s.r := by rw [sel, haccum]; rfl
    rw [hstep, hsel, decodeStep_accum]
    exact ⟨rfl, _, rfl⟩
  · have hsel : sel s = 3#2 ++ s.r := by rw [sel, hunused]; rfl
    rw [hstep, hsel, decodeStep_unused]
    rfl

/-! ## ACCUM -/

/-- The second padding block in the words of the claims (R210). -/
theorem secondPadBlock_words (s : State) :
    (∀ j : Fin 14, (secondPadBlock s).m[j.val] = 0) ∧
      (secondPadBlock s).m[14] = BitVec.ofNat 32 s.len.toNat ∧
      (secondPadBlock s).m[15] = BitVec.ofNat 32 (s.len.toNat / 2 ^ 32) := by
  obtain ⟨m, hm, hzero, hlo, hhi⟩ := secondPadBlock_eq s
  rw [hm]
  exact ⟨fun j => hzero j j.isLt, hlo.trans (lenLo_eq_ofNat _), hhi.trans (lenHi_eq_ofNat _)⟩

/-- Each word of a swapped digest has the word's bytes reversed (R79, R246). -/
theorem byteK_swapDigest (x : Digest) (j k : Fin 4) : byteK (swapDigest x)[j] k.val = byteK x[j] (3 - k.val) := by
  have hword : (swapDigest x)[j] = bswap32 x[j] := by fin_cases j <;> rfl
  rw [hword, byteK_bswap32 _ k.isLt]
  exact (wireByte_eq_dataByte _ k.isLt).symm

/-- Settles O31: what `accumulate` does for each `fstate`. -/
theorem accumEndsTheBlock : Obligations.AccumEndsTheBlock := by
  intro s r
  refine ⟨fun hf => congrArg Host.Outcome.next (accumulate_none hf), fun hf => ?_, fun hf => ?_⟩
  · obtain ⟨hzero, hlo, hhi⟩ := secondPadBlock_words { s with h := addWork s, r := 0 }
    exact ⟨_, congrArg Host.Outcome.next (accumulate_pad2 hf), hzero, hlo, hhi, rfl⟩
  · exact ⟨_, congrArg Host.Outcome.next (accumulate_last hf), byteK_swapDigest (addWork s), rfl⟩

/-! ## Runs -/

/-- Settles O45: `run_latched` with no turn to spare. -/
theorem engineRunIsCompress : Obligations.EngineRunIsCompress := by
  intro s rest hreset hround hr ha hb hc hd
  obtain ⟨w, hnone, hpad2, hlast⟩ := run_latched ⟨hreset, hround, hr, ha, hb, hc, hd⟩ 0 rest
  refine ⟨fun hf => ⟨_, hnone hf, rfl, ?_⟩, fun hf => ?_, fun hf => ⟨_, hlast hf, rfl, ?_⟩⟩
  · rw [hr]
    rfl
  · obtain ⟨hzero, hlo, hhi⟩ := secondPadBlock_words (blockDone w s)
    exact ⟨_, hpad2 hf, rfl, hzero, hlo, hhi, rfl⟩
  · rw [hr]
    rfl

/-- Settles O47: `Represents.finalize_run`, from the accepted command. -/
theorem finalizeOutputsTheDigest : Obligations.FinalizeOutputsTheDigest := by
  intro s msg rest hreset hs
  obtain ⟨u, hrun, hempty, hdout, hdvalid, hlovf, hdata, herr, hecause, -, hinputs⟩ := hs.finalize_run hreset rest
  exact ⟨finalize s, u, congrArg Host.Outcome.next (whenReady_idle hs.ready), hrun, hdout, hdvalid, hempty, herr,
    hecause, hlovf, hdata, hinputs⟩

end Sys2Proof.Machine
end

section
/-! The datapath bit by bit and byte by byte: addition and the bitwise operations, the round functions, the rotation
and the byte swap (43_alu.md R240 to R250). -/

namespace Sys2Proof.Machine

open Sys2Proof.Claims

/-! ## The bitwise operations and the round functions (R242, R243, R247 to R250) -/

theorem getLsbD_not32 (x : Word) {k : Nat} (hk : k < 32) : (not32 x).getLsbD k = !x.getLsbD k := by
  simp [not32, hk]

theorem getLsbD_and32 (x y : Word) (k : Nat) : (and32 x y).getLsbD k = (x.getLsbD k && y.getLsbD k) :=
  BitVec.getLsbD_and

theorem getLsbD_or32 (x y : Word) (k : Nat) : (or32 x y).getLsbD k = (x.getLsbD k || y.getLsbD k) :=
  BitVec.getLsbD_or

theorem getLsbD_xor32 (x y : Word) (k : Nat) : (xor32 x y).getLsbD k = (x.getLsbD k != y.getLsbD k) :=
  BitVec.getLsbD_xor

/-- F0 selects between `y` and `z` by the bit of `x` (R247). -/
theorem getLsbD_f0 (x y z : Word) {k : Nat} (hk : k < 32) :
    (f0 x y z).getLsbD k = if x.getLsbD k then y.getLsbD k else z.getLsbD k := by
  rw [f0, getLsbD_or32, getLsbD_and32, getLsbD_and32, getLsbD_not32 x hk]
  cases x.getLsbD k <;> simp

/-- F1 selects between `x` and `y` by the bit of `z` (R248). -/
theorem getLsbD_f1 (x y z : Word) {k : Nat} (hk : k < 32) :
    (f1 x y z).getLsbD k = if z.getLsbD k then x.getLsbD k else y.getLsbD k := by
  rw [f1, getLsbD_or32, getLsbD_and32, getLsbD_and32, getLsbD_not32 z hk]
  cases z.getLsbD k <;> simp

theorem getLsbD_f2 (x y z : Word) (k : Nat) :
    (f2 x y z).getLsbD k = (x.getLsbD k != (y.getLsbD k != z.getLsbD k)) := by
  rw [f2, getLsbD_xor32, getLsbD_xor32, Bool.bne_assoc]

theorem getLsbD_f3 (x y z : Word) {k : Nat} (hk : k < 32) :
    (f3 x y z).getLsbD k = (y.getLsbD k != (x.getLsbD k || !z.getLsbD k)) := by
  rw [f3, getLsbD_xor32, getLsbD_or32, getLsbD_not32 z hk]

/-- Settles O35: one lemma per operation gives its bit. -/
theorem datapathBitByBit : Obligations.DatapathBitByBit :=
  ⟨BitVec.toNat_add, fun x y z k =>
    ⟨getLsbD_not32 x k.isLt, getLsbD_and32 x y k, getLsbD_or32 x y k, getLsbD_xor32 x y k, getLsbD_f0 x y z k.isLt,
      getLsbD_f1 x y z k.isLt, getLsbD_f2 x y z k, getLsbD_f3 x y z k.isLt⟩⟩

/-! ## The rotation (R244) -/

/-- The library splits at the amount; the spec's `(k - n) mod 32` covers both sides. -/
theorem getLsbD_rotateLeft_eq_mod (x : Word) {n k : Nat} (hn : n < 32) (hk : k < 32) :
    (x.rotateLeft n).getLsbD k = x.getLsbD ((k + 32 - n) % 32) := by
  rw [BitVec.getLsbD_rotateLeft_of_le hn]
  by_cases hkn : k < n
  · have hwrap : (k + 32 - n) % 32 = 32 - n + k := by omega
    simp [hkn, hwrap]
  · have hshift : (k + 32 - n) % 32 = k - n := by omega
    simp [hkn, hk, hshift]

/-- Settles O33: within its range ROTL32 is the library's rotation. -/
theorem rotateMovesEachBit : Obligations.RotateMovesEachBit :=
  ⟨fun x n hn => ⟨_, rotl32_eq_rotateLeft x n hn, fun _ => getLsbD_rotateLeft_eq_mod x hn⟩, rotl32_eq_none⟩

/-! ## The byte swap (R246) -/

theorem getLsbD_byteK (w : Word) (k : Nat) {n : Nat} (hn : n < 8) : (byteK w k).getLsbD n = w.getLsbD (8 * k + n) := by
  simp [byteK, hn]

/-- A word is determined by its four bytes. -/
theorem word_eq_of_byteK_eq {x y : Word} (h : ∀ k : Fin 4, byteK x k.val = byteK y k.val) : x = y := by
  apply BitVec.eq_of_getLsbD_eq
  intro n hn
  have hbyte := congrArg (·.getLsbD (n % 8)) (h ⟨n / 8, by omega⟩)
  have hmod : n % 8 < 8 := by omega
  simpa only [getLsbD_byteK _ _ hmod, Nat.div_add_mod] using hbyte

theorem byteK_bswap32_reverses (x : Word) (k : Fin 4) : byteK (bswap32 x) k.val = byteK x (3 - k.val) :=
  (byteK_bswap32 x k.isLt).trans (wireByte_eq_dataByte x k.isLt).symm

/-- Two swaps take byte `k` to byte `3 - (3 - k)`. -/
theorem bswap32_bswap32 (x : Word) : bswap32 (bswap32 x) = x := by
  apply word_eq_of_byteK_eq
  intro k
  calc byteK (bswap32 (bswap32 x)) k.val
    _ = byteK (bswap32 x) (3 - k.val) := byteK_bswap32_reverses (bswap32 x) k
    _ = byteK x (3 - (3 - k.val)) := byteK_bswap32_reverses x ⟨3 - k.val, by omega⟩
    _ = byteK x k.val := by rw [Nat.sub_sub_self (by omega)]

/-- Settles O34: a word is its four bytes, and swapping reverses them. -/
theorem byteSwapReversesBytes : Obligations.ByteSwapReversesBytes :=
  fun x => ⟨byteK_bswap32_reverses x, bswap32_bswap32 x⟩

end Sys2Proof.Machine
end

section
/-! Errors (60_exceptions.md R302, R303, R305): what a bus transaction that fails no check does to ERR and ECAUSE, and,
with what the first failed check does, the errors of every step, said once by `ErrorsStep`. -/

namespace Sys2Proof.Machine

open Sys2Proof.Claims

/-- `t` holds what `s` holds in ERR and ECAUSE. -/
structure SameErrors (s t : State) : Prop where
  err : t.err = s.err
  ecause : t.ecause = s.ecause

/-! ## A transaction that fails no check -/

/-- The value of a write stands in WDATA, its address in CTL (R100). -/
theorem writeAddress_withValue (v : Word) (i : Instr) :
    writeAddress (withValue v i) = (writeAddress i).map fun p => (p.1, v) := by cases i <;> rfl

/-- An aligned CTL with WE decodes to the write of its address (R71, R101). -/
theorem writeAddress_decodeBus {ctl : BitVec 8} (hw : ctl.toNat / 128 = 1) (hal : ctl.toNat % 128 % 4 = 0) (v : Word) :
    writeAddress (decodeBus ctl v) = some (ctl.toNat % 128, v) := by
  have row : ∀ ctl : BitVec 8, ctl.toNat / 128 = 1 → ctl.toNat % 128 % 4 = 0 →
      writeAddress (decodeBus ctl 0) = some (ctl.toNat % 128, 0) := by decide
  rw [decodeBus_withValue, writeAddress_withValue, row ctl hw hal, Option.map_some]

/-- The write addresses of the register map (R71): CMD, DATA, the ones that R305 forbids, and the context. -/
theorem write_address_cases {a : Nat} (ha : a < 128) (hal : a % 4 = 0) :
    a = 0x00 ∨ a = 0x04 ∨ (a = 0x08 ∨ (0x30 ≤ a ∧ a < 0x40)) ∨ (a = 0x18 ∨ a = 0x1C) ∨ isContextAddress a = true := by
  simp only [isContextAddress, Bool.or_eq_true, Bool.and_eq_true, decide_eq_true_eq]
  omega

/-- A transaction that passes every check of R305 is an aligned read, a legal command with READY = 1 where it needs it,
a write to DATA, or a context write with READY = 1. -/
theorem firstFailure_eq_none_cases {s : State} {ctl : BitVec 8} {v : Word} (h : firstFailure s ctl v = none) :
    (ctl.toNat < 128 ∧ ctl.toNat % 4 = 0) ∨
    (ctl = 0x80 ∧ v ∈ legalWords ∧ (v ≠ 0 → v ≠ 1 → s.phase = .idle)) ∨
    ctl = 0x84 ∨
    (ctl.toNat / 128 = 1 ∧ ctl.toNat % 128 % 4 = 0 ∧ isContextAddress (ctl.toNat % 128) = true ∧ s.phase = .idle) := by
  simp only [firstFailure] at h
  split_ifs at h with hal hro hrsvd hill hbusy hctx
  have hlt := ctl.isLt
  have hal := not_not.mp hal
  by_cases hread : ctl.toNat < 128
  · exact .inl ⟨hread, by omega⟩
  have hw : ctl.toNat / 128 = 1 := by omega
  have hctl (x : BitVec 8) (hx : x.toNat = 128 + ctl.toNat % 128) : ctl = x := BitVec.eq_of_toNat_eq (by omega)
  rcases write_address_cases (Nat.mod_lt _ (by decide)) hal with ha | ha | ha | ha | ha
  · have hv : v ∈ legalWords := by_contra fun hv => hill ⟨hw, ha, hv⟩
    have hidle (h0 : v ≠ 0) (h1 : v ≠ 1) : s.phase = .idle := by_contra fun hp => hbusy ⟨hw, ha, h0, h1, hp⟩
    exact .inr (.inl ⟨hctl 0x80 (by rw [ha]; rfl), hv, hidle⟩)
  · exact .inr (.inr (.inl (hctl 0x84 (by rw [ha]; rfl))))
  · exact absurd ⟨hw, ha⟩ hro
  · exact absurd ⟨hw, ha⟩ hrsvd
  · exact .inr (.inr (.inr ⟨hw, hal, ha, by_contra fun hp => hctx ⟨hw, ha, hp⟩⟩))

/-- A command that is not turned away leaves the errors, unless it is RESET (R160, R303). -/
theorem command_of_accepted {v : Word} {s : State} (hv : v ∈ legalWords) (hidle : v ≠ 0 → v ≠ 1 → s.phase = .idle) :
    ∃ t, command v s = .next t ∧ (SameErrors s t ∨ (v = 1 ∧ t = resetCmd s)) := by
  rcases command_cases v s with ⟨hill, -⟩ | ⟨-, hc⟩ | ⟨hone, hc⟩ | ⟨k, rfl, hc⟩ | ⟨rfl, hc⟩
  · cases hill.symm.trans (cmdLegal_of_mem_legalWords hv)
  · exact ⟨s, hc, .inl ⟨rfl, rfl⟩⟩
  · exact ⟨_, hc, .inr ⟨hone, rfl⟩⟩
  · have hne : ∀ k : Fin 5, updateWord k.val ≠ 0 ∧ updateWord k.val ≠ 1 := by decide
    rw [whenReady_idle (hidle (hne k).1 (hne k).2)] at hc
    obtain ⟨-, -, -, herr, hecause, -⟩ := update_frame s (n := k.val) (by omega)
    exact ⟨_, hc, .inl ⟨herr, hecause⟩⟩
  · rw [whenReady_idle (hidle (by decide) (by decide))] at hc
    obtain ⟨-, -, -, -, herr, hecause, -⟩ := finalize_frame s
    exact ⟨_, hc, .inl ⟨herr, hecause⟩⟩

/-- A transaction that fails no check completes, and leaves the errors unless it is the RESET command (R303). -/
theorem exec_of_firstFailure_eq_none {s : State} {ctl : BitVec 8} {v : Word} (h : firstFailure s ctl v = none) :
    ∃ t, exec (decodeBus ctl v) s = .next t ∧ (SameErrors s t ∨ (ctl = 0x80 ∧ v = 1 ∧ t = resetCmd s)) := by
  rcases firstFailure_eq_none_cases h with ⟨hread, hal⟩ | ⟨rfl, hv, hidle⟩ | rfl | ⟨hw, hal, hctx, hidle⟩
  · obtain ⟨x, hx⟩ := exec_aligned_read hread hal v s
    exact ⟨_, hx, .inl ⟨rfl, rfl⟩⟩
  · obtain ⟨t, hc, ht⟩ := command_of_accepted hv hidle
    exact ⟨t, (exec_cmd_write 0x80 v s rfl rfl).trans hc, ht.imp_right fun hreset => ⟨rfl, hreset⟩⟩
  · exact ⟨setData v s, rfl, .inl ⟨rfl, rfl⟩⟩
  · obtain ⟨op, hop⟩ := exec_context_write (writeAddress_decodeBus hw hal v) hctx
    obtain ⟨hexec, hstore⟩ := hop s
    rw [whenReady_idle hidle] at hexec
    have herr := congrArg State.err hstore.frame
    have hecause := congrArg State.ecause hstore.frame
    exact ⟨op s, hexec, .inl ⟨herr, hecause⟩⟩

/-- Settles O20: `exec_of_firstFailure` where a check fails, `exec_of_firstFailure_eq_none` where none does. -/
theorem firstFailedCheckDecides : Obligations.FirstFailedCheckDecides := by
  intro s ctl wdata
  cases hf : firstFailure s ctl wdata with
  | some c =>
    refine ⟨_, exec_of_firstFailure hf, fun c' hc' => ?_, nofun⟩
    obtain rfl := Option.some.inj hc'
    split_ifs
    · exact respond_zero_raiseErr c s
    · exact raiseErr_eq_errorState c s
  | none =>
    obtain ⟨t, hexec, ht⟩ := exec_of_firstFailure_eq_none hf
    refine ⟨t, hexec, nofun, fun _ => ?_⟩
    rcases ht with same | ⟨hctl, hone, rfl⟩
    · exact .inl ⟨same.err, same.ecause⟩
    · exact .inr ⟨hctl, hone, rfl, rfl⟩

/-! ## The errors of a step -/

/-- No host transaction is next, or one that fails no check. -/
def PassesChecks (s : State) : Prop :=
  ∀ ctl wdata rest, s.inputs = .host 4 ctl wdata :: rest → firstFailure s ctl wdata = none

/-- What a step makes of ERR and ECAUSE (R302). -/
inductive ErrorsStep (s t : State) : Prop
  | raised (ctl : BitVec 8) (wdata : Word) (rest : List Input) (c : Cause)
      (input : s.inputs = .host 4 ctl wdata :: rest) (failed : firstFailure s ctl wdata = some c)
      (err : t.err = true) (ecause : t.ecause = if s.err then s.ecause else c)
  | cleared (input : (∃ rest, s.inputs = .reset :: rest) ∨ ∃ rest, s.inputs = .host 4 0x80 1 :: rest)
      (passes : PassesChecks s) (err : t.err = false) (ecause : t.ecause = .none)
  | kept (passes : PassesChecks s) (same : SameErrors s t)

/-- The engine's turn raises no error and clears none (R203, R208). -/
theorem engine_turn_errors {s t : State} (h : exec (decodeStep (sel s)) s = .next t) : SameErrors s t := by
  rcases engine_turn_cases s with ⟨-, e⟩ | ⟨-, e⟩ | ⟨-, e⟩ | ⟨-, e⟩ <;> cases e.symm.trans h
  · exact ⟨rfl, rfl⟩
  · rw [advanceRound_eq]
    exact ⟨rfl, rfl⟩
  · cases hf : s.fstate with
    | none => rw [accumulate_none hf]; exact ⟨rfl, rfl⟩
    | pad2 => rw [accumulate_pad2 hf]; exact ⟨rfl, rfl⟩
    | last => rw [accumulate_last hf]; exact ⟨rfl, rfl⟩

/-- The host's transaction raises an error, clears it or leaves it, by the check that it fails (R302, R305). -/
theorem errorsStep_host {s t : State} {ctl : BitVec 8} {wdata : Word} {rest : List Input}
    (hin : s.inputs = .host 4 ctl wdata :: rest) (h : exec (decodeBus ctl wdata) { s with inputs := rest } = .next t) :
    ErrorsStep s t := by
  obtain ⟨t', hexec, hfails, hpasses⟩ := firstFailedCheckDecides { s with inputs := rest } ctl wdata
  obtain rfl := Host.Outcome.next.inj (hexec.symm.trans h)
  cases hf : firstFailure s ctl wdata with
  | some c =>
    have ht := hfails c hf
    exact .raised ctl wdata rest c hin hf (congrArg State.err ht) (congrArg State.ecause ht)
  | none =>
    have hchecks : PassesChecks s := by
      intro ctl' wdata' rest' hin'
      cases hin.symm.trans hin'
      exact hf
    rcases hpasses hf with ⟨herr, hecause⟩ | ⟨rfl, rfl, herr, hecause⟩
    · exact .kept hchecks ⟨herr, hecause⟩
    · exact .cleared (.inr ⟨rest, hin⟩) hchecks herr hecause

/-- Every step that answers a next state is one of these. -/
theorem step_errorsStep {s t : State} (h : step s = .next t) : ErrorsStep s t := by
  rcases step_cases h with ⟨rest, hin, rfl⟩ | ⟨-, ctl, wdata, rest, hin, hexec⟩ | ⟨-, rest, hin, hexec⟩
  · exact .cleared (.inl ⟨rest, hin⟩) (fun _ _ _ hhost => by cases hin.symm.trans hhost) rfl rfl
  · exact errorsStep_host hin hexec
  · have same := engine_turn_errors (s := { s with inputs := rest }) hexec
    refine .kept (fun _ _ _ hhost => ?_) ⟨same.err, same.ecause⟩
    rcases hin with hin | ⟨hin, -⟩ <;> cases hin.symm.trans hhost

/-- Settles O21: each clause is read off the three cases of `ErrorsStep`. -/
theorem errIsStickyUntilReset : Obligations.ErrIsStickyUntilReset := by
  intro s t _ hstep
  cases step_errorsStep hstep with
  | raised ctl wdata rest c input failed err ecause =>
    refine ⟨fun herr => .inl ⟨err, ecause.trans (if_pos herr)⟩, fun herr ctl' wdata' rest' c' hin hfail => ?_,
      fun _ _ => ⟨ctl, wdata, rest, c, input, failed⟩⟩
    cases input.symm.trans hin
    cases failed.symm.trans hfail
    exact ⟨err, by rw [ecause, herr]; rfl⟩
  | cleared input passes err ecause =>
    refine ⟨fun _ => .inr ⟨input, err, ecause⟩, fun _ ctl wdata rest c hin hfail => ?_, fun _ ht => ?_⟩
    · cases (passes ctl wdata rest hin).symm.trans hfail
    · cases err.symm.trans ht
  | kept passes same =>
    refine ⟨fun herr => .inl ⟨same.err.trans herr, same.ecause⟩, fun _ ctl wdata rest c hin hfail => ?_,
      fun herr ht => ?_⟩
    · cases (passes ctl wdata rest hin).symm.trans hfail
    · cases (same.err.trans herr).symm.trans ht

end Sys2Proof.Machine
end

section
/-! Hardware reset and the READY hazards (70_reset_and_hazards.md R330, R334, R339 to R341): what each agent's turn does
to the phase, and the engine's turns counted down until READY returns. -/

namespace Sys2Proof.Machine

open Sys2Proof.Claims

/-! ## Hardware reset and dropped commands -/

/-- Settles O10: the step is `hardwareReset`, whose fields are the column of R52. -/
theorem hardwareResetSetsEveryRegister : Obligations.HardwareResetSetsEveryRegister := by
  intro s rest hin
  have hzero {n : Nat} (j : Fin n) : (Vector.replicate n (0 : Word))[j] = 0 := by simp
  have hstatus : status State.reset = 1 := by decide
  exact ⟨_, step_of_reset_next hin, rfl, fun j => ⟨hzero j, hzero j⟩, hzero, rfl, rfl, rfl, rfl, rfl, rfl, rfl, rfl,
    rfl, rfl, rfl, rfl, rfl, rfl, hstatus⟩

/-- Settles O25: the guard of both commands raises CMD_BUSY. -/
theorem busyCommandsAreDropped : Obligations.BusyCommandsAreDropped := by
  intro s hbusy
  have hdrop (op : State → State) : whenReady .cmdBusy op s = errorState .cmdBusy s :=
    (whenReady_busy hbusy).trans (raiseErr_eq_errorState .cmdBusy s)
  exact ⟨fun k => (exec_updateOf k s).trans (congrArg Host.Outcome.next (hdrop _)),
    congrArg Host.Outcome.next (hdrop finalize)⟩

/-! ## The phase after a command -/

/-- An UPDATE starts a block exactly when its bytes fill the buffer (R164, R165). -/
theorem update_phase (s : State) {n : Nat} (hn : n ≤ 64) :
    (update n s).phase = if s.bufLen.toNat + n < 64 then s.phase else .round := by
  split_ifs with hroom
  · obtain ⟨b, hupdate, -⟩ := update_within s n hroom
    rw [hupdate]
    rfl
  · obtain ⟨b0, b1, hupdate, -⟩ := update_full s n (Nat.le_of_not_lt hroom) hn
    rw [hupdate]
    rfl

/-- A command word that takes READY away from an idle engine: FINALIZE, or an UPDATE that fills the buffer (R339). -/
def StartsBlock (v : Word) (s : State) : Prop :=
  v = 3 ∨ ∃ k : Fin 5, v = updateWord k.val ∧ 64 ≤ s.bufLen.toNat + k.val

/-- What a command can do to the phase: nothing, RESET's IDLE, or the start of a block with READY = 1 (R160). -/
theorem command_phase {v : Word} {s t : State} (h : command v s = .next t) :
    t.phase = s.phase ∨ (v = 1 ∧ t.phase = .idle) ∨ (StartsBlock v s ∧ s.phase = .idle) := by
  rcases command_cases v s with ⟨-, hc⟩ | ⟨-, hc⟩ | ⟨hone, hc⟩ | ⟨k, rfl, hc⟩ | ⟨rfl, hc⟩ <;>
    obtain rfl := Host.Outcome.next.inj (hc.symm.trans h)
  · exact .inl (raiseErr_phase _ s)
  · exact .inl rfl
  · exact .inr (.inl ⟨hone, rfl⟩)
  · rcases whenReady_cases .cmdBusy (update k.val) s with ⟨hidle, hop⟩ | ⟨-, hop⟩ <;> rw [hop]
    · by_cases hroom : s.bufLen.toNat + k.val < 64
      · exact .inl ((update_phase s (by omega)).trans (if_pos hroom))
      · exact .inr (.inr ⟨.inr ⟨k, rfl, by omega⟩, hidle⟩)
    · exact .inl (raiseErr_phase _ s)
  · rcases whenReady_cases .cmdBusy finalize s with ⟨hidle, hop⟩ | ⟨-, hop⟩ <;> rw [hop]
    · exact .inr (.inr ⟨.inl rfl, hidle⟩)
    · exact .inl (raiseErr_phase _ s)

/-- Of the host's transactions only a write to CMD changes the phase (R143, R154, R303). -/
theorem host_phase {ctl : BitVec 8} {v : Word} {s t : State} (h : exec (decodeBus ctl v) s = .next t) :
    t.phase = s.phase ∨
      (ctl = 0x80 ∧ ((v = 1 ∧ t.phase = .idle) ∨ (StartsBlock v s ∧ s.phase = .idle))) := by
  cases hf : firstFailure s ctl v with
  | some c =>
    obtain rfl := Host.Outcome.next.inj ((exec_of_firstFailure hf).symm.trans h)
    refine .inl ?_
    split_ifs
    · exact raiseErr_phase c s
    · exact raiseErr_phase c s
  | none =>
    rcases firstFailure_eq_none_cases hf with ⟨hread, hal⟩ | ⟨rfl, -, -⟩ | rfl | ⟨hw, hal, hctx, hidle⟩
    · obtain ⟨x, hx⟩ := exec_aligned_read hread hal v s
      obtain rfl := Host.Outcome.next.inj (hx.symm.trans h)
      exact .inl rfl
    · exact (command_phase ((exec_cmd_write 0x80 v s rfl rfl).symm.trans h)).imp_right fun hp => ⟨rfl, hp⟩
    · obtain rfl : setData v s = t := Host.Outcome.next.inj h
      exact .inl rfl
    · obtain ⟨op, hop⟩ := exec_context_write (writeAddress_decodeBus hw hal v) hctx
      obtain ⟨hexec, hstore⟩ := hop s
      rw [whenReady_idle hidle] at hexec
      obtain rfl := Host.Outcome.next.inj (hexec.symm.trans h)
      have hphase := congrArg State.phase hstore.frame
      exact .inl hphase

/-! ## The phase after the engine's turn -/

/-- ACCUM ends the block in IDLE, or starts the second padding block (R209 to R211). -/
theorem accumulate_phase (s : State) : (accumulate s).phase = if s.fstate = .pad2 then .round else .idle := by
  cases hf : s.fstate with
  | none => rw [accumulate_none hf]; rfl
  | pad2 => rw [accumulate_pad2 hf]; rfl
  | last => rw [accumulate_last hf]; rfl

/-- A round stays in ROUND, but the last leads to ACCUM (R203). -/
theorem advanceRound_phase (i : BitVec 6) (s : State) :
    (advanceRound i s).phase = if i.toNat < 63 then s.phase else .accum := by rw [advanceRound_eq]

/-- The engine keeps IDLE, and enters it only by an ACCUM that latches no second padding block (R202, R209, R211). -/
theorem engine_turn_ready {s t : State} (h : exec (decodeStep (sel s)) s = .next t) :
    (s.phase = .idle → t.phase = .idle) ∧
      (s.phase ≠ .idle → t.phase = .idle → s.phase = .accum ∧ s.fstate ≠ .pad2) := by
  rcases engine_turn_cases s with ⟨hp, e⟩ | ⟨hp, e⟩ | ⟨hp, e⟩ | ⟨-, e⟩ <;> cases e.symm.trans h
  · exact ⟨id, fun hbusy => absurd hp hbusy⟩
  · refine ⟨fun hidle => absurd (hp.symm.trans hidle) (by decide), fun hbusy hidle => ?_⟩
    rw [advanceRound_phase] at hidle
    split_ifs at hidle
    exact absurd hidle hbusy
  · refine ⟨fun hidle => absurd (hp.symm.trans hidle) (by decide), fun _ hidle => ⟨hp, fun hpad2 => ?_⟩⟩
    rw [accumulate_phase, if_pos hpad2] at hidle
    cases hidle

/-- Settles O39: hardware reset leaves IDLE, the host's transactions are `host_phase`, the engine's turn is
`engine_turn_ready`. -/
theorem readyChangesOnlyAsStated : Obligations.ReadyChangesOnlyAsStated := by
  intro s t _ hstep
  rcases step_cases hstep with ⟨rest, hin, rfl⟩ | ⟨-, ctl, v, rest, hin, hexec⟩ | ⟨-, rest, hin, hexec⟩
  · exact ⟨fun _ hfall => absurd rfl hfall, fun _ _ => .inr (.inr ⟨rest, hin⟩)⟩
  · rcases host_phase hexec with hsame | ⟨rfl, ⟨rfl, hidle⟩ | ⟨hstart, hidle⟩⟩
    · exact ⟨fun hidle hfall => absurd (hsame.trans hidle) hfall,
        fun hbusy hrise => absurd (hsame.symm.trans hrise) hbusy⟩
    · exact ⟨fun _ hfall => absurd hidle hfall, fun _ _ => .inr (.inl ⟨rest, hin⟩)⟩
    · have hword : ∀ k : Fin 5, updateWord k.val = BitVec.ofNat 32 (16 * k.val + 2) := by decide
      refine ⟨fun _ _ => ⟨v, rest, hin, hstart.imp_right ?_⟩, fun hbusy _ => absurd hidle hbusy⟩
      rintro ⟨k, rfl, hfull⟩
      exact ⟨k, hword k, hfull⟩
  · obtain ⟨hkeep, hrise⟩ := engine_turn_ready (s := { s with inputs := rest }) hexec
    refine ⟨fun hidle hfall => absurd (hkeep hidle) hfall, fun hbusy hidle => .inl ?_⟩
    obtain ⟨haccum, hlast⟩ := hrise hbusy hidle
    refine ⟨haccum, hlast, ?_⟩
    rcases hin with hin | ⟨hin, -⟩
    · exact .inr ⟨rest, hin⟩
    · exact .inl hin

/-! ## The turns until READY returns (R340, R341) -/

/-- The turns of the second padding block, where it is still to come (R210). -/
def turnsOfSecondBlock (s : State) : Nat := if s.fstate = .pad2 then 65 else 0

/-- The engine's turns from `s` until READY returns: what is left of the block in flight, and of a second one. -/
def turnsToReady (s : State) : Nat :=
  match s.phase with
  | .idle => 0
  | .round => 65 - s.r.toNat + turnsOfSecondBlock s
  | .accum => 1 + turnsOfSecondBlock s
  | .unused => 0

theorem turnsToReady_idle {s : State} (h : s.phase = .idle) : turnsToReady s = 0 := by simp only [turnsToReady, h]

theorem turnsToReady_round {s : State} (h : s.phase = .round) :
    turnsToReady s = 65 - s.r.toNat + turnsOfSecondBlock s := by simp only [turnsToReady, h]

theorem turnsToReady_accum {s : State} (h : s.phase = .accum) : turnsToReady s = 1 + turnsOfSecondBlock s := by
  simp only [turnsToReady, h]

theorem turnsToReady_le (s : State) : turnsToReady s ≤ 130 := by
  have hsecond : turnsOfSecondBlock s ≤ 65 := by unfold turnsOfSecondBlock; split <;> omega
  unfold turnsToReady
  split <;> omega

/-- READY is what no more turns are needed for. -/
theorem turnsToReady_eq_zero_iff {s : State} (hused : s.phase ≠ .unused) : turnsToReady s = 0 ↔ s.phase = .idle := by
  have hr := s.r.isLt
  rcases phase_cases s with hp | hp | hp | hp
  · simp only [turnsToReady_idle hp, hp]
  · simp only [turnsToReady_round hp, hp]
    exact ⟨fun h => by omega, nofun⟩
  · simp only [turnsToReady_accum hp, hp]
    exact ⟨fun h => by omega, nofun⟩
  · exact absurd hp hused

/-- A round is one turn less, the last one included, after which ACCUM is left (R203). -/
theorem advanceRound_turnsToReady {s : State} (hround : s.phase = .round) :
    (advanceRound s.r s).phase ≠ .unused ∧ turnsToReady s = turnsToReady (advanceRound s.r s) + 1 := by
  have hr := s.r.isLt
  have hleft := turnsToReady_round hround
  by_cases hmore : s.r.toNat < 63
  · have hnext : advanceRound s.r s = { s with r := s.r + 1 } := if_pos hmore
    have hsucc : (s.r + 1).toNat = s.r.toNat + 1 := BitVec.toNat_add_of_lt (y := 1#6) (by simp; omega)
    have hleft' : turnsToReady { s with r := s.r + 1 } = 65 - (s.r + 1).toNat + turnsOfSecondBlock s :=
      turnsToReady_round hround
    rw [hnext]
    exact ⟨by simp [hround], by omega⟩
  · have hnext : advanceRound s.r s = { s with phase := .accum } := if_neg hmore
    have hleft' : turnsToReady { s with phase := .accum } = 1 + turnsOfSecondBlock s := turnsToReady_accum rfl
    rw [hnext]
    exact ⟨nofun, by omega⟩

/-- ACCUM is the last turn of its block (R209 to R211). -/
theorem accumulate_turnsToReady {s : State} (haccum : s.phase = .accum) :
    (accumulate s).phase ≠ .unused ∧ turnsToReady s = turnsToReady (accumulate s) + 1 := by
  rw [turnsToReady_accum haccum, turnsOfSecondBlock]
  cases hf : s.fstate with
  | none => rw [accumulate_none hf]; exact ⟨nofun, rfl⟩
  | pad2 => rw [accumulate_pad2 hf]; exact ⟨nofun, rfl⟩
  | last => rw [accumulate_last hf]; exact ⟨nofun, rfl⟩

/-- With a block in flight the engine's turn is one turn less until READY. -/
theorem engine_turn_counts_down {s : State} (hused : s.phase ≠ .unused) (hbusy : s.phase ≠ .idle) :
    ∃ t, exec (decodeStep (sel s)) s = .next t ∧ t.phase ≠ .unused ∧ turnsToReady s = turnsToReady t + 1 := by
  rcases engine_turn_cases s with ⟨hp, -⟩ | ⟨hp, e⟩ | ⟨hp, e⟩ | ⟨hp, -⟩
  · exact absurd hp hbusy
  · exact ⟨_, e, advanceRound_turnsToReady
      (s := rotateWork ((roundSum (roundFunction s.r) s.r s).rotateLeft (shiftAmount s.r)) s) hp⟩
  · exact ⟨_, e, accumulate_turnsToReady hp⟩
  · exact absurd hp hused

/-- `m` turns count down by `m`, as long as READY has not returned. -/
theorem run_counts_down (rest : List Input) (m k : Nat) : ∀ s : State, s.everReset = true → s.phase ≠ .unused →
    m ≤ turnsToReady s → ∃ u, core.run m (engineTurns (m + k) rest s) = .next u ∧ u.phase ≠ .unused ∧
      turnsToReady s = m + turnsToReady u := by
  induction m with
  | zero =>
    intro s _ hused _
    exact ⟨_, rfl, hused, (Nat.zero_add _).symm⟩
  | succ m ih =>
    intro s hreset hused hm
    have hbusy : s.phase ≠ .idle := fun hidle => by rw [turnsToReady_idle hidle] at hm; omega
    obtain ⟨t, hturn, hused', hcount⟩ := engine_turn_counts_down hused hbusy
    obtain ⟨-, hreset'⟩ := engine_turn_frame hturn
    obtain ⟨u, hrun, hu, hcount'⟩ := ih t (hreset'.trans hreset) hused' (by omega)
    refine ⟨u, ?_, hu, by omega⟩
    rw [Nat.add_right_comm]
    exact run_succ_eq_next_iff.mpr ⟨_, step_engineTurns_succ hreset hturn (m + k) rest, hrun⟩

/-- READY returns with the last of `turnsToReady s` turns, and not before. -/
theorem run_turnsToReady {s : State} (hreset : s.everReset = true) (hused : s.phase ≠ .unused) (rest : List Input) :
    (∀ m, m < turnsToReady s →
      ∃ u, core.run m (engineTurns (turnsToReady s) rest s) = .next u ∧ u.phase ≠ .idle) ∧
    ∃ u, core.run (turnsToReady s) (engineTurns (turnsToReady s) rest s) = .next u ∧ u.phase = .idle := by
  refine ⟨fun m hm => ?_, ?_⟩
  · obtain ⟨k, hk⟩ := Nat.exists_eq_add_of_le hm.le
    obtain ⟨u, hrun, -, hcount⟩ := run_counts_down rest m k s hreset hused hm.le
    refine ⟨u, hk ▸ hrun, fun hidle => ?_⟩
    have hzero := turnsToReady_idle hidle
    omega
  · obtain ⟨u, hrun, hu, hcount⟩ := run_counts_down rest (turnsToReady s) 0 s hreset hused le_rfl
    exact ⟨u, hrun, (turnsToReady_eq_zero_iff hu).mp (by omega)⟩

/-- Settles O44: `run_turnsToReady`, since a legal state is not in phase 11. -/
theorem engineAlwaysReturnsToReady : Obligations.EngineAlwaysReturnsToReady := by
  intro s rest hreset hinv
  obtain ⟨-, hready⟩ := run_turnsToReady hreset (hinv hreset).phase_used rest
  exact ⟨turnsToReady s, turnsToReady_le s, hready⟩

/-! ## The turns after a command (R340) -/

/-- An accepted UPDATE leaves 65 turns if it fills the buffer, and none if it does not. -/
theorem update_turnsToReady {s : State} (hidle : s.phase = .idle) {n : Nat} (hn : n ≤ 64) :
    (update n s).phase ≠ .unused ∧ turnsToReady (update n s) = if s.bufLen.toNat + n < 64 then 0 else 65 := by
  split_ifs with hroom
  · have hphase : (update n s).phase = .idle := by rw [update_phase s hn, if_pos hroom, hidle]
    exact ⟨by simp [hphase], turnsToReady_idle hphase⟩
  · obtain ⟨b0, b1, hupdate, -⟩ := update_full s n (Nat.le_of_not_lt hroom) hn
    rw [hupdate]
    exact ⟨nofun, rfl⟩

/-- FINALIZE leaves the 65 turns of its block, and 65 more if it pads two. -/
theorem finalize_turnsToReady (s : State) :
    (finalize s).phase ≠ .unused ∧ turnsToReady (finalize s) = if s.bufLen.toNat ≤ 55 then 65 else 130 := by
  split_ifs with hone
  · rw [finalize_onePad hone]
    exact ⟨nofun, rfl⟩
  · rw [finalize_twoPad hone]
    exact ⟨nofun, rfl⟩

/-- Settles O43: `run_turnsToReady` from the state that the accepted command leaves. -/
theorem stepsUntilReady : Obligations.StepsUntilReady := by
  intro s i n rest hreset hidle hi
  obtain ⟨t, hexec, hreset', hused, rfl⟩ : ∃ t, exec i s = .next t ∧ t.everReset = true ∧ t.phase ≠ .unused ∧
      turnsToReady t = n := by
    rcases hi with ⟨k, rfl, rfl⟩ | ⟨rfl, rfl⟩
    · have hk : k.val ≤ 64 := by omega
      obtain ⟨-, -, -, -, -, hmark⟩ := update_frame s hk
      exact ⟨_, exec_updateOf_idle hidle k, hmark.trans hreset, update_turnsToReady hidle hk⟩
    · exact ⟨_, congrArg Host.Outcome.next (whenReady_idle hidle), (latched_finalize hreset).everReset,
        finalize_turnsToReady s⟩
  exact ⟨t, hexec, run_turnsToReady hreset' hused rest⟩

end Sys2Proof.Machine
end

section
/-! The instructions from their words (20_memory.md R71, 30_encoding.md R100 to R110): decoding undoes encoding, an
aligned CTL is its address, and SEL is its phase and round. -/

namespace Sys2Proof.Machine

open Sys2Proof.Claims

/-! ## Decoding undoes encoding -/

/-- WE is bit 7 of CTL (R100). -/
theorem we_eq_false_of_lt : ∀ ctl : BitVec 8, ctl.toNat < 128 → ctl[7] = false := by decide

/-- A read ignores WDATA (R100). -/
theorem decodeBus_read_congr {ctl : BitVec 8} (hread : ctl.toNat < 128) (v w : Word) :
    decodeBus ctl v = decodeBus ctl w := by
  simp only [decodeBus, we_eq_false_of_lt ctl hread, Bool.false_eq_true, if_false]

/-- An instruction that some transaction decodes to is decoded from its own words too: they are that transaction, but
for the WDATA that a read ignores (R100, R110). -/
theorem decode_encode_of_decodeBus {i : Instr} {ctl : BitVec 8} {wdata : Word} (h : decodeBus ctl wdata = i) :
    decode (encode i) = .ok i := by
  obtain ⟨-, henc⟩ := encode_decodeBus ctl wdata
  rw [← h, henc]
  refine congrArg Except.ok ?_
  split_ifs with hread
  · exact decodeBus_read_congr hread 0 wdata
  · rfl

/-- An instruction that some selector decodes to encodes to that selector (R109). -/
theorem decode_encode_of_decodeStep {i : Instr} {x : BitVec 8} (h : decodeStep x = i) : decode (encode i) = .ok i := by
  obtain ⟨-, henc⟩ := encode_decodeStep x
  rw [← h, henc]
  rfl

/-- Settles O1: each instruction is the one of some word, and `encode` gives that word back. -/
theorem decodeOfEncodeIsTheInstruction : Obligations.DecodeOfEncodeIsTheInstruction := by
  intro i hwf
  cases i with
  | rdMisalignedOdd hi =>
    have row : ∀ hi : BitVec 6, decodeBus (0#1 ++ hi ++ 1#1) 0 = .rdMisalignedOdd hi := by decide
    exact decode_encode_of_decodeBus (row hi)
  | rdMisalignedTwo slot =>
    have row : ∀ slot : BitVec 5, decodeBus (0#1 ++ slot ++ 2#2) 0 = .rdMisalignedTwo slot := by decide
    exact decode_encode_of_decodeBus (row slot)
  | wrMisalignedOdd hi v =>
    have row : ∀ hi : BitVec 6, decodeBus (1#1 ++ hi ++ 1#1) 0 = .wrMisalignedOdd hi 0 := by decide
    exact decode_encode_of_decodeBus (decodeBus_of_zero (row hi) v)
  | wrMisalignedTwo slot v =>
    have row : ∀ slot : BitVec 5, decodeBus (1#1 ++ slot ++ 2#2) 0 = .wrMisalignedTwo slot 0 := by decide
    exact decode_encode_of_decodeBus (decodeBus_of_zero (row slot) v)
  | rdCmd | rdData | rdStatus | rdBufLen | rdLenLo | rdLenHi | rdRsvd _ | rdH _ | rdDout _ | rdBuf _ =>
    exact decode_encode_of_decodeBus (decodeBus_of_readAddress rfl 0)
  | wrCmd _ | wrData _ | wrStatus _ | wrBufLen _ | wrLenLo _ | wrLenHi _ | wrRsvd _ _ | wrH _ _ | wrDout _ _
  | wrBuf _ _ => exact decode_encode_of_decodeBus (decodeBus_of_writeAddress rfl)
  | nop | reset | updateNb0 | updateNb1 | updateNb2 | updateNb3 | updateNb4 | finalize => rfl
  | reservedCmd v =>
    have hill : cmdLegal v = false := by simpa [wellFormed] using hwf
    exact congrArg Except.ok (decodeCmd_of_not_legal hill)
  | idleNoStep r => exact decode_encode_of_decodeStep (decodeStep_idle r)
  | roundF0 lo => exact decode_encode_of_decodeStep (decodeStep_stage0 lo)
  | roundF1 lo => exact decode_encode_of_decodeStep (decodeStep_stage1 lo)
  | roundF2 lo => exact decode_encode_of_decodeStep (decodeStep_stage2 lo)
  | roundF3 lo => exact decode_encode_of_decodeStep (decodeStep_stage3 lo)
  | accum r => exact decode_encode_of_decodeStep (decodeStep_accum r)
  | unreachablePhase3 r => exact decode_encode_of_decodeStep (decodeStep_unused r)

/-- Settles O7: the decoder evaluated on each word. -/
theorem sampleWordsDecode : Obligations.SampleWordsDecode := by
  unfold Obligations.SampleWordsDecode
  decide

/-! ## The address of an aligned CTL -/

/-- An aligned CTL without WE decodes to the read of its address (R71, R101). -/
theorem readAddress_decodeBus {ctl : BitVec 8} (hread : ctl.toNat < 128) (hal : ctl.toNat % 4 = 0) (v : Word) :
    readAddress (decodeBus ctl v) = some ctl.toNat := by
  have row : ∀ ctl : BitVec 8, ctl.toNat < 128 → ctl.toNat % 4 = 0 →
      readAddress (decodeBus ctl 0) = some ctl.toNat := by decide
  rw [decodeBus_read_congr hread v 0, row ctl hread hal]

/-- Settles O4: `readAddress_decodeBus` below 128, `writeAddress_decodeBus` with WE from there up. -/
theorem addressesSelectTheirRegister : Obligations.AddressesSelectTheirRegister := by
  intro ctl wdata hal
  refine ⟨fun hread => readAddress_decodeBus hread hal wdata, fun hwrite => ?_⟩
  have hlt := ctl.isLt
  have haddr : ctl.toNat % 128 = ctl.toNat - 128 := by omega
  rw [← haddr]
  exact writeAddress_decodeBus (by omega) (by omega) wdata

/-! ## The step of a selector -/

/-- SEL has the phase above the round (R109). -/
theorem sel_toNat (s : State) : (sel s).toNat = s.phase.code.toNat * 64 + s.r.toNat := toNat_append _ _

/-- Settles O6: SEL by `sel_toNat`, its row by phase, and in ROUND by stage. -/
theorem selectorChoosesTheStep : Obligations.SelectorChoosesTheStep := by
  intro s
  have hsel := sel_toNat s
  refine ⟨fun hp => ?_, fun hp => ?_, fun hp => ?_, fun hp => ?_⟩
  · exact ⟨by rw [hsel, hp]; exact Nat.zero_add _, by rw [sel, hp]; exact decodeStep_idle s.r⟩
  · exact ⟨by rw [hsel, hp]; rfl, by rw [sel, hp]; exact decodeStep_accum s.r⟩
  · exact ⟨by rw [hsel, hp]; rfl, by rw [sel, hp]; exact decodeStep_unused s.r⟩
  · exact ⟨by rw [hsel, hp]; rfl, fun st hst => decodeStep_sel_round hp hst⟩

end Sys2Proof.Machine
end

section
/-! The legal combinations of register values (10_state.md R39 to R44, 30_encoding.md R109, 42_compression.md R201):
those of the reset state, kept by the host's transactions, by the engine's turn and by hardware reset. -/

namespace Sys2Proof.Machine

open Sys2Proof.Claims

/-! ## Legal states by phase -/

/-- In IDLE the rules ask for `r = 0`, `fstate = NONE` and a cause for each error (R39, R41, R44). -/
theorem legal_of_idle {s : State} (hidle : s.phase = .idle) (hr : s.r = 0) (hf : s.fstate = .none)
    (hcause : s.err = false ↔ s.ecause = .none) : Legal s where
  phase_used := by simp [hidle]
  idle_round := fun _ => hr
  idle_fstate := fun _ => hf
  accum_round := by simp [hidle]
  cause := hcause
  finalizing_dvalid := fun hne => absurd hf hne
  finalizing_bufLen := fun hne => absurd hf hne
  finalizing_buf := fun hne => absurd hf hne

/-- In ROUND they ask of a FINALIZE in flight that DVALID is clear and the buffer is empty (R43, R201). -/
theorem legal_of_round {s : State} (hround : s.phase = .round) (hcause : s.err = false ↔ s.ecause = .none)
    (hfinal : s.fstate ≠ .none → s.dvalid = false ∧ s.bufLen = 0 ∧ s.buf = Vector.replicate 16 0) : Legal s where
  phase_used := by simp [hround]
  idle_round := by simp [hround]
  idle_fstate := by simp [hround]
  accum_round := by simp [hround]
  cause := hcause
  finalizing_dvalid := fun hne => (hfinal hne).1
  finalizing_bufLen := fun hne => (hfinal hne).2.1
  finalizing_buf := fun hne => (hfinal hne).2.2

theorem legal_reset : Legal State.reset := legal_of_idle rfl rfl rfl (by decide)

/-- Settles O42: the reset state is idle with an empty context. -/
theorem resetStateIsLegal : Obligations.ResetStateIsLegal :=
  ⟨legal_reset, fun _ => legal_reset, represents_nil rfl rfl rfl rfl rfl⟩

/-- DATA, the transitions to come and the value read last are in no rule. -/
theorem Legal.of_host_fields {s : State} (hs : Legal s) (v : Word) (l : List Input) (x : Option Word) :
    Legal { s with data := v, inputs := l, rdata := x } := { hs with }

/-! ## The host's transactions -/

/-- Each check of R305 has its own cause, never "no error" (R301). -/
theorem firstFailure_ne_some_none (s : State) (ctl : BitVec 8) (v : Word) : firstFailure s ctl v ≠ some .none := by
  simp only [firstFailure]
  split_ifs <;> simp

/-- `raise ERR(c)` records a cause with the error (R302). -/
theorem Legal.after_raiseErr {s : State} (hs : Legal s) {c : Cause} (hc : c ≠ .none) : Legal (raiseErr c s) := by
  have hcause : (if s.err then s.ecause else c) ≠ .none := by
    split_ifs with herr
    · exact fun hnone => absurd (hs.cause.mpr hnone) (by simp [herr])
    · exact hc
  rw [raiseErr_eq]
  exact { hs with cause := ⟨nofun, fun hnone => absurd hnone hcause⟩ }

/-- An UPDATE with READY = 1 leaves an idle engine, or a block in flight that ends no message (R164, R165). -/
theorem Legal.after_update {s : State} (hs : Legal s) (hidle : s.phase = .idle) {n : Nat} (hn : n ≤ 64) :
    Legal (update n s) := by
  rcases Nat.lt_or_ge (s.bufLen.toNat + n) 64 with hroom | hfull
  · obtain ⟨b, hupdate, -⟩ := update_within s n hroom
    rw [hupdate]
    exact legal_of_idle hidle (hs.idle_round hidle) (hs.idle_fstate hidle) hs.cause
  · obtain ⟨b0, b1, hupdate, -⟩ := update_full s n hfull hn
    rw [hupdate]
    exact legal_of_round rfl hs.cause fun hne => absurd rfl hne

/-- A FINALIZE clears DVALID and its latch empties the buffer (R168, R201). -/
theorem Legal.after_finalize {s : State} (hs : Legal s) : Legal (finalize s) := by
  obtain ⟨m, hfinalize⟩ := finalize_eq s
  rw [hfinalize]
  exact legal_of_round rfl hs.cause fun _ => ⟨rfl, rfl, rfl⟩

theorem Legal.after_command {v : Word} {s t : State} (hs : Legal s) (h : command v s = .next t) : Legal t := by
  rcases command_cases v s with ⟨-, hc⟩ | ⟨-, hc⟩ | ⟨-, hc⟩ | ⟨k, -, hc⟩ | ⟨-, hc⟩ <;>
    obtain rfl := Host.Outcome.next.inj (hc.symm.trans h)
  · exact hs.after_raiseErr nofun
  · exact hs
  · exact legal_of_idle rfl rfl rfl ⟨fun _ => rfl, fun _ => rfl⟩
  · rcases whenReady_cases .cmdBusy (update k.val) s with ⟨hidle, hop⟩ | ⟨-, hop⟩ <;> rw [hop]
    · exact hs.after_update hidle (by omega)
    · exact hs.after_raiseErr nofun
  · rcases whenReady_cases .cmdBusy finalize s with ⟨-, hop⟩ | ⟨-, hop⟩ <;> rw [hop]
    · exact hs.after_finalize
    · exact hs.after_raiseErr nofun

/-- A host transaction keeps the rules: a failed check raises its cause, and what passes the checks is a read, a
command, a write to DATA, or a context write to an idle engine (R305). -/
theorem Legal.after_host {ctl : BitVec 8} {v : Word} {s t : State} (hs : Legal s)
    (h : exec (decodeBus ctl v) s = .next t) : Legal t := by
  cases hf : firstFailure s ctl v with
  | some c =>
    obtain rfl := Host.Outcome.next.inj ((exec_of_firstFailure hf).symm.trans h)
    have hraise : Legal (raiseErr c s) :=
      hs.after_raiseErr fun hc => firstFailure_ne_some_none s ctl v (hc ▸ hf)
    split_ifs
    · exact hraise.of_host_fields _ _ (some 0)
    · exact hraise
  | none =>
    rcases firstFailure_eq_none_cases hf with ⟨hread, hal⟩ | ⟨rfl, -, -⟩ | rfl | ⟨hw, hal, hctx, hidle⟩
    · obtain ⟨x, hx⟩ := exec_aligned_read hread hal v s
      obtain rfl := Host.Outcome.next.inj (hx.symm.trans h)
      exact hs.of_host_fields _ _ (some x)
    · exact hs.after_command ((exec_cmd_write 0x80 v s rfl rfl).symm.trans h)
    · obtain rfl : setData v s = t := Host.Outcome.next.inj h
      exact hs.of_host_fields v _ _
    · obtain ⟨op, hop⟩ := exec_context_write (writeAddress_decodeBus hw hal v) hctx
      obtain ⟨hexec, hstore⟩ := hop s
      rw [whenReady_idle hidle] at hexec
      obtain rfl := Host.Outcome.next.inj (hexec.symm.trans h)
      rw [hstore.frame]
      exact legal_of_idle hidle (hs.idle_round hidle) (hs.idle_fstate hidle) hs.cause

/-! ## The engine's turn -/

/-- A round is followed by the next, or after round 63 by ACCUM with `r` left at 63 (R39, R203). -/
theorem Legal.after_advanceRound {s : State} (hs : Legal s) (hround : s.phase = .round) : Legal (advanceRound s.r s) := by
  have hr := s.r.isLt
  by_cases hmore : s.r.toNat < 63
  · have hnext : advanceRound s.r s = { s with r := s.r + 1 } := if_pos hmore
    rw [hnext]
    exact legal_of_round hround hs.cause fun hne =>
      ⟨hs.finalizing_dvalid hne, hs.finalizing_bufLen hne, hs.finalizing_buf hne⟩
  · have hnext : advanceRound s.r s = { s with phase := .accum } := if_neg hmore
    have hlast : s.r = 63 := BitVec.eq_of_toNat_eq (show s.r.toNat = 63 by omega)
    rw [hnext]
    exact { hs with phase_used := nofun, idle_round := nofun, idle_fstate := nofun, accum_round := fun _ => hlast }

/-- The working variables are in no rule. -/
theorem Legal.after_rotateWork {s : State} (hs : Legal s) (x : Word) : Legal (rotateWork x s) := { hs with }

/-- ACCUM leaves an idle engine, or the second padding block of a FINALIZE, which cleared DVALID (R209 to R211). -/
theorem Legal.after_accumulate {s : State} (hs : Legal s) : Legal (accumulate s) := by
  cases hf : s.fstate with
  | none =>
    rw [accumulate_none hf]
    exact legal_of_idle rfl rfl hf hs.cause
  | pad2 =>
    rw [accumulate_pad2 hf]
    exact legal_of_round rfl hs.cause fun _ => ⟨hs.finalizing_dvalid (by simp [hf]), rfl, rfl⟩
  | last =>
    rw [accumulate_last hf]
    exact legal_of_idle rfl rfl rfl hs.cause

theorem Legal.after_engine_turn {s t : State} (hs : Legal s) (h : exec (decodeStep (sel s)) s = .next t) : Legal t := by
  rcases engine_turn_cases s with ⟨-, e⟩ | ⟨hround, e⟩ | ⟨-, e⟩ | ⟨-, e⟩ <;> cases e.symm.trans h
  · exact hs
  · exact (hs.after_rotateWork _).after_advanceRound hround
  · exact hs.after_accumulate

/-- Settles O41: hardware reset gives the values of the reset state, and the two other agents have the turn after the
first reset only, when the state before it is legal. -/
theorem stepKeepsTheLegalStates : Obligations.StepKeepsTheLegalStates := by
  intro s t hinv hstep _
  rcases step_cases hstep with ⟨rest, -, rfl⟩ | ⟨hreset, ctl, wdata, rest, -, hexec⟩ | ⟨hreset, rest, -, hexec⟩
  · exact legal_reset.of_host_fields _ rest _
  · exact ((hinv hreset).of_host_fields s.data rest s.rdata).after_host hexec
  · exact ((hinv hreset).of_host_fields s.data rest s.rdata).after_engine_turn hexec

end Sys2Proof.Machine
end

section
/-! What a step takes from the list of transitions, and what else it does to the model's own fields (logs 1 to 4, 14):
the engine's turn, hardware reset, the fault before it, and the reads, which alone answer on the bus. -/

namespace Sys2Proof.Machine

open Sys2Proof.Claims

/-! ## The fetch -/

/-- Before the first hardware reset the transition that is fetched stops the machine (R53). -/
theorem afterFirstReset_of_not_everReset {s : State} (h : s.everReset = false) (f : Fetched) :
    afterFirstReset s f = .stop .beforeFirstReset := if_neg (by simp [h])

/-- With nothing listed the engine has the turn (log 2). -/
theorem fetch_nil {s : State} (hreset : s.everReset = true) (hin : s.inputs = []) : fetch s = engineTurn s := by
  simp only [fetch, hin, afterFirstReset_of_everReset hreset]

/-- A step whose fetch stops the machine is a fault for the same reason. -/
theorem step_of_fetch_stop {s : State} {f : Fault} (h : fetch s = .stop f) : step s = .fault f := by
  simp only [step, h]

/-- Settles O9: a listed turn by `step_of_engine_next`, the turn of an empty list by `fetch_nil`. -/
theorem stepRunsTheSelectedEngineStep : Obligations.StepRunsTheSelectedEngineStep :=
  fun _ _ hreset => ⟨step_of_engine_next hreset, fun hin => step_of_fetch_run (fetch_nil hreset hin)⟩

/-- Settles O11: `hardwareReset` writes every field but the transitions to come. -/
theorem hardwareResetLeavesTheResetState : Obligations.HardwareResetLeavesTheResetState :=
  fun _ _ hin => step_of_reset_next hin

/-- Settles O12: the fetch of either agent's transition stops. -/
theorem nothingRunsBeforeTheFirstReset : Obligations.NothingRunsBeforeTheFirstReset := by
  intro s rest hunreset
  refine ⟨fun width ctl wdata hin => step_of_fetch_stop ?_, fun hin => step_of_fetch_stop ?_⟩
  · simp only [fetch, hin, afterFirstReset_of_not_everReset hunreset]
  · simp only [fetch, hin, afterFirstReset_of_not_everReset hunreset]

/-! ## States with the same model fields -/

/-- `t` holds what `s` holds in the model's own fields (logs 1, 3, 4). -/
structure SameModelFields (s t : State) : Prop where
  inputs : t.inputs = s.inputs
  everReset : t.everReset = s.everReset
  rdata : t.rdata = s.rdata

theorem sameModelFields_refl (s : State) : SameModelFields s s := ⟨rfl, rfl, rfl⟩

theorem sameModelFields_raiseErr (c : Cause) (s : State) : SameModelFields s (raiseErr c s) := by
  constructor <;> simp

theorem sameModelFields_whenReady {c : Cause} {op : State → State} {s : State} (hop : SameModelFields s (op s)) :
    SameModelFields s (whenReady c op s) := by
  rcases whenReady_cases c op s with ⟨-, h⟩ | ⟨-, h⟩ <;> rw [h]
  · exact hop
  · exact sameModelFields_raiseErr c s

theorem sameModelFields_update (s : State) {n : Nat} (hn : n ≤ 64) : SameModelFields s (update n s) := by
  rcases Nat.lt_or_ge (s.bufLen.toNat + n) 64 with hroom | hfull
  · obtain ⟨b, hupdate, -⟩ := update_within s n hroom
    rw [hupdate]
    exact ⟨rfl, rfl, rfl⟩
  · obtain ⟨b0, b1, hupdate, -⟩ := update_full s n hfull hn
    rw [hupdate]
    exact ⟨rfl, rfl, rfl⟩

theorem sameModelFields_finalize (s : State) : SameModelFields s (finalize s) := by
  obtain ⟨m, hm⟩ := finalize_eq s
  rw [hm]
  exact ⟨rfl, rfl, rfl⟩

theorem sameModelFields_command {v : Word} {s t : State} (h : command v s = .next t) : SameModelFields s t := by
  rcases command_cases v s with ⟨-, hc⟩ | ⟨-, hc⟩ | ⟨-, hc⟩ | ⟨k, -, hc⟩ | ⟨-, hc⟩ <;>
    obtain rfl := Host.Outcome.next.inj (hc.symm.trans h)
  · exact sameModelFields_raiseErr _ s
  · exact sameModelFields_refl s
  · exact ⟨rfl, rfl, rfl⟩
  · exact sameModelFields_whenReady (sameModelFields_update s (by omega))
  · exact sameModelFields_whenReady (sameModelFields_finalize s)

theorem sameModelFields_roundStep {f : Word → Word → Word → Word} {i : BitVec 6} {s t : State}
    (h : roundStep f i s = .next t) : SameModelFields s t := by
  rw [roundStep_eq_next, advanceRound_eq] at h
  obtain rfl := Host.Outcome.next.inj h
  exact ⟨rfl, rfl, rfl⟩

theorem sameModelFields_accumulate (s : State) : SameModelFields s (accumulate s) := by
  cases hf : s.fstate with
  | none => rw [accumulate_none hf]; exact ⟨rfl, rfl, rfl⟩
  | pad2 => rw [accumulate_pad2 hf]; exact ⟨rfl, rfl, rfl⟩
  | last => rw [accumulate_last hf]; exact ⟨rfl, rfl, rfl⟩

/-! ## What every instruction does to the model's fields -/

/-- `i` is a read, aligned or misaligned. -/
def IsRead (i : Instr) : Prop :=
  readAddress i ≠ none ∨ (∃ hi, i = .rdMisalignedOdd hi) ∨ ∃ slot, i = .rdMisalignedTwo slot

/-- A read answers, and writes no other field of the model; every other instruction leaves them all (R74, R130). -/
theorem exec_modelFields {i : Instr} {s t : State} (h : exec i s = .next t) :
    SameModelFields s t ∨ (IsRead i ∧ ∃ v u, SameModelFields s u ∧ t = respond v u) := by
  cases i with
  | rdMisalignedOdd hi =>
    cases h; exact .inr ⟨.inr (.inl ⟨hi, rfl⟩), 0, _, sameModelFields_raiseErr .misaligned s, rfl⟩
  | rdMisalignedTwo slot =>
    cases h; exact .inr ⟨.inr (.inr ⟨slot, rfl⟩), 0, _, sameModelFields_raiseErr .misaligned s, rfl⟩
  | rdCmd | rdData | rdStatus | rdBufLen | rdLenLo | rdLenHi | rdRsvd _ | rdH _ | rdDout _ | rdBuf _ =>
    cases h; exact .inr ⟨.inl nofun, _, s, sameModelFields_refl s, rfl⟩
  | wrMisalignedOdd _ _ | wrMisalignedTwo _ _ | wrStatus _ | wrRsvd _ _ | wrDout _ _ | reservedCmd _ =>
    cases h; exact .inl (sameModelFields_raiseErr _ s)
  | wrBufLen _ | wrLenLo _ | wrLenHi _ | wrH _ _ | wrBuf _ _ =>
    cases h; exact .inl (sameModelFields_whenReady ⟨rfl, rfl, rfl⟩)
  | wrCmd v => exact .inl (sameModelFields_command h)
  | wrData _ | reset => cases h; exact .inl ⟨rfl, rfl, rfl⟩
  | nop | idleNoStep _ => cases h; exact .inl (sameModelFields_refl s)
  | updateNb0 | updateNb1 | updateNb2 | updateNb3 | updateNb4 =>
    cases h; exact .inl (sameModelFields_whenReady (sameModelFields_update s (by decide)))
  | finalize => cases h; exact .inl (sameModelFields_whenReady (sameModelFields_finalize s))
  | roundF0 _ | roundF1 _ | roundF2 _ | roundF3 _ => exact .inl (sameModelFields_roundStep h)
  | accum _ => cases h; exact .inl (sameModelFields_accumulate s)
  | unreachablePhase3 _ => cases h

/-- Settles O40: both cases of `exec_modelFields`. -/
theorem onlyReadsAnswerTheBus : Obligations.OnlyReadsAnswerTheBus := by
  intro i s t hexec
  rcases exec_modelFields hexec with same | ⟨hread, v, u, same, rfl⟩
  · exact ⟨same.inputs, same.everReset, fun hne => absurd same.rdata hne⟩
  · exact ⟨same.inputs, same.everReset, fun _ => hread⟩

end Sys2Proof.Machine
end
